-- ==== Sys2Proof/Word.lean ====
section
/-! DEFINITION. The word types of the block and the triple that groups three of them (rules R7, R8, R10). -/

namespace Sys2Proof

/-- A data register or one word of a bucket entry: a 256-bit unsigned integer (rules R7, R10). -/
abbrev Word := BitVec 256

/-- A command word, 32 bits (rule R45). -/
abbrev CmdWord := BitVec 32

/-- Three like things standing for the coordinates X, Y and Z of a Jacobian point (rule R74), or for the
three words 0, 1, 2 of an operand or result register triple (rule R10). -/
structure Triple (α : Type) where
  x : α
  y : α
  z : α
  deriving DecidableEq, Repr, Inhabited

/-- The same function on each of the three. -/
def Triple.map {α β : Type} (f : α → β) (t : Triple α) : Triple β :=
  ⟨f t.x, f t.y, f t.z⟩

/-- Word `i` of a triple, `i` = 0, 1, 2. -/
def Triple.get {α : Type} (t : Triple α) (i : Fin 3) : α :=
  if i = 0 then t.x else if i = 1 then t.y else t.z

/-- The triple with word `i` replaced. -/
def Triple.set {α : Type} (t : Triple α) (i : Fin 3) (v : α) : Triple α :=
  if i = 0 then { t with x := v } else if i = 1 then { t with y := v } else { t with z := v }

end Sys2Proof
end

