-- ==== Sys2Proof/Config.lean ====
section
/-! DEFINITION. What the spec fixes for this hardware (rules R2 and R6) and the values it leaves free (rules R21
and R22; log entries 2, 3 and 4). -/

namespace Sys2Proof.Config

/-- The base prime of secp256k1 (rules R2 and R6). -/
def p : Nat := 2 ^ 256 - 2 ^ 32 - 977

/-- The parameters of the block (rule R6): `W_MAX`, the largest window width a `BRED` command may name, and `ID_JAC`, the
identity the block produces. -/
structure Params where
  wMax : Nat
  idJac : Triple Nat
  deriving DecidableEq, Repr

/-- `NBKT`, the number of bucket-memory entries of a block with these parameters (rules R6 and R30). -/
def Params.nbkt (c : Params) : Nat := 2 ^ c.wMax

/-- `W_MAX` of this hardware (rule R6). -/
def wMax : Nat := 16

/-- `NBKT` of this hardware (rules R6 and R30). -/
def nbkt : Nat := 2 ^ wMax

/-- `ID_JAC` of this hardware (rules R6 and R74). -/
def idJac : Triple Nat := ⟨1, 1, 0⟩

/-- The parameters of this hardware (rule R6). -/
def params : Params := ⟨wMax, idJac⟩

/-- FREE VALUE (log entry 3). The supply from which a command whose operands are unspecified takes its unspecified
result words (rule R22): draw number `n`. It has no body, so nothing can be proved of a value of it. -/
opaque freeWord : Nat → Word

/-- FREE VALUE (log entry 2). What the host reads from data register `i` when nothing has written it since reset
number `epoch` (rules R21 and R22). No body. -/
opaque unspecifiedReg (epoch i : Nat) : Word

/-- FREE VALUE (log entry 4). What the host reads from bucket entry `b` when nothing has written it since reset
number `epoch` (rules R21 and R22). No body. -/
opaque unspecifiedBucket (epoch b : Nat) : Triple Word

end Sys2Proof.Config
end

