-- ==== Sys2Proof/Syntax.lean ====
section
/-! DEFINITION. The commands of the block, one constructor per row of spec/opcode_table.json (rules R47 and R52). -/

namespace Sys2Proof

/-- The five commands. Every operand and result register is fixed by the command (rule R11); the one field of an
encoding is the window width of `BRED`, an unsigned count (rule R46). -/
inductive Instr where
  /-- `FMUL`, field multiply (rule R66). -/
  | fmul
  /-- `FRED`, field reduce (rule R67). -/
  | fred
  /-- `PDBL`, point double (rule R76). -/
  | pdbl
  /-- `PADD`, point add (rule R78). -/
  | padd
  /-- `BRED w`, bucket reduce by running sum (rule R91). -/
  | bred (w : Nat)
  deriving DecidableEq, Repr

end Sys2Proof
end

