-- ==== Sys2Proof/WellFormed.lean ====
section
/-! DEFINITION. Which terms of Instr are commands: the range of `w` in rules R47, R48 and R52. -/

namespace Sys2Proof

/-- A window width a `BRED` may name when `W_MAX` is `wMax`: 1 to `W_MAX` (rules R6 and R47). -/
def widthOkWith (wMax w : Nat) : Bool := decide (1 ≤ w ∧ w ≤ wMax)

/-- A window width a `BRED` of this hardware may name (rule R47). -/
def widthOk (w : Nat) : Bool := widthOkWith Config.wMax w

theorem widthOkWith_iff (wMax w : Nat) : widthOkWith wMax w = true ↔ 1 ≤ w ∧ w ≤ wMax := decide_eq_true_iff

theorem widthOk_iff (w : Nat) : widthOk w = true ↔ 1 ≤ w ∧ w ≤ 16 := widthOkWith_iff _ _

/-- Every command but `BRED` is well formed as it stands; `BRED w` asks for a legal width. A `BRED` with another
`w` is not a command: its word is illegal with code `BAD_W` (rule R91, exceptions). -/
def Instr.wellFormed : Instr → Bool
  | .fmul => true
  | .fred => true
  | .pdbl => true
  | .padd => true
  | .bred w => widthOk w

end Sys2Proof
end

