-- ==== Sys2Proof/Decode.lean ====
section
/-! DEFINITION. Decoding of a command word (rules R45 to R48) and, after it, the encoder (rule R55). -/

namespace Sys2Proof

/-- Why a word is no command (rule R121); the numbers are those of `STATUS.ERRCODE` (rule R15). -/
inductive ErrCode where
  /-- Code 1: a reserved bit is set, the opcode is reserved, or `w` is not 0 outside `BRED`. -/
  | illegalOp
  /-- Code 2: a `BRED` word whose `w` is 0 or above `W_MAX`. -/
  | badW
  deriving DecidableEq, Repr

/-- What a command word decodes to (rule R48). -/
inductive Decoded where
  | legal (i : Instr)
  | illegal (code : ErrCode)
  deriving DecidableEq, Repr

/-- `bits[hi:lo]` of a command word (rule R8). -/
def bits (hi lo : Nat) (c : CmdWord) : Nat := c.toNat / 2 ^ lo % 2 ^ (hi - lo + 1)

/-- Field `op`, bits 2:0 (rule R45). -/
def opField (c : CmdWord) : Nat := bits 2 0 c

/-- Field `rsv0`, bits 7:3 (rule R45). -/
def rsv0Field (c : CmdWord) : Nat := bits 7 3 c

/-- Field `w`, bits 12:8 (rules R45 and R46). -/
def wField (c : CmdWord) : Nat := bits 12 8 c

/-- Field `rsv1`, bits 31:13 (rule R45). -/
def rsv1Field (c : CmdWord) : Nat := bits 31 13 c

/-- The check of a command that takes no width: its `w` field must be 0 (rule R48). -/
def withoutWidth (w : Nat) (i : Instr) : Decoded :=
  if w ≠ 0 then .illegal .illegalOp else .legal i

/-- The decoder of rule R48 for a largest width `wMax`, its checks in the rule's order: reserved bits, then reserved
opcodes (0, 6 and 7 fall to the last arm), then the width. -/
def decodeWith (wMax : Nat) (c : CmdWord) : Decoded :=
  if rsv0Field c ≠ 0 ∨ rsv1Field c ≠ 0 then .illegal .illegalOp
  else
    match opField c with
    | 1 => withoutWidth (wField c) .fmul
    | 2 => withoutWidth (wField c) .fred
    | 3 => withoutWidth (wField c) .pdbl
    | 4 => withoutWidth (wField c) .padd
    | 5 => if wField c = 0 ∨ wMax < wField c then .illegal .badW else .legal (.bred (wField c))
    | _ => .illegal .illegalOp

/-- Decode of a command word by this hardware (rule R48 with `W_MAX` = 16). -/
def decode (c : CmdWord) : Decoded := decodeWith Config.wMax c

/-- The instruction a word stands for, none where the decoder rejects it. -/
def decodeLegal (c : CmdWord) : Option Instr :=
  match decode c with
  | .legal i => some i
  | .illegal _ => none

/-- The command word whose low `nbits` bits are those of `w` and whose other bits are 0. A command is exactly one
32-bit word (rule R51), and words cross the interface as integers, so no byte order enters (rule R31). -/
def tableWord (nbits w : Nat) : CmdWord := BitVec.ofNat 32 (w % 2 ^ nbits)

/-- What this decoder reads from an instruction of `nbits` bits, numbered as the opcode table numbers them. -/
def decodeTableWord (nbits w : Nat) : Option Instr :=
  if nbits ≤ 32 then decodeLegal (tableWord nbits w) else none

/-- The opcode of each command (rule R47). -/
def opcodeOf : Instr → Nat
  | .fmul => 1
  | .fred => 2
  | .pdbl => 3
  | .padd => 4
  | .bred _ => 5

/-- The width field of each command: 0 outside `BRED` (rule R45). -/
def widthOf : Instr → Nat
  | .fmul => 0
  | .fred => 0
  | .pdbl => 0
  | .padd => 0
  | .bred w => w

/-- The encoder (rule R55): opcode in bits 2:0, width from bit 8 on, reserved bits 0. -/
def encode (i : Instr) : CmdWord := BitVec.ofNat 32 (opcodeOf i + 256 * widthOf i)

theorem decode_fmul_word : decode 0x00000001 = .legal .fmul := by decide

theorem decode_fred_word : decode 0x00000002 = .legal .fred := by decide

theorem decode_pdbl_word : decode 0x00000003 = .legal .pdbl := by decide

theorem decode_padd_word : decode 0x00000004 = .legal .padd := by decide

theorem decode_bred_word_1 : decode 0x00000105 = .legal (.bred 1) := by decide

theorem decode_bred_word_16 : decode 0x00001005 = .legal (.bred 16) := by decide

end Sys2Proof
end

