-- ==== Sys2Proof/Machine/State.lean ====
section
/-! DEFINITION. The state of the block and of the host that drives it, the reasons a step stops, and the state after
reset (rules R10 to R23, R30, R53, R100, R135). -/

namespace Sys2Proof.Machine

/-- One data register (rule R10): its 256-bit value, and whether anything has written it since reset. A register
nothing has written holds an unspecified value (rule R22); its `val` is then a placeholder that no operation reads
(log entry 1). -/
structure Reg where
  val : Word
  written : Bool
  deriving DecidableEq, Repr

/-- A register nothing has written since reset (rules R21 and R22; log entry 1: placeholder 0, DESIGN CHOICE). -/
def Reg.unwritten : Reg := ⟨0, false⟩

/-- The four fields of `STATUS` (rule R15). Bits 31:5 of the register are hardwired 0 and stand in no field. -/
structure Status where
  busy : Bool
  done : Bool
  err : Bool
  errcode : BitVec 2
  deriving DecidableEq, Repr

/-- The bucket memory `BKT` (rule R30): pairs of a bucket index and the entry at it, three words X, Y, Z. The unit of
address is one whole entry, which has no bytes (rules R30 and R31). An index that is not listed was not written since
reset and has no value (rule R22; log entry 4). -/
abbrev Memory := List (Nat × Triple Word)

/-- Everything that belongs to the block itself: the data registers as the triples A, B and R (rule R10: x[0..2],
x[3..5], x[6..8]), the bucket memory, `STATUS`, and the command that was accepted and has not completed (rules R20, R49
and R50). There is no program counter (rule R13), no arithmetic flag (rule R14) and no counter (rule R130). -/
structure Block where
  a : Triple Reg
  b : Triple Reg
  r : Triple Reg
  bkt : Memory
  status : Status
  running : Option Instr
  deriving DecidableEq, Repr

/-- A word the host writes: a numeral, or one of its variables `t0`, `t1`, `t2` (rules R53 and R54). -/
inductive HostWord where
  | lit (v : Word)
  | var (t : Fin 3)
  deriving DecidableEq, Repr

/-- The statements of a host script (rule R53). Register numbers are exactly those the interface can express (rule R12). How
many bucket indices it can express is a parameter of the block (rules R6 and R33), so an index is a number and the step
refuses one that is no index of the block. -/
inductive Stmt where
  /-- `WR i, v`: `HostWriteReg` of x[0] to x[5] (rule R12). -/
  | wr (i : Fin 6) (v : HostWord)
  /-- `RD i` or `t = RD i`: `HostReadReg` of x[0] to x[8] (rule R12), the value kept in a host variable if one is named. -/
  | rd (t : Option (Fin 3)) (i : Fin 9)
  /-- `WRB b, (X, Y, Z)`: `HostWriteBkt` (rule R33). -/
  | wrb (b : Nat) (x y z : HostWord)
  /-- `RDB b` or `(t0, t1, t2) = RDB b`: `HostReadBkt` (rule R33). -/
  | rdb (keep : Bool) (b : Nat)
  /-- `CMD c`: `HostCommand` of any 32-bit word (rule R49). The command starts and completes later. -/
  | cmd (c : CmdWord)
  /-- `WAIT`: poll `STATUS` until `BUSY` is 0 (rule R53). -/
  | wait
  /-- `RDS`: `HostReadStatus` (rule R15). -/
  | rds
  /-- `RESET` (rule R135). -/
  | reset
  /-- `RUN c`, that is `CMD c ; WAIT` (rule R54), with acceptance and completion as one step (rule R50). -/
  | run (c : CmdWord)
  deriving DecidableEq, Repr

/-- Whose turn it is (rule R100: two agents): the host, with a statement, or the block, which completes the command it
runs or, when idle, does nothing (rules R50 and R134). The list of moves in the state decides the interleaving. -/
inductive Move where
  | host (st : Stmt)
  | block
  deriving DecidableEq, Repr

/-- What a read transaction gave the host. -/
inductive Reply where
  | reg (i : Fin 9) (v : Word)
  | bucket (b : Nat) (e : Triple Word)
  | status (v : BitVec 32)
  deriving DecidableEq, Repr

/-- The host's side: the moves still to come, its three variables (rule R54), and the replies it has had, newest
first. The MODEL's own, outside the block (log entry 5). -/
structure HostSide where
  moves : List Move
  vars : Triple Word
  replies : List Reply
  deriving DecidableEq, Repr

/-- The machine: the block, the host, and two numbers outside both that the free values are applied to (log entries 2,
3 and 4): how many resets there have been, and how many free result words have been drawn. -/
structure State where
  block : Block
  host : HostSide
  epoch : Nat
  draws : Nat
  deriving DecidableEq, Repr

/-- The spec gives the block nothing that stops the machine with a fault: its one exception, `IllegalCommand`, leaves a
next state (rules R120, R121, R126), every access that can be expressed succeeds (rule R36), and a word nothing has
written has an unspecified value, which is a free value here (rule R22; log entries 2 to 4). So there is no constructor. -/
inductive Fault where
  deriving DecidableEq, Repr

/-- Why a step has no meaning. -/
inductive Refusal where
  /-- Raised by an arm of `exec` that has no meaning yet. No arm raises it. Safe. -/
  | notModelled (mnemonic : String)
  /-- Raised by `FMUL`, `PDBL`, `PADD` and `BRED` when a written word they read as a field element is `p` or more: the
  command's precondition fails and the spec gives the step no meaning (rules R23 and R142). Safe. -/
  | nonCanonicalOperand
  /-- Raised when the host's next statement is a transaction that is not available while `BUSY` is 1 (rule R138). Safe. -/
  | transactionWhileBusy
  /-- Raised when the host's next statement names a bucket index of `NBKT` or more: that is no transaction of the
  interface, the host cannot express it and a model gives it no move (rule R33; log entry 17). Safe. -/
  | noSuchEntry
  deriving DecidableEq, Repr

/-- What a step answers. -/
abbrev Answer := Host.Outcome State Fault Refusal

/-- `STATUS` after reset: every field 0 (rule R21). -/
def Status.reset : Status := ⟨false, false, false, 0⟩

/-- The block after reset (rules R21 and R135): `STATUS` 0, no data register and no bucket entry written, no command
running. -/
def Block.reset : Block :=
  { a := ⟨.unwritten, .unwritten, .unwritten⟩
    b := ⟨.unwritten, .unwritten, .unwritten⟩
    r := ⟨.unwritten, .unwritten, .unwritten⟩
    bkt := []
    status := .reset
    running := none }

/-- The machine right after reset: the block as rule R21 says, and a host that has nothing to do yet (log entry 5). -/
def State.reset : State :=
  { block := .reset
    host := { moves := [], vars := ⟨0, 0, 0⟩, replies := [] }
    epoch := 0
    draws := 0 }

end Sys2Proof.Machine
end

