-- ==== Sys2Proof/Machine/Flags.lean ====
section
/-! DEFINITION. `STATUS`, the only flag-like state of the block (rules R14 to R16): its word as the host reads it and
what each event does to its fields. There are no arithmetic flags (rule R14). -/

namespace Sys2Proof.Machine

/-- The number `ERRCODE` holds for each reason (rules R15 and R121). -/
def errNumber : ErrCode → BitVec 2
  | .illegalOp => 1
  | .badW => 2

/-- The 32-bit value `HostReadStatus` returns (rule R15): `BUSY` bit 0, `DONE` bit 1, `ERR` bit 2, `ERRCODE` bits 4:3,
bits 31:5 hardwired 0. -/
def Status.word (st : Status) : BitVec 32 :=
  BitVec.ofNat 32 (st.busy.toNat + 2 * st.done.toNat + 4 * st.err.toNat + 8 * st.errcode.toNat)

/-- A legal command is accepted (rule R16): `BUSY` 1, `DONE` 0. -/
def Status.accepted (st : Status) : Status := { st with busy := true, done := false }

/-- A command completes (rule R16): `BUSY` 0, `DONE` 1. -/
def Status.completed (st : Status) : Status := { st with busy := false, done := true }

/-- An illegal command is received with `ERR` 0 (rules R16 and R121): `ERR` 1 and its code; `BUSY` and `DONE` keep
their values. -/
def Status.illegal (st : Status) (code : ErrCode) : Status :=
  { st with err := true, errcode := errNumber code }

end Sys2Proof.Machine
end

