-- ==== Sys2Proof/Machine/Ops.lean ====
section
/-! DEFINITION. The named operations over the data registers, the bucket memory and the two agents' parts of the state:
every meaning and every host transaction is written over these. Taking the block's one exception stands here too. -/

namespace Sys2Proof.Machine

/-- A 256-bit word as the integer it holds (rule R7). -/
def toField (v : Word) : Nat := v.toNat

/-- The 256-bit word that holds an integer a rule shows to be below 2^256 (rule R8). -/
def ofField (v : Nat) : Word := BitVec.ofNat 256 v

/-- A word that holds a FieldElement, an integer in [0, p) (rules R9 and R23). -/
def canonical (v : Word) : Bool := v.toNat < Config.p

/-- A register holding a value something wrote (rule R22). -/
def Reg.of (v : Word) : Reg := ⟨v, true⟩

/-- Data register x[i], 0 to 8 (rule R10). -/
def Block.x (k : Block) (i : Fin 9) : Reg :=
  if i.val < 3 then k.a.get (Fin.ofNat 3 i.val)
  else if i.val < 6 then k.b.get (Fin.ofNat 3 i.val)
  else k.r.get (Fin.ofNat 3 i.val)

/-- Write of an operand register x[0] to x[5], the only ones the host can write (rule R12). -/
def Block.writeOperand (k : Block) (i : Fin 6) (v : Word) : Block :=
  if i.val < 3 then { k with a := k.a.set (Fin.ofNat 3 i.val) (.of v) }
  else { k with b := k.b.set (Fin.ofNat 3 i.val) (.of v) }

/-- The entry at a bucket index, none if nothing wrote it since reset (rules R22 and R30). -/
def Memory.read : Memory → Nat → Option (Triple Word)
  | [], _ => none
  | (k, e) :: rest, b => if k = b then some e else Memory.read rest b

/-- One indivisible write of an entry (rule R33), the list kept sorted by index. -/
def Memory.write : Memory → Nat → Triple Word → Memory
  | [], b, e => [(b, e)]
  | (k, f) :: rest, b, e =>
    if b < k then (b, e) :: (k, f) :: rest
    else if b = k then (b, e) :: rest
    else (k, f) :: Memory.write rest b e

/-- The canonical form of a bucket memory of `NBKT` entries: indices strictly rising, each below `NBKT` (rule R30). No listed entry can
equal what an unlisted index holds, since an unlisted index holds no value. -/
def Memory.wfWith (nbkt : Nat) (m : Memory) : Bool :=
  decide ((m.map Prod.fst).Pairwise (· < ·)) && m.all (fun c => c.1 < nbkt)

/-- The canonical form of this hardware's bucket memory. -/
def Memory.wf (m : Memory) : Bool := m.wfWith Config.nbkt

/-- The moves still to come, replaced. -/
def State.withMoves (s : State) (ms : List Move) : State :=
  { s with host := { s.host with moves := ms } }

/-- A reply reaches the host. -/
def State.reply (s : State) (r : Reply) : State :=
  { s with host := { s.host with replies := r :: s.host.replies } }

/-- The host keeps a word it read in one of its variables, if the statement names one (rule R54). -/
def State.keep (s : State) (t : Option (Fin 3)) (v : Word) : State :=
  match t with
  | none => s
  | some j => { s with host := { s.host with vars := s.host.vars.set j v } }

/-- The host keeps the three words of an entry in t0, t1, t2, if the statement says so (rule R54). -/
def State.keepEntry (s : State) (keep : Bool) (e : Triple Word) : State :=
  if keep then { s with host := { s.host with vars := e } } else s

/-- What the host reads from data register x[i] (rule R12): its value, or the free value of log entry 2 if nothing wrote
it since reset (rule R22). -/
def State.readReg (s : State) (i : Fin 9) : Word :=
  if (s.block.x i).written then (s.block.x i).val else Config.unspecifiedReg s.epoch i.val

/-- What the host reads from bucket entry `b` (rule R33): the entry, or the free value of log entry 4 if nothing wrote
it since reset (rule R22). -/
def State.readBkt (s : State) (b : Nat) : Triple Word :=
  (s.block.bkt.read b).getD (Config.unspecifiedBucket s.epoch b)

/-- `HostWriteReg`, its effect when available (rule R12): exactly the named register changes. -/
def State.writeReg (s : State) (i : Fin 6) (v : Word) : State :=
  { s with block := s.block.writeOperand i v }

/-- `HostWriteBkt`, its effect when available (rule R33): exactly the named entry changes. -/
def State.writeBkt (s : State) (b : Nat) (e : Triple Word) : State :=
  { s with block := { s.block with bkt := s.block.bkt.write b e } }

/-- TAKING THE EXCEPTION `IllegalCommand(code)` (rules R121 and R126): `ERR` and `ERRCODE` are written and nothing else
changes; nothing is saved and control goes nowhere. There is no return from it but reset (rule R127). -/
def State.raiseIllegalCommand (s : State) (code : ErrCode) : State :=
  { s with block := { s.block with status := s.block.status.illegal code } }

/-- Acceptance of a legal command (rule R49): `BUSY` 1, `DONE` 0, and the block starts it. -/
def State.accept (s : State) (i : Instr) : State :=
  { s with block := { s.block with status := s.block.status.accepted, running := some i } }

/-- Completion of a command (rule R50), in one indivisible action with its result writes: the new result triple, `BUSY`
0, `DONE` 1, and nothing running any more. -/
def State.complete (s : State) (r : Triple Reg) : State :=
  { s with block := { s.block with r := r, status := s.block.status.completed, running := none } }

/-- Completion of a field command: R0 is written, R1 and R2 keep what they hold (rules R11 and R140). -/
def State.completeWord (s : State) (v : Word) : State :=
  s.complete { s.block.r with x := .of v }

/-- Completion of a point command: R0, R1 and R2 are written together (rules R8 and R11). -/
def State.completePoint (s : State) (P : Triple Word) : State :=
  s.complete (P.map .of)

/-- A result word nothing constrains but rule R23, by which the block never writes a value of `p` or more: the free word
of draw `n`, reduced (log entry 3). -/
def freeElement (n : Nat) : Word := ofField ((Config.freeWord n).toNat % Config.p)

/-- The supply of free result words moves on by `n` draws. -/
def State.drawn (s : State) (n : Nat) : State := { s with draws := s.draws + n }

/-- Completion of a field command whose result is unspecified (rule R22). -/
def State.completeFreeWord (s : State) : State :=
  (s.completeWord (freeElement s.draws)).drawn 1

/-- Completion of a point command whose result is unspecified (rule R22). -/
def State.completeFreePoint (s : State) : State :=
  (s.completePoint ⟨freeElement s.draws, freeElement (s.draws + 1), freeElement (s.draws + 2)⟩).drawn 3

/-- Reset (rule R135): the block is as rule R21 says whatever it was doing, a running command is abandoned, and the words
that become unspecified take new free values. The host keeps its own side. -/
def State.resetBlock (s : State) : State :=
  { s with block := .reset, epoch := s.epoch + 1 }

end Sys2Proof.Machine
end

