-- ==== Sys2Proof/Machine/Operands.lean ====
section
/-! DEFINITION. The operand forms of the commands: words read as field elements, words read as halves of a wide integer,
and bucket entries (rules R11, R22, R23, R34); and how a command runs on what its operands are. -/

namespace Sys2Proof.Machine

/-- What the words a command reads allow. -/
inductive OperandStatus where
  /-- Every word was written since reset, and is canonical where it is read as a field element. -/
  | specified
  /-- Some word was never written since reset: the command's result is unspecified (rule R22). -/
  | unspecified
  /-- Some written word read as a field element is `p` or more: the command is refused (rule R23). -/
  | nonCanonical
  deriving DecidableEq, Repr

/-- A written word that is no FieldElement (rule R23). -/
def Reg.bad (r : Reg) : Bool := r.written && !canonical r.val

/-- Words read as field elements (rules R22 and R23). -/
def fieldStatus (rs : List Reg) : OperandStatus :=
  if rs.any Reg.bad then .nonCanonical
  else if rs.all Reg.written then .specified
  else .unspecified

/-- Words that may hold any 256-bit value, the halves `FRED` reads (rule R23, last sentence). -/
def wideStatus (rs : List Reg) : OperandStatus :=
  if rs.all Reg.written then .specified else .unspecified

/-- A triple's three words in a list. -/
def tripleRegs (t : Triple Reg) : List Reg := [t.x, t.y, t.z]

/-- An entry none of whose words is `p` or more (rules R23 and R74). -/
def canonicalEntry (e : Triple Word) : Bool := canonical e.x && canonical e.y && canonical e.z

/-- Every entry 1 to `n` was written since reset (rule R141). -/
def allWritten (m : Memory) : Nat → Bool
  | 0 => true
  | n + 1 => (m.read (n + 1)).isSome && allWritten m n

/-- Some entry 1 to `n` that was written since reset holds a word of `p` or more. Only listed indices are looked at. -/
def someEntryBad (m : Memory) (n : Nat) : Bool :=
  m.any fun c => 1 ≤ c.1 && c.1 ≤ n && (m.read c.1).any (fun e => !canonicalEntry e)

/-- The entries 1 to `n` that a `BRED` reads (rules R34 and R91). -/
def bucketStatus (m : Memory) (n : Nat) : OperandStatus :=
  if someEntryBad m n then .nonCanonical
  else if allWritten m n then .specified
  else .unspecified

/-- The integers a register triple holds: a Jacobian point (rules R8 and R74). -/
def pointOf (t : Triple Reg) : Triple Nat := t.map fun r => toField r.val

/-- `MemRead(b, 1)` as a Jacobian point (rules R8 and R30). `BRED` uses it on written entries only. -/
def bucketPoint (m : Memory) (b : Nat) : Triple Nat :=
  match m.read b with
  | some e => e.map toField
  | none => ⟨0, 0, 0⟩

/-- A command with a one-word result: `v` if its operands are specified, an unspecified word if one was never written
(rule R22), refused if one is not canonical (rule R23). -/
def State.runWord (s : State) (st : OperandStatus) (v : Nat) : Answer :=
  match st with
  | .specified => .next (s.completeWord (ofField v))
  | .unspecified => .next s.completeFreeWord
  | .nonCanonical => .refused .nonCanonicalOperand

/-- The same for a command whose result is a point. -/
def State.runPoint (s : State) (st : OperandStatus) (P : Triple Nat) : Answer :=
  match st with
  | .specified => .next (s.completePoint (P.map ofField))
  | .unspecified => .next s.completeFreePoint
  | .nonCanonical => .refused .nonCanonicalOperand

end Sys2Proof.Machine
end

