-- ==== Sys2Proof/Machine/Field.lean ====
section
/-! DEFINITION. The field primitives (rules R60 to R65) and the field commands `FMUL` and `FRED` (rules R66 and R67).
A field element is the integer in [0, p) that rule R60 says it is. -/

namespace Sys2Proof.Machine

/-- Reduction modulo p (rule R65). -/
def fred (n : Nat) : Nat := n % Config.p

/-- Field addition (rule R61). -/
def fadd (a b : Nat) : Nat := (a + b) % Config.p

/-- Field subtraction with the non-negative remainder (rules R7 and R62). -/
def fsub (a b : Nat) : Nat := (((a : Int) - (b : Int)) % (Config.p : Int)).toNat

/-- Field multiplication (rule R63). -/
def fmul (a b : Nat) : Nat := (a * b) % Config.p

/-- Field square (rule R63). -/
def fsqr (a : Nat) : Nat := fmul a a

/-- Twice a field element (rule R64). -/
def fdbl (a : Nat) : Nat := (2 * a) % Config.p

/-- Three times a field element (rule R64). -/
def ftpl (a : Nat) : Nat := (3 * a) % Config.p

/-- Four times a field element (rule R64). -/
def f4 (a : Nat) : Nat := (4 * a) % Config.p

/-- Eight times a field element (rule R64). -/
def f8 (a : Nat) : Nat := (8 * a) % Config.p

theorem p_pos : 0 < Config.p := by decide

theorem fmul_lt (a b : Nat) : fmul a b < Config.p := Nat.mod_lt _ p_pos

theorem fsub_cast_int (a b : Nat) : ((fsub a b : Nat) : Int) = ((a : Int) - (b : Int)) % (Config.p : Int) := by
  unfold fsub
  exact Int.toNat_of_nonneg (Int.emod_nonneg _ (by have := p_pos; omega))

theorem fsub_lt (a b : Nat) : fsub a b < Config.p := by
  have h := fsub_cast_int a b
  have hlt := Int.emod_lt_of_pos ((a : Int) - (b : Int)) (by have := p_pos; omega : (0 : Int) < Config.p)
  omega

/-- A FieldElement as a type: an integer in [0, p) (rules R9 and R101). -/
abbrev FieldElement := Fin Config.p

/-- A product as a FieldElement (rule R63). -/
def mulElement (a b : Nat) : FieldElement := ⟨fmul a b, fmul_lt a b⟩

/-- A difference as a FieldElement (rule R62). -/
def subElement (a b : Nat) : FieldElement := ⟨fsub a b, fsub_lt a b⟩

/-- The 512-bit value of a high and a low word (rule R8). -/
def concat (hi lo : Word) : Nat := hi.toNat * 2 ^ 256 + lo.toNat

/-- `FMUL` (rule R66): R0 is the product of A0 and B0 modulo p. -/
def execFmul (s : State) : Answer :=
  s.runWord (fieldStatus [s.block.a.x, s.block.b.x])
    (fmul (toField s.block.a.x.val) (toField s.block.b.x.val))

/-- `FRED` (rule R67): R0 is the 512-bit integer A1 * 2^256 + A0 reduced modulo p; its words may hold any value. -/
def execFred (s : State) : Answer :=
  s.runWord (wideStatus [s.block.a.x, s.block.a.y])
    (fred (concat s.block.a.y.val s.block.a.x.val))

end Sys2Proof.Machine
end

