-- ==== Sys2Proof/Machine/Point.lean ====
section
/-! DEFINITION. Jacobian point arithmetic (rules R74, R75 and R77) and the point commands `PDBL` and `PADD` (rules R76
and R78). The identity the block produces is an argument, since it is a parameter of the block (rule R6). -/

namespace Sys2Proof.Machine

/-- The identity test: Z is 0, whatever X and Y are (rule R74). -/
def isId (P : Triple Nat) : Bool := P.z = 0

/-- The doubling formulas of rule R75's last six lines. -/
def doubleGeneral (P : Triple Nat) : Triple Nat :=
  let YY := fsqr P.y
  let S := f4 (fmul P.x YY)
  let M := ftpl (fsqr P.x)
  let X3 := fsub (fsqr M) (fdbl S)
  ⟨X3, fsub (fmul M (fsub S X3)) (f8 (fsqr YY)), fdbl (fmul P.y P.z)⟩

/-- Jacobian doubling (rule R75). -/
def jdbl (idJac P : Triple Nat) : Triple Nat :=
  if P.z = 0 ∨ P.y = 0 then idJac else doubleGeneral P

/-- The normalised X of `P` against `Q`, `U1 = X1 Z2^2` (rule R77). With the operands swapped it is `U2`. -/
def normX (P Q : Triple Nat) : Nat := fmul P.x (fsqr Q.z)

/-- The normalised Y of `P` against `Q`, `S1 = Y1 Z2^3` (rule R77). With the operands swapped it is `S2`. -/
def normY (P Q : Triple Nat) : Nat := fmul P.y (fmul Q.z (fsqr Q.z))

/-- The addition formulas of rule R77's last lines. -/
def addGeneral (P Q : Triple Nat) : Triple Nat :=
  let U1 := normX P Q
  let S1 := normY P Q
  let H := fsub (normX Q P) U1
  let R := fsub (normY Q P) S1
  let HH := fsqr H
  let HHH := fmul H HH
  let V := fmul U1 HH
  let X3 := fsub (fsub (fsqr R) HHH) (fdbl V)
  ⟨X3, fsub (fmul R (fsub V X3)) (fmul S1 HHH), fmul H (fmul P.z Q.z)⟩

/-- Jacobian addition (rule R77), its cases in the rule's order. -/
def jadd (idJac P Q : Triple Nat) : Triple Nat :=
  if P.z = 0 then Q
  else if Q.z = 0 then P
  else if normX P Q = normX Q P then
    if normY P Q ≠ normY Q P then idJac else jdbl idJac P
  else addGeneral P Q

/-- `PDBL` of a block with parameters `c` (rules R6 and R76): R is the double of A. -/
def pdblWith (c : Config.Params) (s : State) : Answer :=
  s.runPoint (fieldStatus (tripleRegs s.block.a)) (jdbl c.idJac (pointOf s.block.a))

/-- `PDBL` (rule R76). -/
def execPdbl (s : State) : Answer := pdblWith Config.params s

/-- `PADD` of a block with parameters `c` (rules R6 and R78): R is the sum of A, the first operand, and B, the second. -/
def paddWith (c : Config.Params) (s : State) : Answer :=
  s.runPoint (fieldStatus (tripleRegs s.block.a ++ tripleRegs s.block.b))
    (jadd c.idJac (pointOf s.block.a) (pointOf s.block.b))

/-- `PADD` (rule R78). -/
def execPadd (s : State) : Answer := paddWith Config.params s

end Sys2Proof.Machine
end

