-- ==== Sys2Proof/Machine/Bucket.lean ====
section
/-! DEFINITION. The running-sum bucket reduction and the command `BRED` (rules R90, R91, R98). The point addition and the
identity are arguments, as 92_eei_decisions.md asks of a model that is to be compared with another implementation. -/

namespace Sys2Proof.Machine

/-- The scan of rule R91 from index `n` down to 1, on the pair (running, result): at each index the bucket is added to
running and then running to result, the accumulator first. -/
def runningScan {α : Type} (add : α → α → α) (bucket : Nat → α) : Nat → α × α → α × α
  | 0, acc => acc
  | n + 1, acc =>
    let running := add acc.1 (bucket (n + 1))
    runningScan add bucket n (running, add acc.2 running)

/-- The result of the scan over entries `n` down to 1, both accumulators starting at the identity (rule R91). -/
def bucketReduce {α : Type} (add : α → α → α) (identity : α) (bucket : Nat → α) (n : Nat) : α :=
  (runningScan add bucket n (identity, identity)).2

/-- The highest index of a bucket array of width `w`, `2^w - 1` (rules R46 and R91). -/
def lastBucket (w : Nat) : Nat := 2 ^ w - 1

/-- `BRED w` of a block with parameters `c` (rules R6 and R91): R is the running-sum reduction of entries `2^w - 1` down to
1. A width outside 1 to `W_MAX` is no `BRED`: it takes `IllegalCommand(BAD_W)` (rules R48, R91 and R121; log entry 10). -/
def bredWith (c : Config.Params) (w : Nat) (s : State) : Answer :=
  if widthOkWith c.wMax w then
    s.runPoint (bucketStatus s.block.bkt (lastBucket w))
      (bucketReduce (jadd c.idJac) c.idJac (bucketPoint s.block.bkt) (lastBucket w))
  else .next (s.raiseIllegalCommand .badW)

/-- `BRED w` (rule R91). -/
def execBred (w : Nat) (s : State) : Answer := bredWith Config.params w s

end Sys2Proof.Machine
end

