-- ==== Sys2Proof/Machine/Dispatch.lean ====
section
/-! DEFINITION. The meaning of each command: what the block does from the start of an accepted command to its completion
(rules R49 and R50), one arm a command. -/

namespace Sys2Proof.Machine

def exec (i : Instr) (s : State) : Host.Outcome State Fault Refusal :=
  match i with
  | .fmul => Sys2Proof.Machine.execFmul s
  | .fred => Sys2Proof.Machine.execFred s
  | .pdbl => Sys2Proof.Machine.execPdbl s
  | .padd => Sys2Proof.Machine.execPadd s
  | .bred w => Sys2Proof.Machine.execBred w s

end Sys2Proof.Machine
end

