-- ==== Sys2Proof/Machine/Transactions.lean ====
section
/-! DEFINITION. The transactions of the host (rules R12, R15, R33, R49, R53, R135), the completion of a running command
(rule R50), and which of the two agents moves next (rules R37 and R100). What rests on the parameters of the block (rule R6)
takes them as an argument `c`, and what runs a command takes its meaning as an argument `run`. -/

namespace Sys2Proof.Machine

/-- What a started command does, from its operands to its completion. -/
abbrev Meaning := Instr → State → Answer

/-- The value of a word in a host statement (rules R53 and R54). -/
def HostWord.value (h : HostSide) : HostWord → Word
  | .lit v => v
  | .var t => h.vars.get t

/-- A transaction that is available only with `BUSY` 0; while `BUSY` is 1 it has no meaning (rule R138). -/
def State.whenIdle (s : State) (answer : Answer) : Answer :=
  if s.block.status.busy then .refused .transactionWhileBusy else answer

/-- A transaction on bucket entry `b`: with `b` of `NBKT` or more it is none the host can express (rule R33). -/
def whenEntry (c : Config.Params) (b : Nat) (answer : Answer) : Answer :=
  if b < c.nbkt then answer else .refused .noSuchEntry

/-- `HostWriteReg(i, v)` (rule R12). -/
def hostWriteReg (i : Fin 6) (v : Word) (s : State) : Answer :=
  s.whenIdle (.next (s.writeReg i v))

/-- `HostReadReg(i)` (rule R12). -/
def hostReadReg (t : Option (Fin 3)) (i : Fin 9) (s : State) : Answer :=
  s.whenIdle (.next ((s.keep t (s.readReg i)).reply (.reg i (s.readReg i))))

/-- `HostWriteBkt(b, (X, Y, Z))` (rule R33). -/
def hostWriteBkt (c : Config.Params) (b : Nat) (e : Triple Word) (s : State) : Answer :=
  s.whenIdle (whenEntry c b (.next (s.writeBkt b e)))

/-- `HostReadBkt(b)` (rule R33). -/
def hostReadBkt (c : Config.Params) (keep : Bool) (b : Nat) (s : State) : Answer :=
  s.whenIdle (whenEntry c b (.next ((s.keepEntry keep (s.readBkt b)).reply (.bucket b (s.readBkt b)))))

/-- `HostReadStatus()`, available at any time (rule R15). -/
def hostReadStatus (s : State) : Answer :=
  .next (s.reply (.status s.block.status.word))

/-- What a presented command word does, `start` being what a legal one does (rule R49): ignored when `ERR` is 1 (rule
R123), the exception when it is illegal (rule R121). -/
def presentWord (c : Config.Params) (word : CmdWord) (s : State) (start : Instr → Answer) : Answer :=
  if s.block.status.err then .next s
  else
    match decodeWith c.wMax word with
    | .illegal code => .next (s.raiseIllegalCommand code)
    | .legal i => start i

/-- `HostCommand` of a word (rule R49): a legal command is accepted and the block starts it. -/
def hostCommand (c : Config.Params) (word : CmdWord) (s : State) : Answer :=
  s.whenIdle (presentWord c word s fun i => .next (s.accept i))

/-- `HostCommand` followed by `WAIT` (rule R54), acceptance and completion as one step (rule R50). -/
def hostRun (c : Config.Params) (run : Meaning) (word : CmdWord) (s : State) : Answer :=
  s.whenIdle (presentWord c word s fun i => run i s)

/-- The block's turn: the running command completes (rule R50); an idle block does nothing (rule R134). -/
def blockTurn (run : Meaning) (s : State) : Answer :=
  match s.block.running with
  | none => .next s
  | some i => run i s

/-- `WAIT` (rule R53): nothing once `BUSY` is 0. While it is 1 the host only polls, so the block moves, and the `WAIT`
stands again at the head of the moves. -/
def hostWait (run : Meaning) (s : State) : Answer :=
  if s.block.status.busy then blockTurn run (s.withMoves (.host .wait :: s.host.moves)) else .next s

/-- One statement of the host (rule R53), on a state from whose moves it was taken. -/
def hostStatement (c : Config.Params) (run : Meaning) (st : Stmt) (s : State) : Answer :=
  match st with
  | .wr i v => hostWriteReg i (v.value s.host) s
  | .rd t i => hostReadReg t i s
  | .wrb b x y z => hostWriteBkt c b ⟨x.value s.host, y.value s.host, z.value s.host⟩ s
  | .rdb keep b => hostReadBkt c keep b s
  | .cmd word => hostCommand c word s
  | .wait => hostWait run s
  | .rds => hostReadStatus s
  | .reset => .next s.resetBlock
  | .run word => hostRun c run word s

/-- The next move is taken. With no move left the host does nothing more: a running command completes (rule R50: every
started command completes), an idle block keeps all its state (rule R134). -/
def takeMove (c : Config.Params) (run : Meaning) (s : State) : Answer :=
  match s.host.moves with
  | [] => blockTurn run s
  | .block :: rest => blockTurn run (s.withMoves rest)
  | .host st :: rest => hostStatement c run st (s.withMoves rest)

/-- The move that hands the block a command word of the opcode table and waits for it. -/
def fetchMove (nbits w : Nat) : Move := .host (.run (tableWord nbits w))

end Sys2Proof.Machine
end

