-- ==== Sys2Proof/Machine/Step.lean ====
section
/-! DEFINITION. One step of the machine, and how a command word is placed where the next step takes it. -/

namespace Sys2Proof.Machine

/-- One step: the next move of the host or of the block (rules R37 and R100). The block fetches nothing itself (rule R13). -/
def step (s : State) : Host.Outcome State Fault Refusal := takeMove Config.params exec s

/-- The state in which the host's next statement is `RUN` of the word (log entry 5): the block has no instruction memory
(rule R13), so a command reaches it only from the host's moves. -/
def State.withFetchWord (s : State) (nbits w : Nat) : State :=
  s.withMoves (fetchMove nbits w :: s.host.moves)

end Sys2Proof.Machine
end

