-- ==== Sys2Proof/Machine/Parameters.lean ====
section
/-! DEFINITION. The machine with the parameters of rule R6 as an argument. `step` is this machine at `Config.params`. -/

namespace Sys2Proof.Machine

/-- The meaning of each command in a block with parameters `c`. -/
def execWith (c : Config.Params) : Meaning
  | .fmul, s => execFmul s
  | .fred, s => execFred s
  | .pdbl, s => pdblWith c s
  | .padd, s => paddWith c s
  | .bred w, s => bredWith c w s

/-- One step of the machine around a block with parameters `c`. -/
def stepWith (c : Config.Params) (s : State) : Answer := takeMove c (execWith c) s

/-- The hardware of this model is the one whose parameters are `Config.params`. -/
theorem execWith_params (i : Instr) (s : State) : execWith Config.params i s = exec i s := by
  cases i <;> rfl

theorem stepWith_params (s : State) : stepWith Config.params s = step s := by
  have h : execWith Config.params = exec := funext fun i => funext fun s => execWith_params i s
  simp [stepWith, step, h]

end Sys2Proof.Machine
end

