-- ==== Sys2Proof/Machine/Reference.lean ====
section
/-! DEFINITION. The host's software around the block, as pure functions (rules R69, R95, R101 to R113): conversions, the
affine golden reference, windowing, bucket accumulation and the windowed engine. None of it is a command; it is what the
block's results are held against. The identity the block produces is an argument, as it is a parameter (rule R6). The host's
procedures on the block itself stand in Procedures.lean. -/

namespace Sys2Proof.Machine

/-- An affine point, a pair of FieldElements, or the distinguished `Infinity` (rule R101). Whether a pair lies on the curve is
`onCurve`, which the host checks at the API edge (rules R102 and R113). -/
inductive Affine where
  | infinity
  | point (x y : FieldElement)
  deriving DecidableEq, Repr

/-- Square and multiply over the low `n` bits of the exponent `e`, modulo `m`. -/
def powMod (m : Nat) : Nat → Nat → Nat → Nat
  | 0, _, _ => 1 % m
  | n + 1, a, e =>
    if e % 2 = 1 then a * powMod m n (a * a % m) (e / 2) % m else powMod m n (a * a % m) (e / 2)

/-- Field inversion by exponentiation to p - 2 (rule R103); of 0 it is 0. -/
def finv (a : Nat) : Nat := powMod Config.p 256 a (Config.p - 2)

/-- The curve test of rule R102. -/
def onCurve : Affine → Bool
  | .infinity => true
  | .point x y => fsqr y.val = fadd (fmul (fsqr x.val) x.val) 7

/-- Jacobian to affine (rule R104): `Infinity` when Z is 0, with no inversion. -/
def toAffine (P : Triple Nat) : Affine :=
  if isId P then .infinity
  else
    let zi := finv P.z
    .point (mulElement P.x (fsqr zi)) (mulElement P.y (fmul (fsqr zi) zi))

/-- Affine to Jacobian, the lift (rule R105). -/
def lift (idJac : Triple Nat) : Affine → Triple Nat
  | .infinity => idJac
  | .point x y => ⟨x.val, y.val, 1⟩

/-- Mixed addition as the host obtains it from `PADD` (rule R106). -/
def mixedAdd (idJac P : Triple Nat) (Q : Affine) : Triple Nat := jadd idJac P (lift idJac Q)

/-- Affine addition from the slope `l` (rule R111). -/
def affineFromSlope (l x1 y1 x2 : Nat) : Affine :=
  let x3 := subElement (fsub (fsqr l) x1) x2
  .point x3 (subElement (fmul l (fsub x1 x3.val)) y1)

/-- The affine golden reference of addition (rule R111), its tests in the rule's order: identities, inverse points, equal
points, the general case. -/
def affineAdd : Affine → Affine → Affine
  | .infinity, Q => Q
  | P, .infinity => P
  | .point x1 y1, .point x2 y2 =>
    if x1 = x2 ∧ fadd y1.val y2.val = 0 then .infinity
    else if x1 = x2 ∧ y1 = y2 then
      affineFromSlope (fmul (ftpl (fsqr x1.val)) (finv (fdbl y1.val))) x1.val y1.val x2.val
    else affineFromSlope (fmul (fsub y2.val y1.val) (finv (fsub x2.val x1.val))) x1.val y1.val x2.val

/-- Double-and-add over the low `n` bits of the scalar (rule R111). -/
def scalarMulBits : Nat → Nat → Affine → Affine
  | 0, _, _ => .infinity
  | n + 1, k, P =>
    if k % 2 = 1 then affineAdd P (scalarMulBits n (k / 2) (affineAdd P P))
    else scalarMulBits n (k / 2) (affineAdd P P)

/-- `scalar_mul_affine(k, P)` (rule R111). -/
def scalarMulAffine (k : Nat) (P : Affine) : Affine := scalarMulBits (k.log2 + 1) k P

/-- `msm_naive` (rule R112). -/
def msmNaive (scalars : List Nat) (points : List Affine) : Affine :=
  (List.zipWith scalarMulAffine scalars points).foldl affineAdd .infinity

/-- The digits of `s` in base `2^w`, least significant first, at most `n` of them. -/
def windowDigits (w : Nat) : Nat → Nat → List Nat
  | 0, _ => []
  | n + 1, s => if s = 0 then [] else s % 2 ^ w :: windowDigits w n (s / 2 ^ w)

/-- `split_into_windows(s, w)` for w >= 1 (rule R108): `s` has at most `log2 s + 1` digits. -/
def splitIntoWindows (s w : Nat) : List Nat := windowDigits w (s.log2 + 1) s

/-- The number the digits stand for (rule R108, the invariant). -/
def windowValue (w : Nat) : List Nat → Nat
  | [] => 0
  | d :: ds => d + 2 ^ w * windowValue w ds

/-- The maximum number of windows of a batch (rule R109). -/
def maxLevels (wins : List (List Nat)) : Nat := (wins.map List.length).foldl Nat.max 0

/-- Padding with zero-windows (rule R109). -/
def padTo (n : Nat) (ws : List Nat) : List Nat := ws ++ List.replicate (n - ws.length) 0

/-- The windows of a batch of scalars, each padded to the longest (rules R108 and R109). -/
def batchWindows (scalars : List Nat) (w : Nat) : List (List Nat) :=
  let split := scalars.map fun s => splitIntoWindows s w
  split.map (padTo (maxLevels split))

/-- The window values of one level, one a scalar (rule R110). -/
def levelValues (wins : List (List Nat)) (lvl : Nat) : List Nat := wins.map fun ws => ws.getD lvl 0

/-- One contribution to a bucket (rule R107): the first is lifted, later ones use mixed addition; value 0 contributes
nothing. -/
def contribute (idJac : Triple Nat) (slots : List (Triple Nat)) (c : Affine × Nat) : List (Triple Nat) :=
  if c.2 = 0 then slots
  else
    let slot := slots.getD c.2 ⟨0, 0, 0⟩
    slots.set c.2 (if isId slot then lift idJac c.1 else mixedAdd idJac slot c.1)

/-- The buckets of one level (rule R107), every slot empty at first. -/
def buildBuckets (idJac : Triple Nat) (points : List Affine) (values : List Nat) (w : Nat) : List (Triple Nat) :=
  (points.zip values).foldl (contribute idJac) (List.replicate (2 ^ w) ⟨0, 0, 0⟩)

/-- `P` added to `t` `n` times. -/
def addTimes (idJac P : Triple Nat) : Nat → Triple Nat → Triple Nat
  | 0, t => t
  | n + 1, t => addTimes idJac P n (jadd idJac t P)

/-- One bucket's share in the explicit-weight reducer (rule R95): nothing if it is empty, else `b * bucket[b]`. -/
def explicitShare (idJac : Triple Nat) (bucket : Nat → Triple Nat) (result : Triple Nat) (b : Nat) : Triple Nat :=
  if isId (bucket b) then result
  else jadd idJac result (addTimes idJac (bucket b) (b - 1) (bucket b))

/-- The explicit-weight reducer, test-only (rule R95), over entries 1 to `n`. DESIGN CHOICE (log entry 15): it scans from
entry 1 upward; the document gives no scan direction, and the group element does not depend on it. -/
def explicitWeight (idJac : Triple Nat) (bucket : Nat → Triple Nat) (n : Nat) : Triple Nat :=
  ((List.range n).map (· + 1)).foldl (explicitShare idJac bucket) idJac

/-- The running-sum reducer, what `BRED` computes (rule R91). -/
def pippengerReduce (idJac : Triple Nat) (bucket : Nat → Triple Nat) (n : Nat) : Triple Nat :=
  bucketReduce (jadd idJac) idJac bucket n

/-- A bucket reducer of the windowed engine: the identity, the buckets, and the highest index. -/
abbrev Reducer := Triple Nat → (Nat → Triple Nat) → Nat → Triple Nat

/-- `n` doublings, as `PDBL` makes them. -/
def doublings (idJac : Triple Nat) : Nat → Triple Nat → Triple Nat
  | 0, P => P
  | n + 1, P => doublings idJac n (jdbl idJac P)

/-- One level of the windowed engine (rule R110): `w` doublings unless it is the most significant level, the level's
buckets, their reduction, and the addition of the reduced value with the accumulator first. -/
def engineLevel (idJac : Triple Nat) (reduce : Reducer) (points : List Affine) (wins : List (List Nat)) (w : Nat)
    (acc : Triple Nat) (lvl : Nat) : Triple Nat :=
  let shifted := if lvl + 1 = maxLevels wins then acc else doublings idJac w acc
  let slots := buildBuckets idJac points (levelValues wins lvl) w
  jadd idJac shifted (reduce idJac (fun b => slots.getD b ⟨0, 0, 0⟩) (lastBucket w))

/-- The windowed engine over all levels, most significant first (rule R110), as a function of points, scalars and a width that
the document does not bound. With the block the width is at most `W_MAX`: that is `windowedOnBlock` of Procedures.lean. -/
def windowedEngine (idJac : Triple Nat) (reduce : Reducer) (scalars : List Nat) (points : List Affine) (w : Nat) : Affine :=
  let wins := batchWindows scalars w
  toAffine ((List.range (maxLevels wins)).reverse.foldl (engineLevel idJac reduce points wins w) idJac)

/-- The variants of the API that use this block's coordinates (rule R113); the extended one is out of scope (rule R5). -/
inductive Variant where
  | naive
  | reference
  | pippenger
  deriving DecidableEq, Repr

/-- What the API edge reports: an `InputError` (rule R113). DESIGN CHOICE (log entry 16): the document gives it no fields and
no codes; the model tells its causes apart. -/
inductive InputError where
  /-- `scalars` and `points` differ in length. -/
  | lengthMismatch
  /-- A supplied point fails `is_on_curve`. -/
  | notOnCurve
  /-- An engine on the block is asked for a width the block has no `BRED` for (rule R110: `1 <= w <= W_MAX`). -/
  | widthNotAdmitted
  deriving DecidableEq, Repr

/-- The validation at the API edge (rule R113). DESIGN CHOICE (log entry 16): where lengths differ and a point is off the
curve as well, the lengths are reported. -/
def validate (scalars : List Nat) (points : List Affine) : Except InputError Unit :=
  if scalars.length ≠ points.length then .error .lengthMismatch
  else if points.all onCurve then .ok ()
  else .error .notOnCurve

/-- What each variant computes of validated inputs (rules R110, R112 and R113). -/
def msmValue (idJac : Triple Nat) (scalars : List Nat) (points : List Affine) (w : Nat) : Variant → Affine
  | .naive => msmNaive scalars points
  | .reference => windowedEngine idJac explicitWeight scalars points w
  | .pippenger => windowedEngine idJac pippengerReduce scalars points w

/-- `msm(scalars, points, w, variant)` (rule R113). -/
def msm (idJac : Triple Nat) (scalars : List Nat) (points : List Affine) (w : Nat) (v : Variant) : Except InputError Affine :=
  (validate scalars points).map fun _ => msmValue idJac scalars points w v

/-- `2^256 - p`, the constant of rule R69. -/
def foldConst : Nat := 0x1000003D1

/-- One fold of rule R69: the high part times the constant, added to the low part. -/
def foldOnce (n : Nat) : Nat := n % 2 ^ 256 + n / 2 ^ 256 * foldConst

/-- The reduction without division of rule R69: three folds and one conditional subtraction. -/
def foldReduce (n : Nat) : Nat :=
  let t3 := foldOnce (foldOnce (foldOnce n))
  if Config.p ≤ t3 then t3 - Config.p else t3

end Sys2Proof.Machine
end

