-- ==== Sys2Proof/Machine/Script.lean ====
section
/-! DEFINITION. The pseudo-statements of a host script and their expansions (rule R54), and a script as moves. Each is host
work: none is a command of the block. -/

namespace Sys2Proof.Machine

/-- The operand triple a pseudo-statement names. -/
inductive Side where
  | sideA
  | sideB
  deriving DecidableEq, Repr

/-- The pseudo-statements of rule R54. -/
inductive Pseudo where
  /-- `LDP A, (X, Y, Z)` and `LDP B, (X, Y, Z)`. -/
  | ldp (d : Side) (P : Triple Word)
  /-- `LDAFF A, (x, y)` and `LDAFF B, (x, y)`. -/
  | ldaff (d : Side) (x y : Word)
  /-- `LDW N`, N a 512-bit numeral. -/
  | ldw (n : BitVec 512)
  /-- `MOVP A, R` and `MOVP B, R`. -/
  | movp (d : Side)
  /-- `STB b, R`. -/
  | stb (b : Nat)
  /-- `LDB A, b`. -/
  | ldb (b : Nat)
  /-- `CLRB b`. -/
  | clrb (b : Nat)
  /-- `RUN m`, m given by its command word. -/
  | runWord (c : CmdWord)
  deriving DecidableEq, Repr

/-- Operand register word `j` of side A or B: x[0..2] or x[3..5] (rule R10). -/
def operandReg (d : Side) (j : Fin 3) : Fin 6 :=
  match d with
  | .sideA => Fin.ofNat 6 j.val
  | .sideB => Fin.ofNat 6 (3 + j.val)

/-- The three writes of an operand triple. -/
def writeTriple (d : Side) (x y z : HostWord) : List Stmt :=
  [.wr (operandReg d 0) x, .wr (operandReg d 1) y, .wr (operandReg d 2) z]

/-- The three reads of the result triple into t0, t1 and t2. -/
def readResult : List Stmt := [.rd (some 0) 6, .rd (some 1) 7, .rd (some 2) 8]

/-- The expansion of each pseudo-statement (rule R54). -/
def expand : Pseudo → List Stmt
  | .ldp d P => writeTriple d (.lit P.x) (.lit P.y) (.lit P.z)
  | .ldaff d x y => writeTriple d (.lit x) (.lit y) (.lit 1)
  | .ldw n => [.wr 0 (.lit (BitVec.ofNat 256 (n.toNat % 2 ^ 256))), .wr 1 (.lit (BitVec.ofNat 256 (n.toNat / 2 ^ 256)))]
  | .movp d => readResult ++ writeTriple d (.var 0) (.var 1) (.var 2)
  | .stb b => readResult ++ [.wrb b (.var 0) (.var 1) (.var 2)]
  | .ldb b => .rdb true b :: writeTriple .sideA (.var 0) (.var 1) (.var 2)
  | .clrb b => [.wrb b (.lit 0) (.lit 0) (.lit 0)]
  | .runWord c => [.cmd c, .wait]

/-- A script as the moves of the host (rule R53: one statement a line, run in order). -/
def scriptMoves (sts : List Stmt) : List Move := sts.map .host

end Sys2Proof.Machine
end

