-- ==== Sys2Proof/Machine/Procedures.lean ====
section
/-! DEFINITION. The host's procedures on the block (rules R95, R107 and R110): which statements the host issues, what it reads
back, and what it decides by it. Every statement is one step of the machine. The parameters of the block are the argument
`c`. -/

namespace Sys2Proof.Machine

/-- What a procedure of the host answers: what it computed and the state it leaves, or the stop of a statement. -/
abbrev Doing (α : Type) := Host.Outcome (α × State) Fault Refusal

/-- One part of a procedure after another, a stop ending it. -/
def andThen {α β : Type} (a : Host.Outcome α Fault Refusal) (next : α → Host.Outcome β Fault Refusal) :
    Host.Outcome β Fault Refusal :=
  match a with
  | .next v => next v
  | .fault r => .fault r
  | .refused r => .refused r

/-- The host issues statements in order, each one step of the machine, ahead of the moves it already has (rule R53). -/
def issue (c : Config.Params) : List Stmt → State → Answer
  | [], s => .next s
  | st :: rest, s => andThen (stepWith c (s.withMoves (.host st :: s.host.moves))) (issue c rest)

/-- `LDP` of a triple the host holds (rule R54). -/
def loadTriple (d : Side) (P : Triple Word) : List Stmt := expand (.ldp d P)

/-- `LDAFF` of an affine point; `Infinity` is loaded as its lift (rules R54 and R105). -/
def loadAffine (c : Config.Params) (d : Side) (P : Affine) : List Stmt :=
  match P with
  | .infinity => loadTriple d (c.idJac.map ofField)
  | .point x y => expand (.ldaff d (ofField x.val) (ofField y.val))

/-- Operands written, the command run, and the result triple read into host variables, which is what is computed. -/
def runFor (c : Config.Params) (operands : List Stmt) (i : Instr) (s : State) : Doing (Triple Word) :=
  andThen (issue c (operands ++ .run (encode i) :: readResult) s) fun t => .next (t.host.vars, t)

/-- `P + Q` on the block: `LDP A, P ; LDP B, Q ; RUN PADD`, and the result read. -/
def addOnBlock (c : Config.Params) (P Q : Triple Word) (s : State) : Doing (Triple Word) :=
  runFor c (loadTriple .sideA P ++ loadTriple .sideB Q) .padd s

/-- `n` times `LDP A, ACC ; RUN PDBL`, and the result read into `ACC` (rule R110). -/
def doublingsOnBlock (c : Config.Params) : Nat → Triple Word → State → Doing (Triple Word)
  | 0, acc, s => .next (acc, s)
  | n + 1, acc, s =>
    andThen (runFor c (loadTriple .sideA acc) .pdbl s) fun done => doublingsOnBlock c n done.1 done.2

/-- `CLRB b` for `b` from 1 to `n` (rule R107). -/
def clearEntries (n : Nat) : List Stmt := (List.range n).flatMap fun k => expand (.clrb (k + 1))

/-- One contribution (rule R107): for a value `b` that is not 0, `RDB b`, then the lifted point written if the entry is
empty, or else the entry and the point added and stored back. -/
def contributeOnBlock (c : Config.Params) (P : Affine) (b : Nat) (s : State) : Answer :=
  if b = 0 then .next s
  else
    andThen (issue c [.rdb true b] s) fun t =>
      if t.host.vars.z = 0 then
        let e := (lift c.idJac P).map ofField
        issue c [.wrb b (.lit e.x) (.lit e.y) (.lit e.z)] t
      else
        issue c (loadTriple .sideA t.host.vars ++ loadAffine c .sideB P ++ .run (encode .padd) :: expand (.stb b)) t

/-- The contributions of one level, in input order (rule R107). -/
def contributionsOnBlock (c : Config.Params) : List (Affine × Nat) → State → Answer
  | [], s => .next s
  | k :: rest, s => andThen (contributeOnBlock c k.1 k.2 s) (contributionsOnBlock c rest)

/-- `build_buckets(points, values, w)` on the block (rule R107). -/
def buildBucketsOnBlock (c : Config.Params) (points : List Affine) (values : List Nat) (w : Nat) (s : State) : Answer :=
  andThen (issue c (clearEntries (lastBucket w)) s) (contributionsOnBlock c (points.zip values))

/-- A reduction of the buckets of a level on the block, by the width. -/
abbrev BlockReducer := Nat → State → Doing (Triple Word)

/-- `RUN BRED w`, and the result read (rule R110, the `pippenger` variant). -/
def bredOnBlock (c : Config.Params) : BlockReducer := fun w s => runFor c [] (.bred w) s

/-- `P` added to `t` `n` times on the block (rule R95). -/
def addTimesOnBlock (c : Config.Params) (P : Triple Word) : Nat → Triple Word → State → Doing (Triple Word)
  | 0, t, s => .next (t, s)
  | n + 1, t, s => andThen (addOnBlock c t P s) fun done => addTimesOnBlock c P n done.1 done.2

/-- The explicit-weight procedure over the entries in a list, with `PADD` alone (rule R95). -/
def explicitOnBlock (c : Config.Params) : List Nat → Triple Word → State → Doing (Triple Word)
  | [], result, s => .next (result, s)
  | b :: rest, result, s =>
    andThen (issue c [.rdb true b] s) fun t =>
      let e := t.host.vars
      if e.z = 0 then explicitOnBlock c rest result t
      else
        andThen (addTimesOnBlock c e (b - 1) e t) fun multiple =>
          andThen (addOnBlock c result multiple.1 multiple.2) fun sum => explicitOnBlock c rest sum.1 sum.2

/-- The explicit-weight reduction on the block (rules R95 and R110, the `reference` variant), from entry 1 upward as in
`explicitWeight` (log entry 15). -/
def explicitReduceOnBlock (c : Config.Params) : BlockReducer := fun w s =>
  explicitOnBlock c ((List.range (lastBucket w)).map (· + 1)) (c.idJac.map ofField) s

/-- One level of the windowed engine on the block (rule R110). -/
def levelOnBlock (c : Config.Params) (reduce : BlockReducer) (points : List Affine) (wins : List (List Nat)) (w lvl : Nat)
    (acc : Triple Word) (s : State) : Doing (Triple Word) :=
  andThen (doublingsOnBlock c (if lvl + 1 = maxLevels wins then 0 else w) acc s) fun shifted =>
    andThen (buildBucketsOnBlock c points (levelValues wins lvl) w shifted.2) fun built =>
      andThen (reduce w built) fun sum => addOnBlock c shifted.1 sum.1 sum.2

/-- The levels below `n`, most significant first (rule R110). -/
def levelsOnBlock (c : Config.Params) (reduce : BlockReducer) (points : List Affine) (wins : List (List Nat)) (w : Nat) :
    Nat → Triple Word → State → Doing (Triple Word)
  | 0, acc, s => .next (acc, s)
  | n + 1, acc, s =>
    andThen (levelOnBlock c reduce points wins w n acc s) fun done => levelsOnBlock c reduce points wins w n done.1 done.2

/-- The windowed engine on the block (rule R110): all levels from the identity, and the accumulator converted to affine. -/
def windowedOnBlock (c : Config.Params) (reduce : BlockReducer) (scalars : List Nat) (points : List Affine) (w : Nat)
    (s : State) : Doing Affine :=
  let wins := batchWindows scalars w
  andThen (levelsOnBlock c reduce points wins w (maxLevels wins) (c.idJac.map ofField) s) fun done =>
    .next (toAffine (done.1.map toField), done.2)

/-- The engine on the block behind the API edge: the validation of rule R113, and the widths the block admits (rule R110). -/
def msmOnBlock (c : Config.Params) (reduce : BlockReducer) (scalars : List Nat) (points : List Affine) (w : Nat) (s : State) :
    Except InputError (Doing Affine) :=
  (validate scalars points).bind fun _ =>
    if widthOkWith c.wMax w then .ok (windowedOnBlock c reduce scalars points w s) else .error .widthNotAdmitted

end Sys2Proof.Machine
end

