-- ==== Sys2Proof/Safety.lean ====
section
/-! DEFINITION. The terms in which claims are stated: what a state of the block that a run can reach looks like, what a
command leaves alone, and what a host that obeys the rules has done. -/

namespace Sys2Proof.Machine

/-- The legal values of `STATUS` (rule R15): `BUSY` and `DONE` are never both 1, `ERRCODE` is not 0 exactly when `ERR` is
1, and the value 3 is never produced. -/
abbrev Status.legal (st : Status) : Prop :=
  ¬(st.busy = true ∧ st.done = true) ∧ (st.errcode ≠ 0 ↔ st.err = true) ∧ st.errcode ≠ 3

/-- A result register holds no value of `p` or more once written (rule R23). -/
abbrev Reg.canonicalResult (r : Reg) : Prop := r.written = true → canonical r.val = true

/-- What holds of the block in every state a run reaches: the bucket memory is in canonical form, `STATUS` is legal (rule
R15), the block is busy exactly while a command runs, which is then a legal one (rules R16 and R49), no command starts
once `ERR` is 1 (rule R123), and the result registers are canonical (rule R23). -/
structure Block.Inv (k : Block) : Prop where
  memory : k.bkt.wf = true
  status : k.status.legal
  running : k.status.busy = k.running.isSome
  legalCommand : ∀ i, k.running = some i → i.wellFormed = true
  halted : k.status.err = true → k.status.busy = false
  resultX : k.r.x.canonicalResult
  resultY : k.r.y.canonicalResult
  resultZ : k.r.z.canonicalResult

/-- A register written since reset with a canonical value (rules R22 and R23). -/
abbrev Reg.good (r : Reg) : Prop := r.written = true ∧ canonical r.val = true

/-- A register triple written since reset with canonical words: a well-formed point operand (rule R74). -/
abbrev goodPoint (t : Triple Reg) : Prop := t.x.good ∧ t.y.good ∧ t.z.good

/-- A register as every reader sees it: its value if written. Two registers that agree in this differ at most in the
placeholder that nothing reads (log entry 1). -/
def Reg.seen (r : Reg) : Option Word := if r.written then some r.val else none

/-- Entries 1 to `n` are written since reset, their words canonical: the precondition of a `BRED` (rule R91). -/
def goodBuckets (m : Memory) (n : Nat) : Prop :=
  ∀ b, 1 ≤ b → b ≤ n → ∃ e, m.read b = some e ∧ canonicalEntry e = true

/-- A triple of canonical integers (rule R74). -/
abbrev canonicalPoint (P : Triple Nat) : Prop := P.x < Config.p ∧ P.y < Config.p ∧ P.z < Config.p

/-- `STATUS` after a command completed (rules R16 and R50): `BUSY` 0, `DONE` 1, `ERR` and `ERRCODE` as before. -/
abbrev completedStatus (s t : State) : Prop :=
  t.block.status.busy = false ∧ t.block.status.done = true ∧
    t.block.status.err = s.block.status.err ∧ t.block.status.errcode = s.block.status.errcode ∧
    t.block.running = none

/-- What no command changes (rule R11, and rule R34 for the bucket memory): the operand registers, every bucket entry, and
everything outside the block but the supply of free values. -/
def sameInputs (s t : State) : Prop :=
  t.block.a = s.block.a ∧ t.block.b = s.block.b ∧ (∀ b, t.block.bkt.read b = s.block.bkt.read b) ∧
    t.host = s.host ∧ t.epoch = s.epoch

/-- The whole frame of a field command: the inputs, and R1 and R2 (rules R11 and R140). -/
def fieldFrame (s t : State) : Prop :=
  sameInputs s t ∧ t.block.r.y = s.block.r.y ∧ t.block.r.z = s.block.r.z ∧ completedStatus s t

/-- The whole frame of a point command or a bucket reduction, which write all of R (rule R11). -/
def pointFrame (s t : State) : Prop := sameInputs s t ∧ completedStatus s t

/-- A Jacobian triple whose affine image lies on the curve, or an identity (rule R79), as an equation without inversion:
`Y^2 = X^3 + 7 Z^6` (rule R81). -/
abbrev onCurveJacobian (P : Triple Nat) : Prop :=
  P.z = 0 ∨ fsqr P.y = fadd (fmul (fsqr P.x) P.x) (fmul 7 (fsqr (fmul (fsqr P.z) P.z)))

/-- The written words command `i` reads as field elements are canonical: the one thing that makes it a command the spec
gives a meaning (rule R23). `FRED` asks for nothing. -/
def operandsAllowed (i : Instr) (s : State) : Prop :=
  match i with
  | .fmul => ∀ r ∈ [s.block.a.x, s.block.b.x], r.canonicalResult
  | .fred => True
  | .pdbl => ∀ r ∈ tripleRegs s.block.a, r.canonicalResult
  | .padd => ∀ r ∈ tripleRegs s.block.a ++ tripleRegs s.block.b, r.canonicalResult
  | .bred w => ∀ b e, 1 ≤ b → b ≤ lastBucket w → s.block.bkt.read b = some e → canonicalEntry e = true

/-- Two states agree on what command `i` reads (the table of rule R11, and rule R34 for `BRED`). -/
def readsAgree (i : Instr) (s t : State) : Prop :=
  match i with
  | .fmul => s.block.a.x.seen = t.block.a.x.seen ∧ s.block.b.x.seen = t.block.b.x.seen
  | .fred => s.block.a.x.seen = t.block.a.x.seen ∧ s.block.a.y.seen = t.block.a.y.seen
  | .pdbl => s.block.a.map Reg.seen = t.block.a.map Reg.seen
  | .padd => s.block.a.map Reg.seen = t.block.a.map Reg.seen ∧ s.block.b.map Reg.seen = t.block.b.map Reg.seen
  | .bred w => ∀ b, 1 ≤ b → b ≤ lastBucket w → s.block.bkt.read b = t.block.bkt.read b

/-- Two states agree on what command `i` writes (the table of rule R11). -/
def writesAgree (i : Instr) (s t : State) : Prop :=
  match i with
  | .fmul => s.block.r.x.seen = t.block.r.x.seen
  | .fred => s.block.r.x.seen = t.block.r.x.seen
  | .pdbl => s.block.r.map Reg.seen = t.block.r.map Reg.seen
  | .padd => s.block.r.map Reg.seen = t.block.r.map Reg.seen
  | .bred _ => s.block.r.map Reg.seen = t.block.r.map Reg.seen

/-- The indices a `BRED` visits, `n` down to 1, in the order it visits them (rules R34 and R91). -/
def descending (n : Nat) : List Nat := (List.range n).reverse.map (· + 1)

/-- One iteration of rule R91's loop on the pair (running, result). -/
def scanStep (bucket : Nat → Triple Nat) (acc : Triple Nat × Triple Nat) (i : Nat) : Triple Nat × Triple Nat :=
  (jadd Config.idJac acc.1 (bucket i), jadd Config.idJac acc.2 (jadd Config.idJac acc.1 (bucket i)))

end Sys2Proof.Machine
end

