-- ==== Sys2Proof/Certificates/Slice0/Obligations.lean ====
section
/-! DEFINITION. The statements for the provers, from the numbered rules of the spec, file by file. -/

open Sys2Proof Sys2Proof.Machine

/-! ### Reset, STATUS and the two agents -/

/-- Rule R21. -/
def Obligations.ResetLeavesStatusZeroAndAllDataUnwritten : Prop :=
  State.reset.block.status.word = 0 ∧ State.reset.block.running = none ∧
    (∀ i, (State.reset.block.x i).seen = none) ∧ ∀ b, State.reset.block.bkt.read b = none

/-- Rule R135: at any time, also while busy, and the only event that clears `ERR`. -/
def Obligations.ResetAtAnyTimeAndOnlyResetClearsErr : Prop :=
  (∀ s rest, s.host.moves = .host .reset :: rest →
    ∃ t, step s = .next t ∧ t.block.status.word = 0 ∧ t.block.running = none ∧
      (∀ i, (t.block.x i).seen = none) ∧ ∀ b, t.block.bkt.read b = none) ∧
  (∀ s t, step s = .next t → s.block.status.err = true → t.block.status.err = false →
    ∃ rest, s.host.moves = .host .reset :: rest)

/-- Rule R15: the bits of `STATUS`, and a read of it at any time without side effect. -/
def Obligations.StatusWordHasItsFieldsAndReadsHaveNoSideEffect : Prop :=
  (∀ st : Status, st.word.getLsbD 0 = st.busy ∧ st.word.getLsbD 1 = st.done ∧ st.word.getLsbD 2 = st.err ∧
    st.word.extractLsb' 3 2 = st.errcode ∧ st.word.extractLsb' 5 27 = 0) ∧
  (∀ s rest, s.host.moves = .host .rds :: rest →
    ∃ t, step s = .next t ∧ t.block = s.block ∧ t.epoch = s.epoch ∧ t.host.vars = s.host.vars ∧
      t.host.replies = .status s.block.status.word :: s.host.replies)

/-- Rule R16, the table row by row and its last sentence. -/
def Obligations.StatusFieldsChangeAsTheEventTableSays : Prop :=
  (∀ s rest, s.host.moves = .host .reset :: rest →
    ∃ t, step s = .next t ∧ t.block.status = ⟨false, false, false, 0⟩) ∧
  (∀ s c i rest, s.host.moves = .host (.cmd c) :: rest → s.block.status.busy = false → s.block.status.err = false →
    decode c = .legal i →
    ∃ t, step s = .next t ∧ t.block.status = { s.block.status with busy := true, done := false }) ∧
  (∀ s t i, i.wellFormed = true → exec i s = .next t →
    t.block.status = { s.block.status with busy := false, done := true }) ∧
  (∀ s c code rest, (s.host.moves = .host (.cmd c) :: rest ∨ s.host.moves = .host (.run c) :: rest) →
    s.block.status.busy = false → s.block.status.err = false → decode c = .illegal code →
    ∃ t, step s = .next t ∧
      t.block.status = { s.block.status with err := true, errcode := if code = .illegalOp then 1 else 2 }) ∧
  (∀ s c rest, (s.host.moves = .host (.cmd c) :: rest ∨ s.host.moves = .host (.run c) :: rest) →
    s.block.status.busy = false → s.block.status.err = true →
    ∃ t, step s = .next t ∧ t.block.status = s.block.status) ∧
  (∀ s t, step s = .next t → s.block.status.err = true → t.block.status.err = false →
    ∃ rest, s.host.moves = .host .reset :: rest)

/-- Rule R49: `HostCommand` is available only with `BUSY` 0, its three cases then, each with all it leaves alone, and
that what a command reads cannot change before it completes. -/
def Obligations.HostCommandAcceptsRaisesOrIgnores : Prop :=
  (∀ s c rest, s.host.moves = .host (.cmd c) :: rest →
    (s.block.status.busy = true → step s = .refused .transactionWhileBusy) ∧
    (s.block.status.busy = false → s.block.status.err = true → step s = .next (s.withMoves rest)) ∧
    (∀ code, s.block.status.busy = false → s.block.status.err = false → decode c = .illegal code →
      step s = .next ((s.withMoves rest).raiseIllegalCommand code)) ∧
    (∀ i, s.block.status.busy = false → s.block.status.err = false → decode c = .legal i →
      ∃ t, step s = .next t ∧ t.block.status.busy = true ∧ t.block.status.done = false ∧
        t.block.running = some i ∧ (∀ j, t.block.x j = s.block.x j) ∧ t.block.bkt = s.block.bkt ∧
        t.host.moves = rest)) ∧
  (∀ s t, s.block.status.busy = true → step s = .next t → t.block.status.busy = true →
    (∀ j, t.block.x j = s.block.x j) ∧ t.block.bkt = s.block.bkt)

/-- Rule R121: which words raise `IllegalCommand` with which code, and that nothing else changes. -/
def Obligations.IllegalCommandSetsErrAndCodeAndNothingElse : Prop :=
  ∀ (s : State) (c : CmdWord) (rest : List Move),
    (s.host.moves = .host (.cmd c) :: rest ∨ s.host.moves = .host (.run c) :: rest) →
    s.block.status.busy = false → s.block.status.err = false →
    ((c.extractLsb' 3 5 ≠ 0 ∨ c.extractLsb' 13 19 ≠ 0 ∨ c.extractLsb' 0 3 = 0 ∨ c.extractLsb' 0 3 = 6 ∨
        c.extractLsb' 0 3 = 7 ∨ (c.extractLsb' 0 3 ≠ 5 ∧ c.extractLsb' 8 5 ≠ 0)) →
      ∃ t, step s = .next t ∧ t.block.status.err = true ∧ t.block.status.errcode = 1 ∧
        t.block.status.busy = false ∧ t.block.status.done = s.block.status.done ∧
        (∀ j, t.block.x j = s.block.x j) ∧ (∀ b, t.block.bkt.read b = s.block.bkt.read b) ∧
        t.block.running = s.block.running) ∧
    (c.extractLsb' 3 5 = 0 → c.extractLsb' 13 19 = 0 → c.extractLsb' 0 3 = 5 →
      (c.extractLsb' 8 5 = 0 ∨ 16 < (c.extractLsb' 8 5).toNat) →
      ∃ t, step s = .next t ∧ t.block.status.err = true ∧ t.block.status.errcode = 2 ∧
        t.block.status.busy = false ∧ t.block.status.done = s.block.status.done ∧
        (∀ j, t.block.x j = s.block.x j) ∧ (∀ b, t.block.bkt.read b = s.block.bkt.read b) ∧
        t.block.running = s.block.running)

/-- Rule R123: once `ERR` is 1 no command word changes anything, and host reads and writes still work. -/
def Obligations.HaltedBlockIgnoresCommandsAndServesTheHost : Prop :=
  ∀ s rest, s.block.status.err = true → s.block.status.busy = false →
    (∀ c, s.host.moves = .host (.cmd c) :: rest → step s = .next (s.withMoves rest)) ∧
    (∀ c, s.host.moves = .host (.run c) :: rest → step s = .next (s.withMoves rest)) ∧
    (∀ i v, s.host.moves = .host (.wr i v) :: rest →
      ∃ t, step s = .next t ∧ (t.block.x (i.castLE (by decide))).seen = some (v.value s.host)) ∧
    (∀ b x y z, s.host.moves = .host (.wrb b x y z) :: rest → b < Config.nbkt →
      ∃ t, step s = .next t ∧ t.block.bkt.read b = some ⟨x.value s.host, y.value s.host, z.value s.host⟩) ∧
    (∀ k i v, s.host.moves = .host (.rd k i) :: rest → (s.block.x i).seen = some v →
      ∃ t, step s = .next t ∧ t.host.replies = .reg i v :: s.host.replies) ∧
    (∀ k b e, s.host.moves = .host (.rdb k b) :: rest → b < Config.nbkt → s.block.bkt.read b = some e →
      ∃ t, step s = .next t ∧ t.host.replies = .bucket b e :: s.host.replies)

/-- Rule R138: while `BUSY` is 1 a status read and a reset are available and the other transactions have no meaning. -/
def Obligations.BusyBlockRefusesAllButStatusReadAndReset : Prop :=
  ∀ s rest, s.block.status.busy = true →
    (∀ st, (∃ i v, st = .wr i v) ∨ (∃ k i, st = .rd k i) ∨ (∃ b x y z, st = .wrb b x y z) ∨ (∃ k b, st = .rdb k b) ∨
        (∃ c, st = .cmd c) ∨ (∃ c, st = .run c) →
      s.host.moves = .host st :: rest → step s = .refused .transactionWhileBusy) ∧
    (∀ st, st = .rds ∨ st = .reset → s.host.moves = .host st :: rest → ∃ t, step s = .next t)

/-- Rule R50, the merged step: `RUN c` in one step reaches the state that `CMD c ; WAIT` reaches in its own steps. That the
model has both forms, and that a `WAIT` lets the block complete, is the model's choice (log entry 7). -/
def Obligations.RunInOneStepIsCommandThenWait : Prop :=
  ∀ s t c rest, s.host.moves = .host (.run c) :: rest → step s = .next t →
    ∃ k, k ≤ 3 ∧ Host.Core.run core k (s.withMoves (.host (.cmd c) :: .host .wait :: rest)) = .next t

/-- Rule R50, the busy interval: a status read between acceptance and completion returns `BUSY` = 1, `DONE` = 0. -/
def Obligations.StatusReadDuringACommandShowsBusy : Prop :=
  ∀ s c i rest, s.host.moves = .host (.cmd c) :: .host .rds :: rest → s.block.status = ⟨false, s.block.status.done, false, 0⟩ →
    decode c = .legal i →
    ∃ t u, step s = .next t ∧ step t = .next u ∧ u.host.replies = .status 1 :: s.host.replies ∧
      u.block = t.block ∧ u.block.running = some i

/-- Rules R20, R50 and R145: a started command whose operands the spec gives a meaning completes. That it completes also over
words never written is the model's choice (log entries 3 and 4: rule R22 allows a fault), and so is when it completes: at the
block's own turn, at a `WAIT` and with no move left (log entry 7). -/
def Obligations.EveryStartedCommandCompletes : Prop :=
  (∀ i s, i.wellFormed = true → operandsAllowed i s →
    ∃ t, exec i s = .next t ∧ sameInputs s t ∧ completedStatus s t) ∧
  (∀ i s rest, i.wellFormed = true → operandsAllowed i s → s.block.running = some i → s.block.status.busy = true →
    (s.host.moves = .block :: rest ∨ s.host.moves = .host .wait :: rest ∨ s.host.moves = []) →
    ∃ t, step s = .next t ∧ completedStatus s t)

/-- The model's choice among the two treatments rule R22 allows (log entries 3 and 4): a command that reads a word nothing has
written runs, with an unspecified result of which only rule R23's bound is known and with the rest of the state as always. -/
def Obligations.UnwrittenOperandsGiveAnUnspecifiedResult : Prop :=
  ∀ s : State,
    (operandsAllowed .fmul s → s.block.a.x.seen = none ∨ s.block.b.x.seen = none →
      ∃ t v, exec .fmul s = .next t ∧ fieldFrame s t ∧ t.block.r.x.seen = some v ∧ canonical v = true) ∧
    (s.block.a.x.seen = none ∨ s.block.a.y.seen = none →
      ∃ t v, exec .fred s = .next t ∧ fieldFrame s t ∧ t.block.r.x.seen = some v ∧ canonical v = true) ∧
    (operandsAllowed .pdbl s → (∃ r ∈ tripleRegs s.block.a, r.seen = none) →
      ∃ t, exec .pdbl s = .next t ∧ pointFrame s t ∧ goodPoint t.block.r) ∧
    (operandsAllowed .padd s → (∃ r ∈ tripleRegs s.block.a ++ tripleRegs s.block.b, r.seen = none) →
      ∃ t, exec .padd s = .next t ∧ pointFrame s t ∧ goodPoint t.block.r) ∧
    (∀ w, 1 ≤ w → w ≤ 16 → operandsAllowed (.bred w) s → (∃ b, 1 ≤ b ∧ b ≤ 2 ^ w - 1 ∧ s.block.bkt.read b = none) →
      ∃ t, exec (.bred w) s = .next t ∧ pointFrame s t ∧ goodPoint t.block.r)

/-- A step runs the decoded command: with `BUSY` and `ERR` 0, `RUN c` of a word that decodes to `i` is `exec i` on the state
whose moves are the rest, and a running command completes by `exec` at the block's turn. That `RUN` is one step, and that a
running command completes at a move of the block, is the model's choice (log entry 7; rule R50 allows the one step); that a
word placed by `withFetchWord` is one `RUN` at the head of the moves is the model's choice too (log entry 5). -/
def Obligations.StepRunsTheDecodedCommand : Prop :=
  (∀ s c i rest, s.host.moves = .host (.run c) :: rest → s.block.status.busy = false → s.block.status.err = false →
    decode c = .legal i → step s = exec i (s.withMoves rest)) ∧
  (∀ s i rest, s.host.moves = .block :: rest → s.block.running = some i → step s = exec i (s.withMoves rest)) ∧
  (∀ s i, i.wellFormed = true → s.block.status.busy = false → s.block.status.err = false →
    step (s.withFetchWord 32 (encode i).toNat) = exec i s)

/-- What every run keeps, step by step. That result registers stay canonical also where a result is unspecified rests on log
entry 3 (DEDUCED from rule R23). -/
def Obligations.EveryStepKeepsTheBlockInvariant : Prop :=
  ∀ s t, s.block.Inv → step s = .next t → t.block.Inv

/-- The invariant holds right after reset. -/
def Obligations.BlockInvariantHoldsAtReset : Prop :=
  State.reset.block.Inv

/-- The whole machine (rules R11, R12, R33, R34, R37): only these events change an operand register, a bucket entry or a
result register: a host write of it, a reset, and for the results the completion of a command, by a `RUN` of a legal word or,
of a command that was running, at a block's turn, at a `WAIT` or with no move left (these moves are the model's choice: log
entry 7). -/
def Obligations.OnlyTheseEventsChangeData : Prop :=
  ∀ s t, step s = .next t →
    (∀ j : Fin 6, t.block.x (j.castLE (by decide)) ≠ s.block.x (j.castLE (by decide)) →
      ∃ rest, (∃ v, s.host.moves = .host (.wr j v) :: rest) ∨ s.host.moves = .host .reset :: rest) ∧
    (∀ b, t.block.bkt.read b ≠ s.block.bkt.read b →
      ∃ rest, (∃ x y z, s.host.moves = .host (.wrb b x y z) :: rest) ∨ s.host.moves = .host .reset :: rest) ∧
    (t.block.r ≠ s.block.r →
      (∃ rest, s.host.moves = .host .reset :: rest) ∨
      t.block.status.done = true ∧ t.block.status.busy = false ∧ t.block.running = none ∧
        ((∃ c i rest, s.host.moves = .host (.run c) :: rest ∧ decode c = .legal i ∧
            s.block.status.busy = false ∧ s.block.status.err = false) ∨
          (∃ i, s.block.running = some i ∧ i.wellFormed = true ∧
            (s.host.moves = [] ∨ ∃ rest, s.host.moves = .block :: rest ∨ s.host.moves = .host .wait :: rest))))

/-! ### Host transactions -/

/-- Rules R53 and R54: a word in a host statement is the numeral it writes or what the host variable holds. -/
def Obligations.HostWordsAreNumeralsOrVariables : Prop :=
  ∀ h : HostSide, (∀ v, (HostWord.lit v).value h = v) ∧ (HostWord.var 0).value h = h.vars.x ∧
    (HostWord.var 1).value h = h.vars.y ∧ (HostWord.var 2).value h = h.vars.z

/-- Rule R12: a write, of a numeral or of a host variable, changes exactly the named operand register; a read has no side
effect on the block, returns the register, and is kept in the host variable the statement names and in no other (rule R54);
and neither is available while `BUSY` is 1. That a read of a register nothing has written answers a next state is the model's
choice among the treatments rule R22 allows (log entry 2). -/
def Obligations.HostRegisterWriteChangesOneRegisterAndReadChangesNone : Prop :=
  (∀ (s : State) (i : Fin 6) (v : HostWord) (rest : List Move), s.host.moves = .host (.wr i v) :: rest →
    (s.block.status.busy = false →
      ∃ t, step s = .next t ∧ (t.block.x (i.castLE (by decide))).seen = some (v.value s.host) ∧
        (∀ j : Fin 9, j ≠ i.castLE (by decide) → t.block.x j = s.block.x j) ∧ t.block.bkt = s.block.bkt ∧
        t.block.status = s.block.status ∧ t.block.running = s.block.running ∧
        t.host.vars = s.host.vars ∧ t.host.replies = s.host.replies ∧ t.host.moves = rest) ∧
    (s.block.status.busy = true → step s = .refused .transactionWhileBusy)) ∧
  (∀ (s : State) (k : Option (Fin 3)) (i : Fin 9) (rest : List Move), s.host.moves = .host (.rd k i) :: rest →
    (s.block.status.busy = false →
      ∃ t v, step s = .next t ∧ t.block = s.block ∧ t.host.replies = .reg i v :: s.host.replies ∧
        (∀ u, (s.block.x i).seen = some u → v = u) ∧ t.host.moves = rest ∧
        (k = none → t.host.vars = s.host.vars) ∧
        (k = some 0 → t.host.vars = { s.host.vars with x := v }) ∧
        (k = some 1 → t.host.vars = { s.host.vars with y := v }) ∧
        (k = some 2 → t.host.vars = { s.host.vars with z := v })) ∧
    (s.block.status.busy = true → step s = .refused .transactionWhileBusy))

/-- Rule R33: a bucket write, of numerals or of host variables, changes exactly the named entry; a read has no side effect on
the block, returns the entry, and is kept in the three host variables when the statement says so (rule R54); two reads with
no write in between return the same triple (also of an entry nothing wrote: log entry 4); neither is available while `BUSY` is
1, and an index of `NBKT` or more is no transaction (log entry 17). -/
def Obligations.HostBucketWriteChangesOneEntryAndReadsRepeat : Prop :=
  (∀ (s : State) (b : Nat) (x y z : HostWord) (rest : List Move), s.host.moves = .host (.wrb b x y z) :: rest →
    (s.block.status.busy = false → b < Config.nbkt →
      ∃ t, step s = .next t ∧
        t.block.bkt.read b = some ⟨x.value s.host, y.value s.host, z.value s.host⟩ ∧
        (∀ b', b' ≠ b → t.block.bkt.read b' = s.block.bkt.read b') ∧ (∀ j, t.block.x j = s.block.x j) ∧
        t.block.status = s.block.status ∧ t.block.running = s.block.running ∧
        t.host.vars = s.host.vars ∧ t.host.replies = s.host.replies ∧ t.host.moves = rest) ∧
    (s.block.status.busy = false → Config.nbkt ≤ b → step s = .refused .noSuchEntry) ∧
    (s.block.status.busy = true → step s = .refused .transactionWhileBusy)) ∧
  (∀ (s : State) (k : Bool) (b : Nat) (rest : List Move), s.host.moves = .host (.rdb k b) :: rest →
    (s.block.status.busy = false → b < Config.nbkt →
      ∃ t e, step s = .next t ∧ t.block = s.block ∧ t.host.replies = .bucket b e :: s.host.replies ∧
        (∀ e', s.block.bkt.read b = some e' → e = e') ∧ t.host.moves = rest ∧
        (k = true → t.host.vars = e) ∧ (k = false → t.host.vars = s.host.vars) ∧
        (∀ k' rest', rest = .host (.rdb k' b) :: rest' →
          ∃ u, step t = .next u ∧ u.host.replies = .bucket b e :: .bucket b e :: s.host.replies)) ∧
    (s.block.status.busy = false → Config.nbkt ≤ b → step s = .refused .noSuchEntry) ∧
    (s.block.status.busy = true → step s = .refused .transactionWhileBusy))

/-- Rule R54, `MOVP`: its six statements, on an idle block, copy what the host reads from R0, R1 and R2 into the operand triple
and change nothing else of the block. That they run also where R0, R1 or R2 was never written is the model's choice (log entry
2: rule R22 allows a fault). -/
def Obligations.MovpCopiesTheResultToAnOperandTriple : Prop :=
  ∀ s rest, s.block.status.busy = false →
    (s.host.moves = scriptMoves (expand (.movp .sideA)) ++ rest →
      ∃ t, Host.Core.run core 6 s = .next t ∧ t.host.moves = rest ∧
        t.block = { s.block with a := ⟨.of (s.readReg 6), .of (s.readReg 7), .of (s.readReg 8)⟩ }) ∧
    (s.host.moves = scriptMoves (expand (.movp .sideB)) ++ rest →
      ∃ t, Host.Core.run core 6 s = .next t ∧ t.host.moves = rest ∧
        t.block = { s.block with b := ⟨.of (s.readReg 6), .of (s.readReg 7), .of (s.readReg 8)⟩ })

/-- Rule R54, `STB` and `LDB`: on an idle block the four statements of `STB b, R` leave entry `b` with what the host reads from
R0, R1 and R2, those of `LDB A, b` leave the triple A with what the host reads from entry `b`, and each changes nothing else of
the block. That `STB` runs also where R0, R1 or R2 was never written (log entry 2), and `LDB` where entry `b` never was (log
entry 4), is the model's choice: rule R22 allows a fault. -/
def Obligations.StbStoresTheResultAndLdbLoadsAnEntry : Prop :=
  ∀ s b rest, s.block.status.busy = false → b < Config.nbkt →
    (s.host.moves = scriptMoves (expand (.stb b)) ++ rest →
      ∃ t, Host.Core.run core 4 s = .next t ∧ t.host.moves = rest ∧
        t.block.bkt.read b = some ⟨s.readReg 6, s.readReg 7, s.readReg 8⟩ ∧
        (∀ b', b' ≠ b → t.block.bkt.read b' = s.block.bkt.read b') ∧ (∀ j, t.block.x j = s.block.x j) ∧
        t.block.status = s.block.status ∧ t.block.running = s.block.running) ∧
    (s.host.moves = scriptMoves (expand (.ldb b)) ++ rest →
      ∃ t, Host.Core.run core 4 s = .next t ∧ t.host.moves = rest ∧
        t.block = { s.block with a := (s.readBkt b).map Reg.of })

/-- Rule R6: the machine takes `W_MAX` and `ID_JAC` as arguments, and is the one of this hardware at their values. For every
`W_MAX` and `ID_JAC` a presented `BRED` word is a command exactly up to `W_MAX`, the bucket memory has `2^W_MAX` entries, and
`ID_JAC` is what a doubling of an identity writes. That a bucket read below `2^W_MAX` answers a next state also for an entry
nothing has written is the model's choice (log entry 4: rule R22 allows a fault), and that an index above stops the step is
log entry 17 (DEDUCED from rule R33). -/
def Obligations.ParametersAreArgumentsOfTheMachine : Prop :=
  (Config.params.wMax = 16 ∧ Config.params.nbkt = 65536 ∧ Config.params.idJac = ⟨1, 1, 0⟩ ∧
    ∀ s, stepWith Config.params s = step s) ∧
  ∀ (c : Config.Params) (s : State) (rest : List Move), s.block.status.busy = false → s.block.status.err = false →
    (∀ w, s.host.moves = .host (.cmd (0x00000005 + 256 * BitVec.ofNat 32 w)) :: rest → 1 ≤ w → w < 32 →
      (w ≤ c.wMax → ∃ t, stepWith c s = .next t ∧ t.block.running = some (.bred w)) ∧
      (c.wMax < w → ∃ t, stepWith c s = .next t ∧ t.block.status.errcode = 2 ∧ t.block.running = s.block.running)) ∧
    (∀ k b, s.host.moves = .host (.rdb k b) :: rest →
      ((∃ t, stepWith c s = .next t) ↔ b < 2 ^ c.wMax)) ∧
    (s.host.moves = .host (.run 0x00000003) :: rest → goodPoint s.block.a → s.block.a.z.val = 0 →
      ∃ t, stepWith c s = .next t ∧ t.block.r.map Reg.seen = c.idJac.map fun v => some (ofField v))

/-! ### Decode and encode -/

/-- Rule R47: the row a word selects by match and mask, with the range check on `w`, is the command it decodes to; and so the
legal words are the twenty listed and no other. -/
def Obligations.DecodeAcceptsExactlyTheTwentyWords : Prop :=
  (∀ c i, decode c = .legal i ↔
    (c &&& 0xFFFFFFFF = 0x00000001 ∧ i = .fmul) ∨ (c &&& 0xFFFFFFFF = 0x00000002 ∧ i = .fred) ∨
    (c &&& 0xFFFFFFFF = 0x00000003 ∧ i = .pdbl) ∨ (c &&& 0xFFFFFFFF = 0x00000004 ∧ i = .padd) ∨
    (c &&& 0xFFFFE0FF = 0x00000005 ∧ 1 ≤ (c.extractLsb' 8 5).toNat ∧ (c.extractLsb' 8 5).toNat ≤ 16 ∧
      i = .bred (c.extractLsb' 8 5).toNat)) ∧
  (∀ c i, decode c = .legal i ↔
    (c = 0x00000001 ∧ i = .fmul) ∨ (c = 0x00000002 ∧ i = .fred) ∨ (c = 0x00000003 ∧ i = .pdbl) ∨
    (c = 0x00000004 ∧ i = .padd) ∨ ∃ w : Nat, 1 ≤ w ∧ w ≤ 16 ∧ c = 0x00000005 + 256 * BitVec.ofNat 32 w ∧ i = .bred w)

/-- Rule R48: the decoder's checks, in order, over the bit fields of the word, and the numbers of its two codes. -/
def Obligations.DecodeChecksReservedBitsThenOpcodeThenWidth : Prop :=
  errNumber .illegalOp = 1 ∧ errNumber .badW = 2 ∧ decode 0 = .illegal .illegalOp ∧
  decode (BitVec.allOnes 32) = .illegal .illegalOp ∧
  ∀ c : CmdWord,
    let op := c.extractLsb' 0 3
    let rsv0 := c.extractLsb' 3 5
    let w := c.extractLsb' 8 5
    let rsv1 := c.extractLsb' 13 19
    decode c =
      if rsv0 ≠ 0 ∨ rsv1 ≠ 0 then .illegal .illegalOp
      else if op = 0 ∨ op = 6 ∨ op = 7 then .illegal .illegalOp
      else if op = 5 then (if w = 0 ∨ 16 < w.toNat then .illegal .badW else .legal (.bred w.toNat))
      else if w ≠ 0 then .illegal .illegalOp
      else if op = 1 then .legal .fmul
      else if op = 2 then .legal .fred
      else if op = 3 then .legal .pdbl
      else .legal .padd

/-- Rule R55: decode and encode are inverse to each other on legal commands. -/
def Obligations.DecodeOfEncodeAndEncodeOfDecode : Prop :=
  (encode .fmul = 1 ∧ encode .fred = 2 ∧ encode .pdbl = 3 ∧ encode .padd = 4 ∧
    ∀ w, 1 ≤ w → w ≤ 16 → (encode (.bred w)).toNat = 5 + 256 * w) ∧
  (∀ i : Instr, i.wellFormed = true → decode (encode i) = .legal i) ∧
  (∀ c i, decode c = .legal i → encode i = c ∧ i.wellFormed = true)

/-- A word of each row, and the illegal words of program 5 (95_test_vectors.md, section 6). -/
def Obligations.DecodeOfWrittenOutWords : Prop :=
  decode 0x00000001 = .legal .fmul ∧ decode 0x00000002 = .legal .fred ∧ decode 0x00000003 = .legal .pdbl ∧
  decode 0x00000004 = .legal .padd ∧ decode 0x00000205 = .legal (.bred 2) ∧ decode 0x00001005 = .legal (.bred 16) ∧
  decode 0x00000005 = .illegal .badW ∧ decode 0x00001105 = .illegal .badW ∧ decode 0x00001F05 = .illegal .badW ∧
  decode 0x00000000 = .illegal .illegalOp ∧ decode 0xFFFFFFFF = .illegal .illegalOp ∧
  decode 0x00000101 = .illegal .illegalOp ∧ decode 0x00002105 = .illegal .illegalOp

/-! ### The field -/

/-- Rule R61. -/
def Obligations.FaddIsTheSumLessPWhenItReachesP : Prop :=
  ∀ a b, a < Config.p → b < Config.p →
    fadd a b = (a + b) % Config.p ∧ a + b < 2 * Config.p ∧
      fadd a b = if a + b < Config.p then a + b else a + b - Config.p

/-- Rule R62. -/
def Obligations.FsubIsTheDifferencePlusPWhenItIsNegative : Prop :=
  ∀ a b, a < Config.p → b < Config.p →
    ((fsub a b : Nat) : Int) = ((a : Int) - b) % Config.p ∧
    fsub a b = (if b ≤ a then a - b else a + Config.p - b) ∧
    fsub 0 b = (if b = 0 then 0 else Config.p - b)

/-- Rule R63. -/
def Obligations.FmulIsTheReducedExactProduct : Prop :=
  ∀ a b, a < Config.p → b < Config.p →
    fmul a b = (a * b) % Config.p ∧ a * b < Config.p ^ 2 ∧ Config.p ^ 2 < 2 ^ 512 ∧ fsqr a = fmul a a ∧
      fmul a b = fred (a * b)

/-- Rule R64. -/
def Obligations.SmallMultiplesAreSumsAndProducts : Prop :=
  ∀ a, a < Config.p →
    fdbl a = (2 * a) % Config.p ∧ ftpl a = (3 * a) % Config.p ∧ f4 a = (4 * a) % Config.p ∧ f8 a = (8 * a) % Config.p ∧
    fdbl a = fadd a a ∧ ftpl a = fadd (fdbl a) a ∧ f4 a = fdbl (fdbl a) ∧ f8 a = fdbl (f4 a) ∧
    fdbl a = fmul 2 a ∧ ftpl a = fmul 3 a ∧ f4 a = fmul 4 a ∧ f8 a = fmul 8 a

/-- Rule R68, its five bullets; the last, that F_p is a field, is the spec's general knowledge (G5). -/
def Obligations.FieldPrimitivesObeyTheFieldLaws : Prop :=
  ∀ a b c, a < Config.p → b < Config.p → c < Config.p →
    (fadd a b = fadd b a ∧ fmul a b = fmul b a ∧ fadd (fadd a b) c = fadd a (fadd b c) ∧
      fmul (fmul a b) c = fmul a (fmul b c) ∧ fmul a (fadd b c) = fadd (fmul a b) (fmul a c) ∧
      fmul a (fsub b c) = fsub (fmul a b) (fmul a c)) ∧
    (fadd a 0 = a ∧ fmul a 1 = a ∧ fmul a 0 = 0 ∧ fsub a a = 0 ∧ fadd a (fsub 0 a) = 0) ∧
    fadd a (fsub b a) = b ∧
    (fmul (Config.p - 1) (Config.p - 1) = 1 ∧ fmul (Config.p - 1) a = fsub 0 a) ∧
    (fmul a b = 0 → a = 0 ∨ b = 0)

/-- Rule R69: the folding procedure, with the bounds it states on its intermediate values, is reduction modulo p. -/
def Obligations.FoldingReducesModuloP : Prop :=
  ∀ n, n < 2 ^ 512 →
    foldOnce n < 2 ^ 290 ∧ foldOnce (foldOnce n) < 2 ^ 256 + 2 ^ 67 ∧
    foldOnce (foldOnce (foldOnce n)) < 2 * Config.p ∧ foldReduce n = n % Config.p

/-! ### FMUL and FRED -/

/-- Rule R66: the product on canonical operands with everything else as it was, and the refusal on a written operand of p or
more. That `FMUL` over a never-written operand runs, with a result of which nothing is said, is the model's choice among the
treatments rule R22 allows (log entry 3). -/
def Obligations.FmulWritesTheProductModuloP : Prop :=
  decode 0x00000001 = .legal .fmul ∧
  ∀ s : State,
    (s.block.a.x.good → s.block.b.x.good →
      ∃ t v, exec .fmul s = .next t ∧ fieldFrame s t ∧ t.block.r.x.seen = some v ∧ v.toNat < Config.p ∧
        v.toNat = s.block.a.x.val.toNat * s.block.b.x.val.toNat % Config.p) ∧
    (s.block.a.x.bad = true ∨ s.block.b.x.bad = true → exec .fmul s = .refused .nonCanonicalOperand) ∧
    (operandsAllowed .fmul s → s.block.a.x.seen = none ∨ s.block.b.x.seen = none →
      ∃ t v, exec .fmul s = .next t ∧ fieldFrame s t ∧ t.block.r.x.seen = some v)

/-- Rule R67: the 512-bit integer made of A1 and A0, reduced modulo p whatever the halves are, with everything else as it
was; and on a product of canonical words the R0 that `FMUL` leaves. -/
def Obligations.FredReducesTheWideWordModuloP : Prop :=
  decode 0x00000002 = .legal .fred ∧
  (∀ s : State, s.block.a.x.written = true → s.block.a.y.written = true →
    ∃ t v, exec .fred s = .next t ∧ fieldFrame s t ∧ t.block.r.x.seen = some v ∧
      v.toNat = (s.block.a.y.val ++ s.block.a.x.val).toNat % Config.p) ∧
  (∀ s u : State, s.block.a.x.good → s.block.b.x.good → u.block.a.x.written = true → u.block.a.y.written = true →
    u.block.a.y.val.toNat * 2 ^ 256 + u.block.a.x.val.toNat = s.block.a.x.val.toNat * s.block.b.x.val.toNat →
    ∃ t v, exec .fmul s = .next t ∧ exec .fred u = .next v ∧ t.block.r.x.seen = v.block.r.x.seen)

/-! ### PDBL and PADD -/

/-- Rule R76 with rule R75: the doubling formulas as equations modulo p between the operand words and the result words. -/
def Obligations.PdblDoublesByTheFormulas : Prop :=
  ∀ s : State,
    (goodPoint s.block.a → ∃ t, exec .pdbl s = .next t ∧ pointFrame s t ∧
      (s.block.a.z.val = 0 ∨ s.block.a.y.val = 0 → t.block.r.map Reg.seen = ⟨some 1, some 1, some 0⟩) ∧
      (s.block.a.z.val ≠ 0 → s.block.a.y.val ≠ 0 →
        goodPoint t.block.r ∧ t.block.r.z.val ≠ 0 ∧
        let X : ZMod Config.p := s.block.a.x.val.toNat
        let Y : ZMod Config.p := s.block.a.y.val.toNat
        let Z : ZMod Config.p := s.block.a.z.val.toNat
        let X3 : ZMod Config.p := t.block.r.x.val.toNat
        X3 = (3 * X ^ 2) ^ 2 - 2 * (4 * X * Y ^ 2) ∧
        (t.block.r.y.val.toNat : ZMod Config.p) = 3 * X ^ 2 * (4 * X * Y ^ 2 - X3) - 8 * Y ^ 4 ∧
        (t.block.r.z.val.toNat : ZMod Config.p) = 2 * Y * Z)) ∧
    ((∃ r ∈ tripleRegs s.block.a, r.bad = true) → exec .pdbl s = .refused .nonCanonicalOperand)

/-- Rule R78 with rule R77: the case analysis and the addition formulas, as equations modulo p. -/
def Obligations.PaddAddsByTheFormulas : Prop :=
  ∀ s : State,
    (goodPoint s.block.a → goodPoint s.block.b → ∃ t, exec .padd s = .next t ∧ pointFrame s t ∧ goodPoint t.block.r ∧
      (s.block.a.z.val = 0 → t.block.r.map Reg.seen = s.block.b.map Reg.seen) ∧
      (s.block.a.z.val ≠ 0 → s.block.b.z.val = 0 → t.block.r.map Reg.seen = s.block.a.map Reg.seen) ∧
      (s.block.a.z.val ≠ 0 → s.block.b.z.val ≠ 0 →
        let X1 : ZMod Config.p := s.block.a.x.val.toNat
        let Y1 : ZMod Config.p := s.block.a.y.val.toNat
        let Z1 : ZMod Config.p := s.block.a.z.val.toNat
        let X2 : ZMod Config.p := s.block.b.x.val.toNat
        let Y2 : ZMod Config.p := s.block.b.y.val.toNat
        let Z2 : ZMod Config.p := s.block.b.z.val.toNat
        let U1 := X1 * Z2 ^ 2
        let H := X2 * Z1 ^ 2 - U1
        let S1 := Y1 * Z2 ^ 3
        let R := Y2 * Z1 ^ 3 - S1
        let X3 : ZMod Config.p := t.block.r.x.val.toNat
        (H = 0 → R ≠ 0 → t.block.r.map Reg.seen = ⟨some 1, some 1, some 0⟩) ∧
        (H = 0 → R = 0 → exec .pdbl s = .next t) ∧
        (H ≠ 0 → t.block.r.z.val ≠ 0 ∧
          X3 = R ^ 2 - H ^ 3 - 2 * U1 * H ^ 2 ∧
          (t.block.r.y.val.toNat : ZMod Config.p) = R * (U1 * H ^ 2 - X3) - S1 * H ^ 3 ∧
          (t.block.r.z.val.toNat : ZMod Config.p) = H * Z1 * Z2))) ∧
    ((∃ r ∈ tripleRegs s.block.a ++ tripleRegs s.block.b, r.bad = true) →
      exec .padd s = .refused .nonCanonicalOperand)

/-- Rule R77, note 4: swapping the operands of the general branch negates Y and Z. -/
def Obligations.SwappedOperandsNegateYAndZ : Prop :=
  ∀ P Q, canonicalPoint P → canonicalPoint Q → P.z ≠ 0 → Q.z ≠ 0 → normX P Q ≠ normX Q P →
    let R := jadd Config.idJac P Q
    (jadd Config.idJac Q P).x = R.x ∧ (jadd Config.idJac Q P).y = fsub 0 R.y ∧
      (R.y ≠ 0 → (jadd Config.idJac Q P).y = Config.p - R.y) ∧ (jadd Config.idJac Q P).z = Config.p - R.z

/-- Rule R78, corner cases: the same point in any two representatives doubles, and a representative of the inverse point
gives the identity the block writes. -/
def Obligations.SamePointDoublesAndInversePointCancels : Prop :=
  ∀ P k, canonicalPoint P → P.z ≠ 0 → 0 < k → k < Config.p →
    jadd Config.idJac P ⟨fmul (fsqr k) P.x, fmul (fmul (fsqr k) k) P.y, fmul k P.z⟩ = jdbl Config.idJac P ∧
    (P.y ≠ 0 →
      jadd Config.idJac P ⟨fmul (fsqr k) P.x, fsub 0 (fmul (fmul (fsqr k) k) P.y), fmul k P.z⟩ = ⟨1, 1, 0⟩)

/-- Rules R76 and R79: doubling a triple and converting to affine is affine doubling, for every well-formed triple. -/
def Obligations.DoublingRefinesAffineAddition : Prop :=
  ∀ P, canonicalPoint P →
    toAffine (jdbl Config.idJac P) = affineAdd (toAffine P) (toAffine P)

/-- Rules R78 and R79: on on-curve operands, adding triples and converting to affine is affine addition. -/
def Obligations.AdditionRefinesAffineAddition : Prop :=
  ∀ P Q, canonicalPoint P → canonicalPoint Q → onCurveJacobian P → onCurveJacobian Q →
    toAffine (jadd Config.idJac P Q) = affineAdd (toAffine P) (toAffine Q)

/-- Rule R106: mixed addition through the lift computes with the Z of its second operand at 1. -/
def Obligations.MixedAdditionUsesUnitZ : Prop :=
  ∀ (P : Triple Nat) (x y : FieldElement), canonicalPoint P →
    let Q := lift Config.idJac (.point x y)
    let sum := mixedAdd Config.idJac P (.point x y)
    normX P Q = P.x ∧ normY P Q = P.y ∧
    normX Q P = fmul x.val (fsqr P.z) ∧ normY Q P = fmul y.val (fmul P.z (fsqr P.z)) ∧
    (P.z = 0 → sum = ⟨x.val, y.val, 1⟩) ∧
    (P.z ≠ 0 → P.x = fmul x.val (fsqr P.z) → P.y ≠ fmul y.val (fmul P.z (fsqr P.z)) → sum = ⟨1, 1, 0⟩) ∧
    (P.z ≠ 0 → P.x = fmul x.val (fsqr P.z) → P.y = fmul y.val (fmul P.z (fsqr P.z)) → sum = jdbl Config.idJac P) ∧
    (P.z ≠ 0 → P.x ≠ fmul x.val (fsqr P.z) → sum.z = fmul (fsub (fmul x.val (fsqr P.z)) P.x) P.z)

/-- Rule R79, first item: what the point commands and the reduction produce from on-curve operands is on the curve. -/
def Obligations.OnCurveOperandsGiveOnCurveResults : Prop :=
  (∀ s t, goodPoint s.block.a → onCurveJacobian (pointOf s.block.a) → exec .pdbl s = .next t →
    onCurveJacobian (pointOf t.block.r)) ∧
  (∀ s t, goodPoint s.block.a → goodPoint s.block.b → onCurveJacobian (pointOf s.block.a) →
    onCurveJacobian (pointOf s.block.b) → exec .padd s = .next t → onCurveJacobian (pointOf t.block.r)) ∧
  (∀ s t w, widthOk w = true → goodBuckets s.block.bkt (lastBucket w) →
    (∀ b, 1 ≤ b → b ≤ lastBucket w → onCurveJacobian (bucketPoint s.block.bkt b)) → exec (.bred w) s = .next t →
    onCurveJacobian (pointOf t.block.r))

/-! ### BRED -/

/-- Rule R91: R is the result of the loop, visiting `2^w - 1` down to 1; refused on a word of p or more in an entry it reads
(rule R23); and which words are a `BRED` and which are illegal with `BAD_W`. -/
def Obligations.BredWritesTheRunningSum : Prop :=
  (∀ (s : State) (w : Nat),
    (1 ≤ w → w ≤ 16 → goodBuckets s.block.bkt (2 ^ w - 1) →
      ∃ t, exec (.bred w) s = .next t ∧ pointFrame s t ∧
        t.block.r.map Reg.seen =
          ((descending (2 ^ w - 1)).foldl (scanStep (bucketPoint s.block.bkt)) (⟨1, 1, 0⟩, ⟨1, 1, 0⟩)).2.map
            (fun v => some (ofField v))) ∧
    (1 ≤ w → w ≤ 16 →
      (∃ b e, 1 ≤ b ∧ b ≤ 2 ^ w - 1 ∧ s.block.bkt.read b = some e ∧ canonicalEntry e = false) →
      exec (.bred w) s = .refused .nonCanonicalOperand)) ∧
  (∀ w : Nat, 1 ≤ w → w ≤ 16 → decode (0x00000005 + 256 * BitVec.ofNat 32 w) = .legal (.bred w)) ∧
  (∀ w : Nat, w = 0 ∨ 16 < w → w < 32 → decode (0x00000005 + 256 * BitVec.ofNat 32 w) = .illegal .badW)

/-- Rule R94, items 1 and 3: with all entries empty, or with w = 1, R is entry 1 word for word. -/
def Obligations.BredOfEmptyBucketsCopiesEntryOne : Prop :=
  ∀ (s : State) (w : Nat) (e : Triple Word), 1 ≤ w → w ≤ 16 → goodBuckets s.block.bkt (2 ^ w - 1) →
    s.block.bkt.read 1 = some e →
    (w = 1 ∨ ∀ b, 1 ≤ b → b ≤ 2 ^ w - 1 → (bucketPoint s.block.bkt b).z = 0) →
    ∃ t, exec (.bred w) s = .next t ∧ t.block.r.map Reg.seen = e.map some

/-- Rules R11 and R34: of two states that agree on what a command reads, where one completes it so does the other, and they
agree on what it writes. So no other register, R0 to R2 among them, and by rule R34 no bucket entry outside 1 to `2^w - 1`, is
read; and no command writes an operand register or the bucket memory. Over words never written the agreement is that of the
model's free values (log entry 3), hence the equal supplies. -/
def Obligations.CommandsReadAndWriteOnlyWhatTheTableLists : Prop :=
  (∀ i s u t, i.wellFormed = true → readsAgree i s u → s.draws = u.draws → exec i s = .next t →
    ∃ v, exec i u = .next v ∧ writesAgree i t v) ∧
  (∀ i s t, exec i s = .next t → t.block.a = s.block.a ∧ t.block.b = s.block.b ∧ t.block.bkt = s.block.bkt) ∧
  (∀ i s t, i = .fmul ∨ i = .fred → exec i s = .next t → t.block.r.y = s.block.r.y ∧ t.block.r.z = s.block.r.z)

/-- Rule R92, under the hypothesis that its argument rests on: wherever `jadd` computes the sum of a commutative monoid on values that `ok` singles out, the reduction
computes the weighted sum of rule R90. -/
def Obligations.RunningSumIsTheWeightedSum : Prop :=
  ∀ (G : Type) [AddCommMonoid G] (value : Triple Nat → G) (ok : Triple Nat → Prop) (bucket : Nat → Triple Nat) (n : Nat),
    (∀ P Q, ok P → ok Q → ok (jadd Config.idJac P Q) ∧ value (jadd Config.idJac P Q) = value P + value Q) →
    ok Config.idJac → value Config.idJac = 0 → (∀ b, 1 ≤ b → b ≤ n → ok (bucket b)) →
    value (bucketReduce (jadd Config.idJac) Config.idJac bucket n) = ∑ b ∈ Finset.Icc 1 n, b • value (bucket b)

/-- Rules R90 and R95: on on-curve buckets the running sum and the explicit-weight reducer give the same group element. -/
def Obligations.RunningSumAgreesWithExplicitWeight : Prop :=
  ∀ (bucket : Nat → Triple Nat) (n : Nat),
    (∀ b, 1 ≤ b → b ≤ n → canonicalPoint (bucket b) ∧ onCurveJacobian (bucket b)) →
    toAffine (pippengerReduce Config.idJac bucket n) = toAffine (explicitWeight Config.idJac bucket n)

/-! ### The host's software around the block -/

/-- Rule R103: the inverse is the power p - 2, 0 of 0, and an inverse of every other element. -/
def Obligations.FieldInverseIsThePowerPMinusTwo : Prop :=
  ∀ a, a < Config.p →
    finv a = a ^ (Config.p - 2) % Config.p ∧ finv 0 = 0 ∧ (a ≠ 0 → fmul a (finv a) = 1)

/-- Rule R105: converting an affine point to Jacobian and back yields the point. -/
def Obligations.LiftThenToAffineIsTheSamePoint : Prop :=
  (∀ x y : FieldElement, lift Config.idJac (.point x y) = ⟨x.val, y.val, 1⟩ ∧
    toAffine (lift Config.idJac (.point x y)) = .point x y) ∧
  lift Config.idJac .infinity = ⟨1, 1, 0⟩ ∧ toAffine (lift Config.idJac .infinity) = .infinity

/-- Rule R108: the windows are digits in base `2^w` and stand for the scalar. -/
def Obligations.WindowsAreTheDigitsOfTheScalar : Prop :=
  ∀ s w, 1 ≤ w →
    windowValue w (splitIntoWindows s w) = s ∧ (∀ d ∈ splitIntoWindows s w, d < 2 ^ w) ∧ splitIntoWindows 0 w = [] ∧
    (s ≠ 0 → splitIntoWindows s w = s % 2 ^ w :: splitIntoWindows (s / 2 ^ w) w)

/-- Rule R114, identity absorption: a zero scalar and an empty batch give `Infinity` in every variant. -/
def Obligations.ZeroScalarAndEmptyBatchGiveInfinity : Prop :=
  ∀ P w v, onCurve P = true → msm Config.idJac [0] [P] w v = .ok .infinity ∧ msm Config.idJac [] [] w v = .ok .infinity

/-- Rule R107: on an idle block that is not halted, the host's procedure leaves in entries 1 to `2^w - 1` the buckets of the
level, and leaves every other entry, the host's own moves, and the block idle and not halted. The procedure's `RUN` is the one-step form
(log entries 7 and 13). -/
def Obligations.BuildBucketsOnTheBlockFillsTheArray : Prop :=
  ∀ (s : State) (points : List Affine) (values : List Nat) (w : Nat), 1 ≤ w → w ≤ 16 → (∀ b ∈ values, b < 2 ^ w) →
    s.block.status.busy = false → s.block.status.err = false →
    ∃ t, buildBucketsOnBlock Config.params points values w s = .next t ∧
      (∀ b, 1 ≤ b → b ≤ 2 ^ w - 1 → ∃ e, t.block.bkt.read b = some e ∧
        e.map toField = (buildBuckets Config.idJac points values w).getD b ⟨0, 0, 0⟩) ∧
      (∀ b, b = 0 ∨ 2 ^ w ≤ b → t.block.bkt.read b = s.block.bkt.read b) ∧
      t.block.status.busy = false ∧ t.block.status.err = false ∧ t.host.moves = s.host.moves ∧ t.epoch = s.epoch

/-- Rule R110: on an idle block that is not halted, the windowed engine driven over the block computes what the engine as a
function computes, with `BRED` and with the explicit-weight procedure; and with a width the block has no `BRED` for it is not
run (log entry 16). The procedure's `RUN` is the one-step form (log entries 7 and 13), and its scan of the buckets by explicit
weight goes upward (log entry 15). -/
def Obligations.EngineOnTheBlockIsTheWindowedEngine : Prop :=
  ∀ (s : State) (scalars : List Nat) (points : List Affine) (w : Nat),
    s.block.status.busy = false → s.block.status.err = false → scalars.length = points.length →
    (∀ P ∈ points, onCurve P = true) →
    (1 ≤ w → w ≤ 16 →
      (∃ t A, msmOnBlock Config.params (bredOnBlock Config.params) scalars points w s = .ok (.next (A, t)) ∧
        msm Config.idJac scalars points w .pippenger = .ok A ∧ t.host.moves = s.host.moves) ∧
      (∃ t A, msmOnBlock Config.params (explicitReduceOnBlock Config.params) scalars points w s = .ok (.next (A, t)) ∧
        msm Config.idJac scalars points w .reference = .ok A ∧ t.host.moves = s.host.moves)) ∧
    (w = 0 ∨ 16 < w →
      msmOnBlock Config.params (bredOnBlock Config.params) scalars points w s = .error .widthNotAdmitted)
end

