-- ==== Sys2Proof/Laws/Field.lean ====
section
/-! SUPPORT. The field primitives stay below p (rule R60) and are the ring operations of the integers modulo p; what each
point function can answer. -/

namespace Sys2Proof.Machine

theorem p_eq_hex : Config.p = 0xFFFFFFFFFFFFFFFFFFFFFFFFFFFFFFFFFFFFFFFFFFFFFFFFFFFFFFFEFFFFFC2F := by decide

theorem p_lt_word : Config.p < 2 ^ 256 := by decide

theorem fred_lt (n : Nat) : fred n < Config.p := Nat.mod_lt _ p_pos

theorem fadd_lt (a b : Nat) : fadd a b < Config.p := Nat.mod_lt _ p_pos

theorem fsqr_lt (a : Nat) : fsqr a < Config.p := fmul_lt a a

theorem fdbl_lt (a : Nat) : fdbl a < Config.p := Nat.mod_lt _ p_pos

theorem ftpl_lt (a : Nat) : ftpl a < Config.p := Nat.mod_lt _ p_pos

theorem f4_lt (a : Nat) : f4 a < Config.p := Nat.mod_lt _ p_pos

theorem f8_lt (a : Nat) : f8 a < Config.p := Nat.mod_lt _ p_pos

@[simp] theorem mulElement_val (a b : Nat) : (mulElement a b).val = fmul a b := rfl

@[simp] theorem subElement_val (a b : Nat) : (subElement a b).val = fsub a b := rfl

@[simp] theorem params_wMax : Config.params.wMax = Config.wMax := rfl

@[simp] theorem params_idJac : Config.params.idJac = Config.idJac := rfl

@[simp] theorem params_nbkt : Config.params.nbkt = Config.nbkt := rfl

@[simp] theorem fadd_cast (a b : Nat) : ((fadd a b : Nat) : ZMod Config.p) = a + b := by
  simp [fadd]

@[simp] theorem fmul_cast (a b : Nat) : ((fmul a b : Nat) : ZMod Config.p) = a * b := by
  simp [fmul]

@[simp] theorem fsqr_cast (a : Nat) : ((fsqr a : Nat) : ZMod Config.p) = a ^ 2 := by
  simp [fsqr, pow_two]

@[simp] theorem fdbl_cast (a : Nat) : ((fdbl a : Nat) : ZMod Config.p) = 2 * a := by
  simp [fdbl]

@[simp] theorem ftpl_cast (a : Nat) : ((ftpl a : Nat) : ZMod Config.p) = 3 * a := by
  simp [ftpl]

@[simp] theorem f4_cast (a : Nat) : ((f4 a : Nat) : ZMod Config.p) = 4 * a := by
  simp [f4]

@[simp] theorem f8_cast (a : Nat) : ((f8 a : Nat) : ZMod Config.p) = 8 * a := by
  simp [f8]

@[simp] theorem fsub_cast (a b : Nat) : ((fsub a b : Nat) : ZMod Config.p) = a - b := by
  have h := congrArg (Int.cast : Int → ZMod Config.p) (fsub_cast_int a b)
  rw [ZMod.intCast_mod] at h
  simpa using h

/-- Two canonical integers are equal when they are equal modulo p (rule R60). -/
theorem eq_of_cast_eq {a b : Nat} (ha : a < Config.p) (hb : b < Config.p)
    (h : (a : ZMod Config.p) = (b : ZMod Config.p)) : a = b := by
  rw [ZMod.natCast_eq_natCast_iff] at h
  rwa [Nat.ModEq, Nat.mod_eq_of_lt ha, Nat.mod_eq_of_lt hb] at h

theorem toField_ofField {v : Nat} (h : v < Config.p) : toField (ofField v) = v := by
  unfold toField ofField
  rw [BitVec.toNat_ofNat, Nat.mod_eq_of_lt (lt_trans h p_lt_word)]

theorem canonical_ofField {v : Nat} (h : v < Config.p) : canonical (ofField v) = true := by
  unfold canonical
  rw [decide_eq_true_eq]
  exact lt_of_eq_of_lt (toField_ofField h) h

@[simp] theorem ofField_toField (v : Word) : ofField (toField v) = v := by
  simp [ofField, toField]

/-- Words carried through unchanged keep every bit (rule R77, first two branches). -/
@[simp] theorem map_ofField_map_toField (e : Triple Word) : (e.map toField).map ofField = e := by
  obtain ⟨x, y, z⟩ := e
  simp [Triple.map]

theorem canonical_freeElement (n : Nat) : canonical (freeElement n) = true :=
  canonical_ofField (Nat.mod_lt _ p_pos)

/-- What a doubling can answer (rule R75). -/
theorem jdbl_cases (idJac P : Triple Nat) :
    (jdbl idJac P = idJac ∧ (P.z = 0 ∨ P.y = 0)) ∨ (jdbl idJac P = doubleGeneral P ∧ P.z ≠ 0 ∧ P.y ≠ 0) := by
  unfold jdbl
  split
  · exact .inl ⟨rfl, ‹_›⟩
  · exact .inr ⟨rfl, by tauto⟩

/-- What an addition can answer (rule R77). -/
theorem jadd_cases (idJac P Q : Triple Nat) :
    (jadd idJac P Q = Q ∧ P.z = 0) ∨
    (jadd idJac P Q = P ∧ P.z ≠ 0 ∧ Q.z = 0) ∨
    (jadd idJac P Q = idJac ∧ P.z ≠ 0 ∧ Q.z ≠ 0 ∧ normX P Q = normX Q P ∧ normY P Q ≠ normY Q P) ∨
    (jadd idJac P Q = jdbl idJac P ∧ P.z ≠ 0 ∧ Q.z ≠ 0 ∧ normX P Q = normX Q P ∧ normY P Q = normY Q P) ∨
    (jadd idJac P Q = addGeneral P Q ∧ P.z ≠ 0 ∧ Q.z ≠ 0 ∧ normX P Q ≠ normX Q P) := by
  unfold jadd
  split
  · exact .inl ⟨rfl, ‹_›⟩
  · split
    · exact .inr (.inl ⟨rfl, ‹_›, ‹_›⟩)
    · split
      · split
        · exact .inr (.inr (.inl ⟨rfl, ‹_›, ‹_›, ‹_›, ‹_›⟩))
        · exact .inr (.inr (.inr (.inl ⟨rfl, ‹_›, ‹_›, ‹_›, by tauto⟩)))
      · exact .inr (.inr (.inr (.inr ⟨rfl, ‹_›, ‹_›, ‹_›⟩)))

/-- An empty operand passes the other through (rules R43 and R77). -/
@[simp] theorem jadd_identity_left (idJac P Q : Triple Nat) (h : P.z = 0) : jadd idJac P Q = Q := by
  simp [jadd, h]

/-- The scan over one more entry (rule R91). -/
@[simp] theorem runningScan_succ {α : Type} (add : α → α → α) (bucket : Nat → α) (n : Nat) (acc : α × α) :
    runningScan add bucket (n + 1) acc =
      runningScan add bucket n (add acc.1 (bucket (n + 1)), add acc.2 (add acc.1 (bucket (n + 1)))) := rfl

@[simp] theorem runningScan_zero {α : Type} (add : α → α → α) (bucket : Nat → α) (acc : α × α) :
    runningScan add bucket 0 acc = acc := rfl

/-- A property the addition keeps and every bucket has holds of both accumulators to the end of the scan (rule R91). -/
theorem runningScan_keeps {α : Type} (add : α → α → α) (bucket : Nat → α) (ok : α → Prop)
    (hadd : ∀ x y, ok x → ok y → ok (add x y)) (n : Nat) (hb : ∀ b, 1 ≤ b → b ≤ n → ok (bucket b))
    (acc : α × α) (h1 : ok acc.1) (h2 : ok acc.2) :
    ok (runningScan add bucket n acc).1 ∧ ok (runningScan add bucket n acc).2 := by
  induction n generalizing acc with
  | zero => exact ⟨h1, h2⟩
  | succ n ih =>
    rw [runningScan_succ]
    have hr := hadd _ _ h1 (hb (n + 1) (by omega) le_rfl)
    exact ih (fun b hb1 hb2 => hb b hb1 (by omega)) _ hr (hadd _ _ h2 hr)

end Sys2Proof.Machine
end

