-- ==== Sys2Proof/Laws/Memory.lean ====
section
/-! SUPPORT. The laws of the bucket memory: a read after a write, and the canonical form that every operation keeps (rules
R30 and R33). -/

namespace Sys2Proof.Machine

theorem Memory.read_write (m : Memory) (b c : Nat) (e : Triple Word) :
    (m.write b e).read c = if c = b then some e else m.read c := by
  induction m with
  | nil => simp [Memory.write, Memory.read, eq_comm]
  | cons cell rest ih =>
    obtain ⟨k, f⟩ := cell
    unfold Memory.write
    split
    · simp [Memory.read, eq_comm]
    · split
      · rename_i h2
        subst h2
        by_cases h : b = c
        · simp [Memory.read, h]
        · simp [Memory.read, h, Ne.symm h]
      · rename_i h1 h2
        by_cases h : k = c
        · subst h
          simp [Memory.read, Ne.symm h2]
        · simp [Memory.read, h, ih]

@[simp] theorem Memory.read_write_same (m : Memory) (b : Nat) (e : Triple Word) :
    (m.write b e).read b = some e := by
  rw [Memory.read_write, if_pos rfl]

theorem Memory.read_write_other (m : Memory) (b c : Nat) (e : Triple Word) (h : c ≠ b) :
    (m.write b e).read c = m.read c := by
  rw [Memory.read_write, if_neg h]

theorem Memory.wf_iff (m : Memory) :
    m.wf = true ↔ (m.map Prod.fst).Pairwise (· < ·) ∧ ∀ c ∈ m, c.1 < Config.nbkt := by
  simp [Memory.wf, Memory.wfWith]

theorem Memory.mem_write (m : Memory) (b : Nat) (e : Triple Word) (c : Nat × Triple Word)
    (h : c ∈ m.write b e) : c = (b, e) ∨ c ∈ m := by
  induction m with
  | nil => simpa [Memory.write] using h
  | cons cell rest ih =>
    unfold Memory.write at h
    split at h
    · simpa using h
    · split at h
      · rcases List.mem_cons.mp h with h | h
        · exact .inl h
        · exact .inr (List.mem_cons_of_mem _ h)
      · rcases List.mem_cons.mp h with h | h
        · exact .inr (by simp [h])
        · exact (ih h).imp_right (List.mem_cons_of_mem _)

/-- Every write keeps the canonical form. -/
theorem Memory.wf_write (m : Memory) (b : Nat) (e : Triple Word) (hm : m.wf = true) (hb : b < Config.nbkt) :
    (m.write b e).wf = true := by
  rw [Memory.wf_iff] at hm ⊢
  obtain ⟨hs, hlt⟩ := hm
  refine ⟨?_, fun c hc => ?_⟩
  · induction m with
    | nil => simp [Memory.write]
    | cons cell rest ih =>
      obtain ⟨k, f⟩ := cell
      rw [List.map_cons, List.pairwise_cons] at hs
      have hrest := ih hs.2 fun c hc => hlt c (List.mem_cons_of_mem _ hc)
      unfold Memory.write
      by_cases h1 : b < k
      · rw [if_pos h1, List.map_cons, List.pairwise_cons]
        refine ⟨fun j hj => ?_, by rw [List.map_cons, List.pairwise_cons]; exact hs⟩
        rcases List.mem_cons.mp hj with rfl | hj
        · exact h1
        · exact lt_trans h1 (hs.1 j hj)
      · by_cases h2 : b = k
        · subst h2
          rw [if_neg h1, if_pos rfl, List.map_cons, List.pairwise_cons]
          exact hs
        · rw [if_neg h1, if_neg h2, List.map_cons, List.pairwise_cons]
          refine ⟨fun j hj => ?_, hrest⟩
          obtain ⟨c, hc, rfl⟩ := List.mem_map.mp hj
          rcases Memory.mem_write rest b e c hc with rfl | hc
          · show k < b
            omega
          · exact hs.1 _ (List.mem_map_of_mem hc)
  · rcases Memory.mem_write m b e c hc with rfl | hc
    · exact hb
    · exact hlt c hc

theorem Memory.wf_empty : Memory.wf [] = true := by decide

/-- A bucket array is fully written when every index in it reads as some entry. -/
theorem allWritten_iff (m : Memory) (n : Nat) :
    allWritten m n = true ↔ ∀ b, 1 ≤ b → b ≤ n → (m.read b).isSome = true := by
  induction n with
  | zero =>
    simp only [allWritten, true_iff]
    intro b h1 h2
    omega
  | succ n ih =>
    rw [allWritten, Bool.and_eq_true, ih]
    constructor
    · rintro ⟨hn, hrest⟩ b h1 h2
      rcases Nat.lt_or_ge n b with h | h
      · obtain rfl : b = n + 1 := by omega
        exact hn
      · exact hrest b h1 h
    · intro h
      exact ⟨h (n + 1) (by omega) le_rfl, fun b h1 h2 => h b h1 (by omega)⟩

theorem Memory.mem_of_read (m : Memory) (b : Nat) (e : Triple Word) (h : m.read b = some e) : (b, e) ∈ m := by
  induction m with
  | nil => simp [Memory.read] at h
  | cons cell rest ih =>
    obtain ⟨k, f⟩ := cell
    unfold Memory.read at h
    split at h
    · rename_i hk
      simp_all
    · exact List.mem_cons_of_mem _ (ih h)

/-- The check on the listed cells is the check on every entry 1 to `n`. -/
theorem someEntryBad_iff (m : Memory) (n : Nat) :
    someEntryBad m n = true ↔ ∃ b e, 1 ≤ b ∧ b ≤ n ∧ m.read b = some e ∧ canonicalEntry e = false := by
  unfold someEntryBad
  rw [List.any_eq_true]
  constructor
  · rintro ⟨⟨b, e⟩, -, h⟩
    simp only [Bool.and_eq_true, decide_eq_true_eq, Option.any_eq_true, Bool.not_eq_true'] at h
    obtain ⟨⟨h1, h2⟩, e', he', hbad⟩ := h
    exact ⟨b, e', h1, h2, he', hbad⟩
  · rintro ⟨b, e, h1, h2, he, hbad⟩
    refine ⟨(b, e), Memory.mem_of_read m b e he, ?_⟩
    simp [h1, h2, he, hbad]

/-- A bucket array that a `BRED` may reduce. -/
theorem bucketStatus_specified_iff (m : Memory) (n : Nat) :
    bucketStatus m n = .specified ↔ ∀ b, 1 ≤ b → b ≤ n → ∃ e, m.read b = some e ∧ canonicalEntry e = true := by
  unfold bucketStatus
  split
  · rename_i h
    obtain ⟨b, e, h1, h2, he, hbad⟩ := (someEntryBad_iff m n).mp h
    simp only [reduceCtorEq, false_iff, not_forall]
    refine ⟨b, h1, h2, ?_⟩
    rintro ⟨e', he', hgood⟩
    rw [he] at he'
    cases he'
    simp_all
  · rename_i h
    split
    · rename_i hw
      simp only [true_iff]
      intro b h1 h2
      obtain ⟨e, he⟩ := Option.isSome_iff_exists.mp ((allWritten_iff m n).mp hw b h1 h2)
      refine ⟨e, he, ?_⟩
      by_contra hbad
      exact h ((someEntryBad_iff m n).mpr ⟨b, e, h1, h2, he, by simpa using hbad⟩)
    · rename_i hw
      simp only [reduceCtorEq, false_iff]
      intro hall
      refine hw ((allWritten_iff m n).mpr fun b h1 h2 => ?_)
      obtain ⟨e, he, -⟩ := hall b h1 h2
      simp [he]

theorem bucketStatus_nonCanonical_iff (m : Memory) (n : Nat) :
    bucketStatus m n = .nonCanonical ↔ ∃ b e, 1 ≤ b ∧ b ≤ n ∧ m.read b = some e ∧ canonicalEntry e = false := by
  rw [← someEntryBad_iff]
  unfold bucketStatus
  split
  · simp_all
  · split <;> simp_all

end Sys2Proof.Machine
end

