-- ==== Sys2Proof/Laws/State.lean ====
section
/-! SUPPORT. What each update of the state does to each field, one lemma per field per update, so that no proof unfolds a
record update. -/

namespace Sys2Proof.Machine

@[simp] theorem Triple_map_x {α β : Type} (f : α → β) (t : Triple α) : (t.map f).x = f t.x := rfl

@[simp] theorem Triple_map_y {α β : Type} (f : α → β) (t : Triple α) : (t.map f).y = f t.y := rfl

@[simp] theorem Triple_map_z {α β : Type} (f : α → β) (t : Triple α) : (t.map f).z = f t.z := rfl

@[simp] theorem State.withMoves_block (s : State) (ms : List Move) :
    (s.withMoves ms).block = s.block := rfl

@[simp] theorem State.withMoves_host_moves (s : State) (ms : List Move) :
    (s.withMoves ms).host.moves = ms := rfl

@[simp] theorem State.withMoves_host_vars (s : State) (ms : List Move) :
    (s.withMoves ms).host.vars = s.host.vars := rfl

@[simp] theorem State.withMoves_host_replies (s : State) (ms : List Move) :
    (s.withMoves ms).host.replies = s.host.replies := rfl

@[simp] theorem State.withMoves_epoch (s : State) (ms : List Move) :
    (s.withMoves ms).epoch = s.epoch := rfl

@[simp] theorem State.withMoves_draws (s : State) (ms : List Move) :
    (s.withMoves ms).draws = s.draws := rfl

@[simp] theorem State.reply_block (s : State) (q : Reply) :
    (s.reply q).block = s.block := rfl

@[simp] theorem State.reply_host_moves (s : State) (q : Reply) :
    (s.reply q).host.moves = s.host.moves := rfl

@[simp] theorem State.reply_host_vars (s : State) (q : Reply) :
    (s.reply q).host.vars = s.host.vars := rfl

@[simp] theorem State.reply_host_replies (s : State) (q : Reply) :
    (s.reply q).host.replies = q :: s.host.replies := rfl

@[simp] theorem State.reply_epoch (s : State) (q : Reply) :
    (s.reply q).epoch = s.epoch := rfl

@[simp] theorem State.reply_draws (s : State) (q : Reply) :
    (s.reply q).draws = s.draws := rfl

@[simp] theorem State.keep_block (s : State) (t : Option (Fin 3)) (v : Word) :
    (s.keep t v).block = s.block := by cases t <;> rfl

@[simp] theorem State.keep_host_moves (s : State) (t : Option (Fin 3)) (v : Word) :
    (s.keep t v).host.moves = s.host.moves := by cases t <;> rfl

@[simp] theorem State.keep_host_replies (s : State) (t : Option (Fin 3)) (v : Word) :
    (s.keep t v).host.replies = s.host.replies := by cases t <;> rfl

@[simp] theorem State.keep_epoch (s : State) (t : Option (Fin 3)) (v : Word) :
    (s.keep t v).epoch = s.epoch := by cases t <;> rfl

@[simp] theorem State.keep_draws (s : State) (t : Option (Fin 3)) (v : Word) :
    (s.keep t v).draws = s.draws := by cases t <;> rfl

@[simp] theorem State.keepEntry_block (s : State) (k : Bool) (e : Triple Word) :
    (s.keepEntry k e).block = s.block := by cases k <;> rfl

@[simp] theorem State.keepEntry_host_moves (s : State) (k : Bool) (e : Triple Word) :
    (s.keepEntry k e).host.moves = s.host.moves := by cases k <;> rfl

@[simp] theorem State.keepEntry_host_vars (s : State) (k : Bool) (e : Triple Word) :
    (s.keepEntry k e).host.vars = if k then e else s.host.vars := by cases k <;> rfl

@[simp] theorem State.keepEntry_host_replies (s : State) (k : Bool) (e : Triple Word) :
    (s.keepEntry k e).host.replies = s.host.replies := by cases k <;> rfl

@[simp] theorem State.keepEntry_epoch (s : State) (k : Bool) (e : Triple Word) :
    (s.keepEntry k e).epoch = s.epoch := by cases k <;> rfl

@[simp] theorem State.keepEntry_draws (s : State) (k : Bool) (e : Triple Word) :
    (s.keepEntry k e).draws = s.draws := by cases k <;> rfl

@[simp] theorem State.writeReg_block (s : State) (i : Fin 6) (v : Word) :
    (s.writeReg i v).block = s.block.writeOperand i v := rfl

@[simp] theorem State.writeReg_host (s : State) (i : Fin 6) (v : Word) :
    (s.writeReg i v).host = s.host := rfl

@[simp] theorem State.writeReg_epoch (s : State) (i : Fin 6) (v : Word) :
    (s.writeReg i v).epoch = s.epoch := rfl

@[simp] theorem State.writeReg_draws (s : State) (i : Fin 6) (v : Word) :
    (s.writeReg i v).draws = s.draws := rfl

@[simp] theorem State.writeBkt_block_a (s : State) (b : Nat) (e : Triple Word) :
    (s.writeBkt b e).block.a = s.block.a := rfl

@[simp] theorem State.writeBkt_block_b (s : State) (b : Nat) (e : Triple Word) :
    (s.writeBkt b e).block.b = s.block.b := rfl

@[simp] theorem State.writeBkt_block_r (s : State) (b : Nat) (e : Triple Word) :
    (s.writeBkt b e).block.r = s.block.r := rfl

@[simp] theorem State.writeBkt_block_bkt (s : State) (b : Nat) (e : Triple Word) :
    (s.writeBkt b e).block.bkt = s.block.bkt.write b e := rfl

@[simp] theorem State.writeBkt_block_status (s : State) (b : Nat) (e : Triple Word) :
    (s.writeBkt b e).block.status = s.block.status := rfl

@[simp] theorem State.writeBkt_block_running (s : State) (b : Nat) (e : Triple Word) :
    (s.writeBkt b e).block.running = s.block.running := rfl

@[simp] theorem State.writeBkt_host (s : State) (b : Nat) (e : Triple Word) :
    (s.writeBkt b e).host = s.host := rfl

@[simp] theorem State.writeBkt_epoch (s : State) (b : Nat) (e : Triple Word) :
    (s.writeBkt b e).epoch = s.epoch := rfl

@[simp] theorem State.writeBkt_draws (s : State) (b : Nat) (e : Triple Word) :
    (s.writeBkt b e).draws = s.draws := rfl

@[simp] theorem State.raiseIllegalCommand_block_a (s : State) (c : ErrCode) :
    (s.raiseIllegalCommand c).block.a = s.block.a := rfl

@[simp] theorem State.raiseIllegalCommand_block_b (s : State) (c : ErrCode) :
    (s.raiseIllegalCommand c).block.b = s.block.b := rfl

@[simp] theorem State.raiseIllegalCommand_block_r (s : State) (c : ErrCode) :
    (s.raiseIllegalCommand c).block.r = s.block.r := rfl

@[simp] theorem State.raiseIllegalCommand_block_bkt (s : State) (c : ErrCode) :
    (s.raiseIllegalCommand c).block.bkt = s.block.bkt := rfl

@[simp] theorem State.raiseIllegalCommand_block_status (s : State) (c : ErrCode) :
    (s.raiseIllegalCommand c).block.status = s.block.status.illegal c := rfl

@[simp] theorem State.raiseIllegalCommand_block_running (s : State) (c : ErrCode) :
    (s.raiseIllegalCommand c).block.running = s.block.running := rfl

@[simp] theorem State.raiseIllegalCommand_host (s : State) (c : ErrCode) :
    (s.raiseIllegalCommand c).host = s.host := rfl

@[simp] theorem State.raiseIllegalCommand_epoch (s : State) (c : ErrCode) :
    (s.raiseIllegalCommand c).epoch = s.epoch := rfl

@[simp] theorem State.raiseIllegalCommand_draws (s : State) (c : ErrCode) :
    (s.raiseIllegalCommand c).draws = s.draws := rfl

@[simp] theorem State.accept_block_a (s : State) (i : Instr) :
    (s.accept i).block.a = s.block.a := rfl

@[simp] theorem State.accept_block_b (s : State) (i : Instr) :
    (s.accept i).block.b = s.block.b := rfl

@[simp] theorem State.accept_block_r (s : State) (i : Instr) :
    (s.accept i).block.r = s.block.r := rfl

@[simp] theorem State.accept_block_bkt (s : State) (i : Instr) :
    (s.accept i).block.bkt = s.block.bkt := rfl

@[simp] theorem State.accept_block_status (s : State) (i : Instr) :
    (s.accept i).block.status = s.block.status.accepted := rfl

@[simp] theorem State.accept_block_running (s : State) (i : Instr) :
    (s.accept i).block.running = some i := rfl

@[simp] theorem State.accept_host (s : State) (i : Instr) :
    (s.accept i).host = s.host := rfl

@[simp] theorem State.accept_epoch (s : State) (i : Instr) :
    (s.accept i).epoch = s.epoch := rfl

@[simp] theorem State.accept_draws (s : State) (i : Instr) :
    (s.accept i).draws = s.draws := rfl

@[simp] theorem State.complete_block_a (s : State) (q : Triple Reg) :
    (s.complete q).block.a = s.block.a := rfl

@[simp] theorem State.complete_block_b (s : State) (q : Triple Reg) :
    (s.complete q).block.b = s.block.b := rfl

@[simp] theorem State.complete_block_r (s : State) (q : Triple Reg) :
    (s.complete q).block.r = q := rfl

@[simp] theorem State.complete_block_bkt (s : State) (q : Triple Reg) :
    (s.complete q).block.bkt = s.block.bkt := rfl

@[simp] theorem State.complete_block_status (s : State) (q : Triple Reg) :
    (s.complete q).block.status = s.block.status.completed := rfl

@[simp] theorem State.complete_block_running (s : State) (q : Triple Reg) :
    (s.complete q).block.running = none := rfl

@[simp] theorem State.complete_host (s : State) (q : Triple Reg) :
    (s.complete q).host = s.host := rfl

@[simp] theorem State.complete_epoch (s : State) (q : Triple Reg) :
    (s.complete q).epoch = s.epoch := rfl

@[simp] theorem State.complete_draws (s : State) (q : Triple Reg) :
    (s.complete q).draws = s.draws := rfl

@[simp] theorem State.completeWord_block_a (s : State) (v : Word) :
    (s.completeWord v).block.a = s.block.a := rfl

@[simp] theorem State.completeWord_block_b (s : State) (v : Word) :
    (s.completeWord v).block.b = s.block.b := rfl

@[simp] theorem State.completeWord_block_r (s : State) (v : Word) :
    (s.completeWord v).block.r = { s.block.r with x := .of v } := rfl

@[simp] theorem State.completeWord_block_bkt (s : State) (v : Word) :
    (s.completeWord v).block.bkt = s.block.bkt := rfl

@[simp] theorem State.completeWord_block_status (s : State) (v : Word) :
    (s.completeWord v).block.status = s.block.status.completed := rfl

@[simp] theorem State.completeWord_block_running (s : State) (v : Word) :
    (s.completeWord v).block.running = none := rfl

@[simp] theorem State.completeWord_host (s : State) (v : Word) :
    (s.completeWord v).host = s.host := rfl

@[simp] theorem State.completeWord_epoch (s : State) (v : Word) :
    (s.completeWord v).epoch = s.epoch := rfl

@[simp] theorem State.completeWord_draws (s : State) (v : Word) :
    (s.completeWord v).draws = s.draws := rfl

@[simp] theorem State.completePoint_block_a (s : State) (P : Triple Word) :
    (s.completePoint P).block.a = s.block.a := rfl

@[simp] theorem State.completePoint_block_b (s : State) (P : Triple Word) :
    (s.completePoint P).block.b = s.block.b := rfl

@[simp] theorem State.completePoint_block_r (s : State) (P : Triple Word) :
    (s.completePoint P).block.r = P.map .of := rfl

@[simp] theorem State.completePoint_block_bkt (s : State) (P : Triple Word) :
    (s.completePoint P).block.bkt = s.block.bkt := rfl

@[simp] theorem State.completePoint_block_status (s : State) (P : Triple Word) :
    (s.completePoint P).block.status = s.block.status.completed := rfl

@[simp] theorem State.completePoint_block_running (s : State) (P : Triple Word) :
    (s.completePoint P).block.running = none := rfl

@[simp] theorem State.completePoint_host (s : State) (P : Triple Word) :
    (s.completePoint P).host = s.host := rfl

@[simp] theorem State.completePoint_epoch (s : State) (P : Triple Word) :
    (s.completePoint P).epoch = s.epoch := rfl

@[simp] theorem State.completePoint_draws (s : State) (P : Triple Word) :
    (s.completePoint P).draws = s.draws := rfl

@[simp] theorem State.drawn_block (s : State) (n : Nat) :
    (s.drawn n).block = s.block := rfl

@[simp] theorem State.drawn_host (s : State) (n : Nat) :
    (s.drawn n).host = s.host := rfl

@[simp] theorem State.drawn_epoch (s : State) (n : Nat) :
    (s.drawn n).epoch = s.epoch := rfl

@[simp] theorem State.drawn_draws (s : State) (n : Nat) :
    (s.drawn n).draws = s.draws + n := rfl

@[simp] theorem State.completeFreeWord_block_a (s : State) :
    (s.completeFreeWord).block.a = s.block.a := rfl

@[simp] theorem State.completeFreeWord_block_b (s : State) :
    (s.completeFreeWord).block.b = s.block.b := rfl

@[simp] theorem State.completeFreeWord_block_r (s : State) :
    (s.completeFreeWord).block.r = { s.block.r with x := .of (freeElement s.draws) } := rfl

@[simp] theorem State.completeFreeWord_block_bkt (s : State) :
    (s.completeFreeWord).block.bkt = s.block.bkt := rfl

@[simp] theorem State.completeFreeWord_block_status (s : State) :
    (s.completeFreeWord).block.status = s.block.status.completed := rfl

@[simp] theorem State.completeFreeWord_block_running (s : State) :
    (s.completeFreeWord).block.running = none := rfl

@[simp] theorem State.completeFreeWord_host (s : State) :
    (s.completeFreeWord).host = s.host := rfl

@[simp] theorem State.completeFreeWord_epoch (s : State) :
    (s.completeFreeWord).epoch = s.epoch := rfl

@[simp] theorem State.completeFreeWord_draws (s : State) :
    (s.completeFreeWord).draws = s.draws + 1 := rfl

@[simp] theorem State.completeFreePoint_block_a (s : State) :
    (s.completeFreePoint).block.a = s.block.a := rfl

@[simp] theorem State.completeFreePoint_block_b (s : State) :
    (s.completeFreePoint).block.b = s.block.b := rfl

@[simp] theorem State.completeFreePoint_block_r (s : State) :
    (s.completeFreePoint).block.r = ⟨.of (freeElement s.draws), .of (freeElement (s.draws + 1)), .of (freeElement (s.draws + 2))⟩ := rfl

@[simp] theorem State.completeFreePoint_block_bkt (s : State) :
    (s.completeFreePoint).block.bkt = s.block.bkt := rfl

@[simp] theorem State.completeFreePoint_block_status (s : State) :
    (s.completeFreePoint).block.status = s.block.status.completed := rfl

@[simp] theorem State.completeFreePoint_block_running (s : State) :
    (s.completeFreePoint).block.running = none := rfl

@[simp] theorem State.completeFreePoint_host (s : State) :
    (s.completeFreePoint).host = s.host := rfl

@[simp] theorem State.completeFreePoint_epoch (s : State) :
    (s.completeFreePoint).epoch = s.epoch := rfl

@[simp] theorem State.completeFreePoint_draws (s : State) :
    (s.completeFreePoint).draws = s.draws + 3 := rfl

@[simp] theorem State.resetBlock_block (s : State) :
    (s.resetBlock).block = .reset := rfl

@[simp] theorem State.resetBlock_host (s : State) :
    (s.resetBlock).host = s.host := rfl

@[simp] theorem State.resetBlock_epoch (s : State) :
    (s.resetBlock).epoch = s.epoch + 1 := rfl

@[simp] theorem State.resetBlock_draws (s : State) :
    (s.resetBlock).draws = s.draws := rfl

@[simp] theorem Status.accepted_busy (st : Status) :
    (st.accepted).busy = true := rfl

@[simp] theorem Status.accepted_done (st : Status) :
    (st.accepted).done = false := rfl

@[simp] theorem Status.accepted_err (st : Status) :
    (st.accepted).err = st.err := rfl

@[simp] theorem Status.accepted_errcode (st : Status) :
    (st.accepted).errcode = st.errcode := rfl

@[simp] theorem Status.completed_busy (st : Status) :
    (st.completed).busy = false := rfl

@[simp] theorem Status.completed_done (st : Status) :
    (st.completed).done = true := rfl

@[simp] theorem Status.completed_err (st : Status) :
    (st.completed).err = st.err := rfl

@[simp] theorem Status.completed_errcode (st : Status) :
    (st.completed).errcode = st.errcode := rfl

@[simp] theorem Status.illegal_busy (st : Status) (c : ErrCode) :
    (st.illegal c).busy = st.busy := rfl

@[simp] theorem Status.illegal_done (st : Status) (c : ErrCode) :
    (st.illegal c).done = st.done := rfl

@[simp] theorem Status.illegal_err (st : Status) (c : ErrCode) :
    (st.illegal c).err = true := rfl

@[simp] theorem Status.illegal_errcode (st : Status) (c : ErrCode) :
    (st.illegal c).errcode = errNumber c := rfl

@[simp] theorem Reg.of_val (v : Word) :
    (Reg.of v).val = v := rfl

@[simp] theorem Reg.of_written (v : Word) :
    (Reg.of v).written = true := rfl

@[simp] theorem Block.writeOperand_r (k : Block) (i : Fin 6) (v : Word) :
    (k.writeOperand i v).r = k.r := by unfold Block.writeOperand; split <;> rfl

@[simp] theorem Block.writeOperand_bkt (k : Block) (i : Fin 6) (v : Word) :
    (k.writeOperand i v).bkt = k.bkt := by unfold Block.writeOperand; split <;> rfl

@[simp] theorem Block.writeOperand_status (k : Block) (i : Fin 6) (v : Word) :
    (k.writeOperand i v).status = k.status := by unfold Block.writeOperand; split <;> rfl

@[simp] theorem Block.writeOperand_running (k : Block) (i : Fin 6) (v : Word) :
    (k.writeOperand i v).running = k.running := by unfold Block.writeOperand; split <;> rfl

end Sys2Proof.Machine
end

