-- ==== Sys2Proof/Laws/Ops.lean ====
section
/-! SUPPORT. What each shared operation can answer, said once: operand checks, the two ways a command runs, the meaning of a
command, each host transaction, the step, and how a procedure of the host goes on. Later proofs cite these and do not unfold
the operations. -/

namespace Sys2Proof.Machine

theorem fieldStatus_specified_iff (rs : List Reg) :
    fieldStatus rs = .specified ↔ ∀ r ∈ rs, r.written = true ∧ canonical r.val = true := by
  unfold fieldStatus
  split
  · rename_i h
    obtain ⟨r, hr, hbad⟩ := List.any_eq_true.mp h
    simp only [reduceCtorEq, false_iff]
    intro hall
    have := hall r hr
    simp_all [Reg.bad]
  · rename_i h
    rw [Bool.not_eq_true, List.any_eq_false] at h
    split
    · rename_i hw
      rw [List.all_eq_true] at hw
      simp only [true_iff]
      intro r hr
      have h1 := hw r hr
      have h2 := h r hr
      simp_all [Reg.bad]
    · rename_i hw
      simp only [reduceCtorEq, false_iff]
      intro hall
      exact hw (List.all_eq_true.mpr fun r hr => (hall r hr).1)

theorem fieldStatus_nonCanonical_iff (rs : List Reg) :
    fieldStatus rs = .nonCanonical ↔ ∃ r ∈ rs, r.written = true ∧ canonical r.val = false := by
  unfold fieldStatus
  split
  · rename_i h
    simp only [true_iff]
    simpa [Reg.bad] using h
  · rename_i h
    have : ¬∃ r ∈ rs, r.written = true ∧ canonical r.val = false := by
      simpa [Reg.bad] using h
    split <;> simp [this]

theorem wideStatus_specified_iff (rs : List Reg) :
    wideStatus rs = .specified ↔ ∀ r ∈ rs, r.written = true := by
  unfold wideStatus
  split <;> simp_all

theorem wideStatus_ne_nonCanonical (rs : List Reg) : wideStatus rs ≠ .nonCanonical := by
  unfold wideStatus
  split <;> simp

/-- What a command with a one-word result can answer. -/
theorem State.runWord_cases (s : State) (st : OperandStatus) (v : Nat) :
    (st = .specified ∧ s.runWord st v = .next (s.completeWord (ofField v))) ∨
    (st = .unspecified ∧ s.runWord st v = .next s.completeFreeWord) ∨
    (st = .nonCanonical ∧ s.runWord st v = .refused .nonCanonicalOperand) := by
  cases st <;> simp [State.runWord]

/-- What a command with a point result can answer. -/
theorem State.runPoint_cases (s : State) (st : OperandStatus) (P : Triple Nat) :
    (st = .specified ∧ s.runPoint st P = .next (s.completePoint (P.map ofField))) ∨
    (st = .unspecified ∧ s.runPoint st P = .next s.completeFreePoint) ∨
    (st = .nonCanonical ∧ s.runPoint st P = .refused .nonCanonicalOperand) := by
  cases st <;> simp [State.runPoint]

/-- A completion, whatever it writes to the result triple and however many free words it draws. -/
theorem State.runWord_next {s t : State} {st : OperandStatus} {v : Nat} (h : s.runWord st v = .next t) :
    ∃ q n, t = (s.complete q).drawn n := by
  rcases s.runWord_cases st v with ⟨-, h'⟩ | ⟨-, h'⟩ | ⟨-, h'⟩ <;> rw [h'] at h
  · exact ⟨_, 0, (Host.Outcome.next.inj h).symm⟩
  · exact ⟨_, 1, (Host.Outcome.next.inj h).symm⟩
  · cases h

theorem State.runPoint_next {s t : State} {st : OperandStatus} {P : Triple Nat} (h : s.runPoint st P = .next t) :
    ∃ q n, t = (s.complete q).drawn n := by
  rcases s.runPoint_cases st P with ⟨-, h'⟩ | ⟨-, h'⟩ | ⟨-, h'⟩ <;> rw [h'] at h
  · exact ⟨_, 0, (Host.Outcome.next.inj h).symm⟩
  · exact ⟨_, 3, (Host.Outcome.next.inj h).symm⟩
  · cases h

/-- The meanings at the parameters of this hardware (rules R6, R76, R78 and R91). -/
theorem execPdbl_eq (s : State) :
    execPdbl s = s.runPoint (fieldStatus (tripleRegs s.block.a)) (jdbl Config.idJac (pointOf s.block.a)) := rfl

theorem execPadd_eq (s : State) :
    execPadd s = s.runPoint (fieldStatus (tripleRegs s.block.a ++ tripleRegs s.block.b))
      (jadd Config.idJac (pointOf s.block.a) (pointOf s.block.b)) := rfl

theorem execBred_eq (w : Nat) (s : State) :
    execBred w s = if widthOk w then
      s.runPoint (bucketStatus s.block.bkt (lastBucket w))
        (bucketReduce (jadd Config.idJac) Config.idJac (bucketPoint s.block.bkt) (lastBucket w))
    else .next (s.raiseIllegalCommand .badW) := rfl

/-- All that a command can do when it answers a next state: a legal one completes, and a `BRED` with an illegal width
takes the exception. -/
theorem exec_next {i : Instr} {s t : State} (h : exec i s = .next t) :
    (i.wellFormed = true ∧ ∃ q n, t = (s.complete q).drawn n) ∨
    (i.wellFormed = false ∧ t = s.raiseIllegalCommand .badW) := by
  cases i with
  | fmul => exact .inl ⟨rfl, State.runWord_next h⟩
  | fred => exact .inl ⟨rfl, State.runWord_next h⟩
  | pdbl => exact .inl ⟨rfl, State.runPoint_next h⟩
  | padd => exact .inl ⟨rfl, State.runPoint_next h⟩
  | bred w =>
    change execBred w s = .next t at h
    rw [execBred_eq] at h
    split at h
    · exact .inl ⟨‹_›, State.runPoint_next h⟩
    · exact .inr ⟨by simpa [Instr.wellFormed] using ‹¬widthOk w = true›, (Host.Outcome.next.inj h).symm⟩

/-- The only refusal of a command (rule R23). -/
theorem exec_refused {i : Instr} {s : State} {r : Refusal} (h : exec i s = .refused r) : r = .nonCanonicalOperand := by
  have word (st : OperandStatus) (v : Nat) (h : s.runWord st v = .refused r) : r = .nonCanonicalOperand := by
    cases st <;> simp_all [State.runWord]
  have point (st : OperandStatus) (P : Triple Nat) (h : s.runPoint st P = .refused r) : r = .nonCanonicalOperand := by
    cases st <;> simp_all [State.runPoint]
  cases i with
  | fmul => exact word _ _ h
  | fred => exact word _ _ h
  | pdbl => exact point _ _ h
  | padd => exact point _ _ h
  | bred w =>
    change execBred w s = .refused r at h
    rw [execBred_eq] at h
    split at h
    · exact point _ _ h
    · cases h

theorem State.whenIdle_next_iff (s t : State) (a : Answer) :
    s.whenIdle a = .next t ↔ s.block.status.busy = false ∧ a = .next t := by
  unfold State.whenIdle
  split <;> simp_all

@[simp] theorem State.whenIdle_idle (s : State) (a : Answer) (h : s.block.status.busy = false) : s.whenIdle a = a := by
  simp [State.whenIdle, h]

@[simp] theorem State.whenIdle_busy (s : State) (a : Answer) (h : s.block.status.busy = true) :
    s.whenIdle a = .refused .transactionWhileBusy := by
  simp [State.whenIdle, h]

/-- What a transaction on a bucket entry can answer (rule R33). -/
theorem whenEntry_next_iff (c : Config.Params) (b : Nat) (t : State) (a : Answer) :
    whenEntry c b a = .next t ↔ b < c.nbkt ∧ a = .next t := by
  unfold whenEntry
  split <;> simp_all

@[simp] theorem whenEntry_lt (b : Nat) (a : Answer) (h : b < Config.nbkt) : whenEntry Config.params b a = a := if_pos h

@[simp] theorem whenEntry_ge (b : Nat) (a : Answer) (h : Config.nbkt ≤ b) :
    whenEntry Config.params b a = .refused .noSuchEntry := if_neg (Nat.not_lt.mpr h)

/-- What presenting a command word can answer (rule R49). -/
theorem presentWord_cases (c : Config.Params) (word : CmdWord) (s : State) (start : Instr → Answer) :
    (s.block.status.err = true ∧ presentWord c word s start = .next s) ∨
    (s.block.status.err = false ∧ ∃ code, decodeWith c.wMax word = .illegal code ∧
      presentWord c word s start = .next (s.raiseIllegalCommand code)) ∨
    (s.block.status.err = false ∧ ∃ i, decodeWith c.wMax word = .legal i ∧ presentWord c word s start = start i) := by
  unfold presentWord
  cases he : s.block.status.err
  · cases hd : decodeWith c.wMax word <;> simp
  · simp

theorem hostWriteReg_next {i : Fin 6} {v : Word} {s t : State} (h : hostWriteReg i v s = .next t) :
    s.block.status.busy = false ∧ t = s.writeReg i v := by
  obtain ⟨hb, h⟩ := (s.whenIdle_next_iff t _).mp h
  exact ⟨hb, (Host.Outcome.next.inj h).symm⟩

theorem hostReadReg_next {k : Option (Fin 3)} {i : Fin 9} {s t : State} (h : hostReadReg k i s = .next t) :
    s.block.status.busy = false ∧ t = (s.keep k (s.readReg i)).reply (.reg i (s.readReg i)) := by
  obtain ⟨hb, h⟩ := (s.whenIdle_next_iff t _).mp h
  exact ⟨hb, (Host.Outcome.next.inj h).symm⟩

theorem hostWriteBkt_next {c : Config.Params} {b : Nat} {e : Triple Word} {s t : State}
    (h : hostWriteBkt c b e s = .next t) :
    s.block.status.busy = false ∧ b < c.nbkt ∧ t = s.writeBkt b e := by
  obtain ⟨hb, h⟩ := (s.whenIdle_next_iff t _).mp h
  obtain ⟨hlt, h⟩ := (whenEntry_next_iff c b t _).mp h
  exact ⟨hb, hlt, (Host.Outcome.next.inj h).symm⟩

theorem hostReadBkt_next {c : Config.Params} {k : Bool} {b : Nat} {s t : State} (h : hostReadBkt c k b s = .next t) :
    s.block.status.busy = false ∧ b < c.nbkt ∧
      t = (s.keepEntry k (s.readBkt b)).reply (.bucket b (s.readBkt b)) := by
  obtain ⟨hb, h⟩ := (s.whenIdle_next_iff t _).mp h
  obtain ⟨hlt, h⟩ := (whenEntry_next_iff c b t _).mp h
  exact ⟨hb, hlt, (Host.Outcome.next.inj h).symm⟩

/-- What `HostCommand` can do when it is available (rule R49). -/
theorem hostCommand_next {c : Config.Params} {word : CmdWord} {s t : State} (h : hostCommand c word s = .next t) :
    s.block.status.busy = false ∧
    ((s.block.status.err = true ∧ t = s) ∨
     (s.block.status.err = false ∧ ∃ code, decodeWith c.wMax word = .illegal code ∧ t = s.raiseIllegalCommand code) ∨
     (s.block.status.err = false ∧ ∃ i, decodeWith c.wMax word = .legal i ∧ t = s.accept i)) := by
  obtain ⟨hb, h⟩ := (s.whenIdle_next_iff t _).mp h
  refine ⟨hb, ?_⟩
  rcases presentWord_cases c word s fun i => .next (s.accept i) with ⟨he, h'⟩ | ⟨he, code, hd, h'⟩ | ⟨he, i, hd, h'⟩ <;>
    rw [h'] at h <;> cases h
  · exact .inl ⟨he, rfl⟩
  · exact .inr (.inl ⟨he, code, hd, rfl⟩)
  · exact .inr (.inr ⟨he, i, hd, rfl⟩)

/-- What `RUN` can do when it is available (rules R49, R50 and R54). -/
theorem hostRun_next {c : Config.Params} {run : Meaning} {word : CmdWord} {s t : State} (h : hostRun c run word s = .next t) :
    s.block.status.busy = false ∧
    ((s.block.status.err = true ∧ t = s) ∨
     (s.block.status.err = false ∧ ∃ code, decodeWith c.wMax word = .illegal code ∧ t = s.raiseIllegalCommand code) ∨
     (s.block.status.err = false ∧ ∃ i, decodeWith c.wMax word = .legal i ∧ run i s = .next t)) := by
  obtain ⟨hb, h⟩ := (s.whenIdle_next_iff t _).mp h
  refine ⟨hb, ?_⟩
  rcases presentWord_cases c word s fun i => run i s with ⟨he, h'⟩ | ⟨he, code, hd, h'⟩ | ⟨he, i, hd, h'⟩ <;> rw [h'] at h
  · exact .inl ⟨he, (Host.Outcome.next.inj h).symm⟩
  · exact .inr (.inl ⟨he, code, hd, (Host.Outcome.next.inj h).symm⟩)
  · exact .inr (.inr ⟨he, i, hd, h⟩)

/-- What the block's turn can do (rules R50 and R134). -/
theorem blockTurn_next {run : Meaning} {s t : State} (h : blockTurn run s = .next t) :
    (s.block.running = none ∧ t = s) ∨ (∃ i, s.block.running = some i ∧ run i s = .next t) := by
  unfold blockTurn at h
  split at h
  · exact .inl ⟨‹_›, (Host.Outcome.next.inj h).symm⟩
  · exact .inr ⟨_, ‹_›, h⟩

/-- The step, by the next move. -/
theorem step_no_moves (s : State) (h : s.host.moves = []) : step s = blockTurn exec s := by
  simp [step, takeMove, h]

theorem step_block (s : State) (rest : List Move) (h : s.host.moves = .block :: rest) :
    step s = blockTurn exec (s.withMoves rest) := by
  simp [step, takeMove, h]

theorem step_host (s : State) (st : Stmt) (rest : List Move) (h : s.host.moves = .host st :: rest) :
    step s = hostStatement Config.params exec st (s.withMoves rest) := by
  simp [step, takeMove, h]

/-- A word in a host statement does not depend on the moves still to come. -/
@[simp] theorem HostWord.value_withMoves (w : HostWord) (s : State) (ms : List Move) :
    w.value (s.withMoves ms).host = w.value s.host := by cases w <;> rfl

/-- A run goes on from the state a step gives. -/
theorem run_succ_of_step (M : Host.Core) (k : Nat) (s t : M.State) (h : M.step s = .next t) :
    M.run (k + 1) s = M.run k t := by
  simp [Host.Core.run, h]

theorem run_of_step {k : Nat} {s t : State} (h : step s = .next t) :
    Host.Core.run core (k + 1) s = Host.Core.run core k t := run_succ_of_step core k s t h

/-- A procedure goes on exactly from a next state. -/
theorem andThen_next_iff {α β : Type} (a : Host.Outcome α Fault Refusal) (f : α → Host.Outcome β Fault Refusal) (v : β) :
    andThen a f = .next v ↔ ∃ u, a = .next u ∧ f u = .next v := by
  cases a <;> simp [andThen]

@[simp] theorem andThen_next {α β : Type} (v : α) (f : α → Host.Outcome β Fault Refusal) : andThen (.next v) f = f v := rfl

theorem andThen_assoc {α β γ : Type} (a : Host.Outcome α Fault Refusal) (f : α → Host.Outcome β Fault Refusal)
    (g : β → Host.Outcome γ Fault Refusal) : andThen (andThen a f) g = andThen a fun v => andThen (f v) g := by
  cases a <;> rfl

@[simp] theorem issue_nil (c : Config.Params) (s : State) : issue c [] s = .next s := rfl

/-- Issuing a statement is the transaction it stands for, on the state as it is. -/
theorem issue_cons (c : Config.Params) (st : Stmt) (rest : List Stmt) (s : State) :
    issue c (st :: rest) s = andThen (hostStatement c (execWith c) st s) (issue c rest) := rfl

theorem issue_append (c : Config.Params) (a b : List Stmt) (s : State) :
    issue c (a ++ b) s = andThen (issue c a s) (issue c b) := by
  induction a generalizing s with
  | nil => rfl
  | cons st rest ih =>
    rw [List.cons_append, issue_cons, issue_cons, andThen_assoc]
    exact congrArg _ (funext ih)

end Sys2Proof.Machine
end

