-- ==== Sys2Proof/Laws/PerInstr.lean ====
section
/-! SUPPORT. Statements about the commands as syntax, one lemma a constructor: the word of a well-formed command selects its
row of the opcode map, `(c & mask) == match` (rule R47). -/

namespace Sys2Proof.Laws

/-- The `mask` column of rule R47: all bits, less the width field for `BRED`. -/
def rowMask : Instr → CmdWord
  | .fmul => 0xFFFFFFFF
  | .fred => 0xFFFFFFFF
  | .pdbl => 0xFFFFFFFF
  | .padd => 0xFFFFFFFF
  | .bred _ => 0xFFFFE0FF

/-- The `match` column of rule R47. -/
def rowMatch : Instr → CmdWord
  | .fmul => 0x00000001
  | .fred => 0x00000002
  | .pdbl => 0x00000003
  | .padd => 0x00000004
  | .bred _ => 0x00000005

/-- The word of a well-formed command selects its own row. -/
def RowSelected.Statement (i : Instr) : Prop :=
  i.wellFormed = true → encode i &&& rowMask i = rowMatch i

theorem RowSelected.fmul : RowSelected.Statement .fmul := fun _ => by decide

theorem RowSelected.fred : RowSelected.Statement .fred := fun _ => by decide

theorem RowSelected.pdbl : RowSelected.Statement .pdbl := fun _ => by decide

theorem RowSelected.padd : RowSelected.Statement .padd := fun _ => by decide

theorem RowSelected.bred (w : Nat) : RowSelected.Statement (.bred w) := fun h => by
  obtain ⟨h1, h2⟩ := (widthOk_iff w).mp h
  interval_cases w <;> decide

end Sys2Proof.Laws
end

