-- ==== Sys2Proof/Laws/Prime.lean ====
section
/-! SUPPORT. Square and multiply computes a power (rule R103), and p is prime (rule R68, last item; the spec takes it from
general knowledge, G5): a chain of Lucas certificates, each checked by the kernel. -/

namespace Sys2Proof.Machine

theorem powMod_eq (m n a e : Nat) (h : e < 2 ^ n) : powMod m n a e = a ^ e % m := by
  induction n generalizing a e with
  | zero =>
    have : e = 0 := by omega
    simp [powMod, this]
  | succ n ih =>
    have he : e / 2 < 2 ^ n := by omega
    have hsq : (a * a % m) ^ (e / 2) % m = a ^ (2 * (e / 2)) % m := by
      rw [← Nat.pow_mod, ← Nat.pow_two, ← Nat.pow_mul]
    unfold powMod
    rw [ih _ _ he, hsq]
    split
    · have h2 : a ^ e = a * a ^ (2 * (e / 2)) := by
        rw [← Nat.pow_succ']
        congr 1
        omega
      rw [h2, Nat.mul_mod_mod]
    · congr 2
      omega

/-- Lucas's test with the power taken by square and multiply. -/
theorem prime_of_lucas (n g : Nat) (fs : List Nat) (hn : n < 2 ^ 256) (hprime : ∀ q ∈ fs, q.Prime)
    (hprod : fs.prod = n - 1) (hone : powMod n 256 g (n - 1) = 1)
    (hne : ∀ q ∈ fs, powMod n 256 g ((n - 1) / q) ≠ 1) : n.Prime := by
  have hmod : 1 % n = 1 := by
    rw [powMod_eq _ _ _ _ (by omega)] at hone
    rw [← hone, Nat.mod_mod]
  have cast (e : Nat) : (g : ZMod n) ^ e = 1 ↔ g ^ e % n = 1 := by
    rw [← Nat.cast_one, ← Nat.cast_pow, ZMod.natCast_eq_natCast_iff, Nat.ModEq, hmod]
  refine lucas_primality n (g : ZMod n) ?_ ?_
  · rw [cast, ← powMod_eq _ 256 _ _ (by omega)]
    exact hone
  · intro q hq hdvd
    rw [← hprod] at hdvd
    obtain ⟨r, hr, hqr⟩ := (Nat.Prime.prime hq).dvd_prod_iff.mp hdvd
    obtain rfl := (Nat.prime_dvd_prime_iff_eq hq (hprime r hr)).mp hqr
    rw [Ne, cast, ← powMod_eq _ 256 _ _ (lt_of_le_of_lt (Nat.div_le_self _ _) (by omega))]
    exact hne q hr

theorem prime_107590001 : Nat.Prime 107590001 := by norm_num

theorem prime_7240687 : Nat.Prime 7240687 := by norm_num

theorem prime_13331831 : Nat.Prime 13331831 := by norm_num

theorem prime_173378833005251801 : Nat.Prime 173378833005251801 := by
  refine prime_of_lucas _ 6 [2, 2, 2, 5, 5, 2621, 24809, 13331831] (by decide) ?_ (by decide) (by decide +kernel) (by decide +kernel)
  simp only [List.forall_mem_cons]
  exact ⟨by norm_num, by norm_num, by norm_num, by norm_num, by norm_num, by norm_num, by norm_num, prime_13331831, by simp⟩

theorem prime_22149492674086928081353 : Nat.Prime 22149492674086928081353 := by
  refine prime_of_lucas _ 5 [2, 2, 2, 3, 5323, 173378833005251801] (by decide) ?_ (by decide) (by decide +kernel) (by decide +kernel)
  simp only [List.forall_mem_cons]
  exact ⟨by norm_num, by norm_num, by norm_num, by norm_num, by norm_num, prime_173378833005251801, by simp⟩

theorem prime_132896956044521568488119 : Nat.Prime 132896956044521568488119 := by
  refine prime_of_lucas _ 6 [2, 3, 22149492674086928081353] (by decide) ?_ (by decide) (by decide +kernel) (by decide +kernel)
  simp only [List.forall_mem_cons]
  exact ⟨by norm_num, by norm_num, prime_22149492674086928081353, by simp⟩

theorem prime_255515944373312847190720520512484175977 : Nat.Prime 255515944373312847190720520512484175977 := by
  refine prime_of_lucas _ 3 [2, 2, 2, 7, 7, 11, 1627, 2657, 4423, 41201, 96557, 7240687, 107590001] (by decide) ?_
    (by decide) (by decide +kernel) (by decide +kernel)
  simp only [List.forall_mem_cons]
  exact ⟨by norm_num, by norm_num, by norm_num, by norm_num, by norm_num, by norm_num, by norm_num, by norm_num,
    by norm_num, by norm_num, by norm_num, prime_7240687, prime_107590001, by simp⟩

theorem prime_p_sub_one_factor :
    Nat.Prime 205115282021455665897114700593932402728804164701536103180137503955397371 := by
  refine prime_of_lucas _ 10 [2, 3, 5, 29, 29, 31, 7723, 132896956044521568488119,
    255515944373312847190720520512484175977] (by decide) ?_ (by decide) (by decide +kernel) (by decide +kernel)
  simp only [List.forall_mem_cons]
  exact ⟨by norm_num, by norm_num, by norm_num, by norm_num, by norm_num, by norm_num, by norm_num,
    prime_132896956044521568488119, prime_255515944373312847190720520512484175977, by simp⟩

/-- The base prime is prime. -/
theorem p_prime : Nat.Prime Config.p := by
  refine prime_of_lucas _ 3 [2, 3, 7, 13441,
    205115282021455665897114700593932402728804164701536103180137503955397371] (by decide) ?_ (by decide) (by decide +kernel) (by decide +kernel)
  simp only [List.forall_mem_cons]
  exact ⟨by norm_num, by norm_num, by norm_num, by norm_num, prime_p_sub_one_factor, by simp⟩

end Sys2Proof.Machine
end

