-- ==== Sys2Proof/Tests/Slice0.lean ====
section
/-! SUPPORT. The model's own tests: ill-formed terms the checks refuse, words written out from the encoding, the spec's test
vectors (95_test_vectors.md) run one step each, and for each statement with hypotheses a state and operands that meet them. -/

namespace Sys2Proof.Tests

set_option Elab.async false

open Sys2Proof.Machine

/-! ### Helpers -/

/-- Gx and Gy, from 95_test_vectors.md. -/
def gx : Word := 0x79BE667EF9DCBBAC55A06295CE870B07029BFCDB2DCE28D959F2815B16F81798

def gy : Word := 0x483ADA7726A3C4655DA4FBFC0E1108A8FD17B448A68554199C47D08FFB10D4B8

/-- The point 2G, affine, with Z = 1. -/
def twoG : Triple Word :=
  ⟨0xC6047F9441ED7D6D3045406E95C07CD85C778E4B8CEF3CA7ABAC09B95C709EE5,
   0x1AE168FEA63DC339A3C58419466CEAEEF7F632653266D0E1236431A950CFE52A, 1⟩

/-- J2 of 95_test_vectors.md. -/
def j2 : Triple Word :=
  ⟨0x7D152C041EA8E1DC2191843D1FA9DB55B68F88FEF695E2C791D40444B365AFC2,
   0x56915849F52CC8F76F5FD7E4BF60DB4A43BF633E1B1383F85FE89164BFADCBDB,
   0x9075B4EE4D4788CABB49F7F81C221151FA2F68914D0AA833388FA11FF621A970⟩

def g : Triple Word := ⟨gx, gy, 1⟩

/-- A word of p, not canonical. -/
def pWord : Word := BitVec.ofNat 256 Config.p

/-- After reset, with both operand triples written. -/
def loaded (a b : Triple Word) : State :=
  { State.reset with block := { Block.reset with a := a.map Reg.of, b := b.map Reg.of } }

/-- After reset, with bucket entries written. -/
def filled (m : Memory) : State := { State.reset with block := { Block.reset with bkt := m } }

/-- The state with other `STATUS` fields. -/
def withStatus (s : State) (st : Status) : State := { s with block := { s.block with status := st } }

/-- The state with a command running and `BUSY` 1. -/
def started (s : State) (i : Instr) : State := s.accept i

/-- `STATUS` with `ERR` 1 and code 2, nothing running. -/
def haltedStatus : Status := ⟨false, true, true, 2⟩

/-- The result triple of a next state. -/
def resultOf (a : Answer) : Option (Triple (Option Word)) :=
  match a with
  | .next t => some (t.block.r.map Reg.seen)
  | _ => none

/-- `STATUS` of a next state. -/
def statusOf (a : Answer) : Option (BitVec 32) :=
  match a with
  | .next t => some t.block.status.word
  | _ => none

/-- The highest and the lowest bucket index. -/
def topEntry : Nat := 65535

def zeroEntry : Nat := 0

/-- G and 2G as affine points. -/
def affineG : Affine := .point ⟨gx.toNat, by decide +kernel⟩ ⟨gy.toNat, by decide +kernel⟩

def affine2G : Affine := .point ⟨twoG.x.toNat, by decide +kernel⟩ ⟨twoG.y.toNat, by decide +kernel⟩

/-- The coordinates of an affine result. -/
def coordinates : Affine → Option (Nat × Nat)
  | .infinity => none
  | .point x y => some (x.val, y.val)

/-- What an engine on the block answers, its affine result. -/
def affineOf (a : Except InputError (Doing Affine)) : Option (Option (Nat × Nat)) :=
  match a with
  | .ok (.next r) => some (coordinates r.1)
  | _ => none

/-! ### WellFormed -/

theorem test_width_zero_is_ill_formed : (Instr.bred 0).wellFormed = false := by decide

theorem test_width_seventeen_is_ill_formed : (Instr.bred 17).wellFormed = false := by decide

theorem test_memory_out_of_order_is_ill_formed : Memory.wf [(2, g), (1, g)] = false := by decide

theorem test_memory_index_too_large_is_ill_formed : Memory.wf [(65536, g)] = false := by decide

/-! ### Words written out bit by bit (rule R45: rsv1, w, rsv0, op) -/

theorem test_decode_fmul_bits : decode 0b0000000000000000000_00000_00000_001 = .legal .fmul := by decide

theorem test_decode_fred_bits : decode 0b0000000000000000000_00000_00000_010 = .legal .fred := by decide

theorem test_decode_pdbl_bits : decode 0b0000000000000000000_00000_00000_011 = .legal .pdbl := by decide

theorem test_decode_padd_bits : decode 0b0000000000000000000_00000_00000_100 = .legal .padd := by decide

theorem test_decode_bred_bits : decode 0b0000000000000000000_01011_00000_101 = .legal (.bred 11) := by decide

theorem test_decode_table_word_bred : decodeTableWord 32 0x00000205 = some (.bred 2) := by decide

/-! ### Test vectors of 95_test_vectors.md -/

/-- Vector F6. -/
theorem test_fmul_F6 : resultOf (exec .fmul (loaded ⟨gx, 0, 0⟩ ⟨gy, 0, 0⟩)) =
    some ⟨some 0xFD3DC529C6EB60FB9D166034CF3C1A5A72324AA9DFD3428A56D7E1CE0179FD9B, none, none⟩ := by decide +kernel

/-- Vector F4, and `STATUS` = 2. -/
theorem test_fmul_F4 :
    statusOf (exec .fmul (loaded ⟨BitVec.ofNat 256 (2 ^ 255), 0, 0⟩ ⟨2, 0, 0⟩)) = some 2 ∧
    resultOf (exec .fmul (loaded ⟨BitVec.ofNat 256 (2 ^ 255), 0, 0⟩ ⟨2, 0, 0⟩)) = some ⟨some 0x1000003D1, none, none⟩ := by
  decide +kernel

/-- Vector D8. -/
theorem test_fred_D8 : resultOf (exec .fred (loaded ⟨BitVec.allOnes 256, BitVec.allOnes 256, 0⟩ ⟨0, 0, 0⟩)) =
    some ⟨some 0x1000007A2000E90A0, none, none⟩ := by decide +kernel

/-- Vector D7: only the high word is not 0. -/
theorem test_fred_D7 : resultOf (exec .fred (loaded ⟨0, BitVec.allOnes 256, 0⟩ ⟨0, 0, 0⟩)) =
    some ⟨some 0x1000007A1000E8CD0, none, none⟩ := by decide +kernel

/-- Vector P1. -/
theorem test_pdbl_P1 : resultOf (exec .pdbl (loaded g ⟨0, 0, 0⟩)) = some (j2.map some) := by decide +kernel

/-- Vector P5: (p - 23, p - 11, 12). -/
theorem test_pdbl_P5 : resultOf (exec .pdbl (loaded ⟨1, 2, 3⟩ ⟨0, 0, 0⟩)) =
    some ⟨some 0xFFFFFFFFFFFFFFFFFFFFFFFFFFFFFFFFFFFFFFFFFFFFFFFFFFFFFFFEFFFFFC18,
      some 0xFFFFFFFFFFFFFFFFFFFFFFFFFFFFFFFFFFFFFFFFFFFFFFFFFFFFFFFEFFFFFC24, some 12⟩ := by decide +kernel

/-- Vector A2: the operands of A1 swapped. -/
theorem test_padd_A2 : resultOf (exec .padd (loaded g j2)) =
    some ⟨some 0x0CA90EF9B06D7EB51D650E9145E3083CBD8DF8759168862036F97A358F089848,
      some 0x435AFE76017B8D55D04FF8A98DD60B2BA7EB6F87F6B28182CA4493D7165DD127,
      some 0x9242FA9C0B9F23A3BFEA6A0EB6DBCFCBC4853FE9A25EE948105DC66A2A9B5BAA⟩ := by decide +kernel

/-- Vector A10: equal normalised X, unequal normalised Y. -/
theorem test_padd_A10 : resultOf (exec .padd (loaded ⟨1, 2, 3⟩ ⟨4, 5, 6⟩)) = some ⟨some 1, some 1, some 0⟩ := by
  decide +kernel

/-- Vector B1: result J7. -/
theorem test_bred_B1 : resultOf (exec (.bred 2) (filled [(1, g), (2, ⟨0, 0, 0⟩), (3, twoG)])) =
    some ⟨some 0x29D434B20040874A0520A57D2D85E56A9556EF6B393E1EA99F56056A56C6C917,
      some 0x8AF19290076310DDA892D2C7194BBEA94BA0F6BFB0FFFEE0722611C4899CB51C,
      some 0x371B6CE06EFBF253A65CC5D1AA7D204EAE05B7B75626D286797470D1477CF844⟩ := by decide +kernel

/-- Vector B4: entry 0 is not read, and running becomes the identity in mid-scan. -/
theorem test_bred_B4 :
    resultOf (exec (.bred 2) (filled [(0, ⟨9, 9, 9⟩), (1, g), (2, ⟨gx, ofField (fsub 0 gy.toNat), 1⟩), (3, ⟨0, 0, 0⟩)])) =
    some ⟨some gx, some 0xB7C52588D95C3B9AA25B0403F1EEF75702E84BB7597AABE663B82F6F04EF2777, some 1⟩ := by decide +kernel

/-- The affine image of J2 is 2G (95_test_vectors.md). -/
theorem test_affine_image_of_J2 :
    toAffine (j2.map toField) = affine2G := by decide +kernel

/-- Program 5, line 4: a `BRED` word with w = 0 after a completed command leaves `STATUS` = 0x16. -/
theorem test_bad_width_status :
    statusOf (step (((withStatus State.reset ⟨false, true, false, 0⟩).withMoves [.host (.cmd 0x00000005)]))) = some 0x16 := by
  decide

/-- Program 5, line 11. -/
theorem test_illegal_op_status :
    statusOf (step (State.reset.withMoves [.host (.cmd 0x00000000)])) = some 0x0C := by decide

/-- Rule R53 and rule R54: `MOVP A, R` moves the three result words. -/
theorem test_movp_expansion :
    expand (.movp .sideA) = [.rd (some 0) 6, .rd (some 1) 7, .rd (some 2) 8, .wr 0 (.var 0), .wr 1 (.var 1), .wr 2 (.var 2)] := by
  decide

/-- Rule R108, example. -/
theorem test_windows_of_123456 : splitIntoWindows 123456 16 = [57920, 1] := by decide

/-- Rule R33: index 65536 is no entry. -/
theorem test_no_entry_65536 :
    (match step (State.reset.withMoves [.host (.rdb false 65536)]) with
      | .refused .noSuchEntry => true
      | _ => false) = true := by decide

/-- 11G, the result of program 4 (95_test_vectors.md). -/
def elevenG : Nat × Nat :=
  (0x774AE7F858A9411E5EF4246B70C65AAC5649980BE5C17891BBEC17895DA008CB,
   0xD984A032EB6B5E190243DD56D7B7B365372DB1E2DFF9D6A8301D74C9C953C61B)

/-- Program 4, 5 G + 3 (2 G) = 11 G with w = 2: the engine on the block. -/
theorem test_program_4_on_the_block :
    affineOf (msmOnBlock Config.params (bredOnBlock Config.params) [5, 3] [affineG, affine2G] 2 State.reset) =
      some (some elevenG) := by decide +kernel

/-- The same numbers with the explicit-weight procedure on the block. -/
theorem test_program_4_by_explicit_weight :
    affineOf (msmOnBlock Config.params (explicitReduceOnBlock Config.params) [5, 3] [affineG, affine2G] 2 State.reset) =
      some (some elevenG) := by decide +kernel

/-- Program 4's numbers by the affine reference (rule R112). -/
theorem test_program_4_by_the_affine_reference : coordinates (msmNaive [5, 3] [affineG, affine2G]) = some elevenG := by
  decide +kernel

/-- Vector M1: two points in one bucket, 3G. Its affine image is that of the affine reference. -/
theorem test_M1_on_the_block :
    affineOf (msmOnBlock Config.params (bredOnBlock Config.params) [1, 1] [affineG, affine2G] 1 State.reset) =
      some (coordinates (affineAdd affineG affine2G)) := by decide +kernel

/-! ### Witnesses: for each statement with hypotheses, a state and operands that meet them together, clause by clause -/

/-- A halted block whose next move is a reset. -/
def haltedReset : State := (withStatus State.reset haltedStatus).withMoves [.host .reset]

theorem witness_ResetAtAnyTime_while_busy :
    ((started State.reset .fmul).withMoves [.host .reset]).host.moves = .host .reset :: [] ∧
    ((started State.reset .fmul).withMoves [.host .reset]).block.status.busy = true := by decide

theorem witness_ResetAtAnyTime_clears_err :
    ∃ t, step haltedReset = .next t ∧ haltedReset.block.status.err = true ∧ t.block.status.err = false :=
  ⟨_, rfl, rfl, rfl⟩

theorem witness_StatusWord_read_while_busy :
    ((started State.reset (.bred 16)).withMoves [.host .rds]).host.moves = .host .rds :: [] := rfl

theorem witness_StatusFields_reset : haltedReset.host.moves = .host .reset :: [] := rfl

/-- An idle block whose next move presents a word. -/
def presenting (c : CmdWord) : State := State.reset.withMoves [.host (.cmd c)]

theorem witness_StatusFields_accepted :
    (presenting 0x1005).host.moves = .host (.cmd 0x1005) :: [] ∧ (presenting 0x1005).block.status.busy = false ∧
    (presenting 0x1005).block.status.err = false ∧ decode 0x1005 = .legal (.bred 16) := by decide

theorem witness_StatusFields_completed :
    ∃ t, Instr.wellFormed (.bred 16) = true ∧ exec (.bred 16) State.reset = .next t := ⟨_, rfl, rfl⟩

theorem witness_StatusFields_illegal :
    ((presenting 0x1105).host.moves = .host (.cmd 0x1105) :: [] ∨
      (presenting 0x1105).host.moves = .host (.run 0x1105) :: []) ∧ (presenting 0x1105).block.status.busy = false ∧
    (presenting 0x1105).block.status.err = false ∧ decode 0x1105 = .illegal .badW := by decide

/-- A halted block whose next move presents a word by `RUN`. -/
def haltedRun : State := (withStatus State.reset haltedStatus).withMoves [.host (.run 0x1)]

theorem witness_StatusFields_halted :
    (haltedRun.host.moves = .host (.cmd 0x1) :: [] ∨ haltedRun.host.moves = .host (.run 0x1) :: []) ∧
    haltedRun.block.status.busy = false ∧ haltedRun.block.status.err = true := by decide

theorem witness_HostCommand_busy :
    ((started State.reset .fmul).withMoves [.host (.cmd 0x1)]).host.moves = .host (.cmd 0x1) :: [] ∧
    ((started State.reset .fmul).withMoves [.host (.cmd 0x1)]).block.status.busy = true := by decide

theorem witness_HostCommand_halted :
    ((withStatus (presenting 0x1) haltedStatus).host.moves = .host (.cmd 0x1) :: []) ∧
    (withStatus (presenting 0x1) haltedStatus).block.status.busy = false ∧
    (withStatus (presenting 0x1) haltedStatus).block.status.err = true := by decide

theorem witness_HostCommand_illegal :
    (presenting 0).host.moves = .host (.cmd 0) :: [] ∧ (presenting 0).block.status.busy = false ∧
    (presenting 0).block.status.err = false ∧ decode 0 = .illegal .illegalOp := by decide

theorem witness_HostCommand_legal :
    (presenting 0x105).host.moves = .host (.cmd 0x105) :: [] ∧ (presenting 0x105).block.status.busy = false ∧
    (presenting 0x105).block.status.err = false ∧ decode 0x105 = .legal (.bred 1) := by decide

theorem witness_HostCommand_still_busy :
    ∃ t, ((started State.reset .fmul).withMoves [.host .rds]).block.status.busy = true ∧
      step ((started State.reset .fmul).withMoves [.host .rds]) = .next t ∧ t.block.status.busy = true :=
  ⟨_, rfl, rfl, rfl⟩

theorem witness_IllegalCommand_reserved_bit :
    (presenting 0x2105).host.moves = .host (.cmd 0x2105) :: [] ∧ (presenting 0x2105).block.status.busy = false ∧
    (presenting 0x2105).block.status.err = false ∧ (0x2105 : CmdWord).extractLsb' 13 19 ≠ 0 := by decide

theorem witness_IllegalCommand_width_outside_bred :
    (presenting 0x101).host.moves = .host (.cmd 0x101) :: [] ∧ (presenting 0x101).block.status.busy = false ∧
    (presenting 0x101).block.status.err = false ∧
    (0x101 : CmdWord).extractLsb' 0 3 ≠ 5 ∧ (0x101 : CmdWord).extractLsb' 8 5 ≠ 0 := by decide

theorem witness_IllegalCommand_bad_width :
    (presenting 0x1105).host.moves = .host (.cmd 0x1105) :: [] ∧ (presenting 0x1105).block.status.busy = false ∧
    (presenting 0x1105).block.status.err = false ∧ (0x1105 : CmdWord).extractLsb' 3 5 = 0 ∧
    (0x1105 : CmdWord).extractLsb' 13 19 = 0 ∧ (0x1105 : CmdWord).extractLsb' 0 3 = 5 ∧
    16 < ((0x1105 : CmdWord).extractLsb' 8 5).toNat := by decide

/-- A halted, idle block with operands and an entry written, and one move to come. -/
def haltedServing (m : Move) : State :=
  (withStatus { loaded g g with block := { (loaded g g).block with bkt := [(65535, g)] } } haltedStatus).withMoves [m]

theorem witness_Halted_command_words :
    (haltedServing (.host (.cmd 0x1))).block.status.err = true ∧ (haltedServing (.host (.cmd 0x1))).block.status.busy = false ∧
    (haltedServing (.host (.cmd 0x1))).host.moves = .host (.cmd 0x1) :: [] ∧
    (haltedServing (.host (.run 0xFFFFFFFF))).host.moves = .host (.run 0xFFFFFFFF) :: [] := by decide

theorem witness_Halted_host_transactions :
    (haltedServing (.host (.wr 5 (.lit 7)))).host.moves = .host (.wr 5 (.lit 7)) :: [] ∧
    (haltedServing (.host (.wrb topEntry (.lit 1) (.lit 2) (.lit 0)))).host.moves =
      .host (.wrb topEntry (.lit 1) (.lit 2) (.lit 0)) :: [] ∧
    (haltedServing (.host (.rd none 0))).host.moves = .host (.rd none 0) :: [] ∧
    ((haltedServing (.host (.rd none 0))).block.x 0).seen = some gx ∧
    (haltedServing (.host (.rdb true topEntry))).host.moves = .host (.rdb true topEntry) :: [] ∧
    (haltedServing (.host (.rdb true topEntry))).block.bkt.read 65535 = some g := by decide

/-- A busy block with one move to come. -/
def busyWith (m : Move) : State := (started State.reset .padd).withMoves [m]

theorem witness_Busy_refused_transactions :
    (busyWith (.host (.wr 0 (.lit 1)))).block.status.busy = true ∧
    (busyWith (.host (.wr 0 (.lit 1)))).host.moves = .host (.wr 0 (.lit 1)) :: [] ∧
    (busyWith (.host (.run 0x1))).host.moves = .host (.run 0x1) :: [] := by decide

theorem witness_Busy_available_transactions :
    (busyWith (.host .rds)).block.status.busy = true ∧ (busyWith (.host .rds)).host.moves = .host .rds :: [] ∧
    (busyWith (.host .reset)).host.moves = .host .reset :: [] := by decide

/-- An idle block whose next move is `RUN` of a word. -/
def running (c : CmdWord) : State := (loaded g twoG).withMoves [.host (.run c)]

theorem witness_RunInOneStep_legal :
    ∃ t, (running 0x4).host.moves = .host (.run 0x4) :: [] ∧ step (running 0x4) = .next t := ⟨_, rfl, rfl⟩

theorem witness_RunInOneStep_ignored :
    ∃ t, (withStatus (running 0x4) haltedStatus).host.moves = .host (.run 0x4) :: [] ∧
      step (withStatus (running 0x4) haltedStatus) = .next t := ⟨_, rfl, rfl⟩

theorem witness_RunInOneStep_illegal :
    ∃ t, (running 0x5).host.moves = .host (.run 0x5) :: [] ∧ step (running 0x5) = .next t := ⟨_, rfl, rfl⟩

theorem witness_StatusReadDuringACommand :
    (State.reset.withMoves [.host (.cmd 0x1), .host .rds]).host.moves = .host (.cmd 0x1) :: .host .rds :: [] ∧
    (State.reset.withMoves [.host (.cmd 0x1), .host .rds]).block.status = ⟨false, false, false, 0⟩ ∧
    decode 0x1 = .legal .fmul := by decide

theorem witness_EveryStartedCommand_specified :
    Instr.wellFormed .padd = true ∧ operandsAllowed .padd (loaded g twoG) := by
  refine ⟨rfl, ?_⟩
  unfold operandsAllowed
  decide +kernel

theorem witness_EveryStartedCommand_at_a_wait :
    Instr.wellFormed .fmul = true ∧ operandsAllowed .fmul ((started (loaded g g) .fmul).withMoves [.host .wait]) ∧
    ((started (loaded g g) .fmul).withMoves [.host .wait]).block.running = some .fmul ∧
    ((started (loaded g g) .fmul).withMoves [.host .wait]).block.status.busy = true := by
  refine ⟨rfl, ?_, rfl, rfl⟩
  unfold operandsAllowed
  decide +kernel

theorem witness_EveryStartedCommand_nothing_written :
    Instr.wellFormed (.bred 16) = true ∧ operandsAllowed (.bred 16) (started State.reset (.bred 16)) ∧
    (started State.reset (.bred 16)).block.running = some (.bred 16) ∧
    (started State.reset (.bred 16)).block.status.busy = true ∧ (started State.reset (.bred 16)).host.moves = [] :=
  ⟨rfl, (fun _ _ _ _ h => nomatch h), rfl, rfl, rfl⟩

/-- After reset, with only A0 written. -/
def onlyA0 : State := { State.reset with block := { Block.reset with a := ⟨.of gx, .unwritten, .unwritten⟩ } }

theorem witness_Unwritten_fmul_and_fred :
    operandsAllowed .fmul onlyA0 ∧ onlyA0.block.b.x.seen = none ∧ onlyA0.block.a.y.seen = none := by
  refine ⟨?_, rfl, rfl⟩
  unfold operandsAllowed
  decide +kernel

theorem witness_Unwritten_pdbl :
    operandsAllowed .pdbl onlyA0 ∧ ∃ r ∈ tripleRegs onlyA0.block.a, r.seen = none := by
  refine ⟨?_, by decide⟩
  unfold operandsAllowed
  decide +kernel

theorem witness_Unwritten_padd :
    operandsAllowed .padd onlyA0 ∧ ∃ r ∈ tripleRegs onlyA0.block.a ++ tripleRegs onlyA0.block.b, r.seen = none := by
  refine ⟨?_, by decide⟩
  unfold operandsAllowed
  decide +kernel

theorem witness_Unwritten_bred :
    operandsAllowed (.bred 16) State.reset ∧ ∃ b, 1 ≤ b ∧ b ≤ 2 ^ 16 - 1 ∧ State.reset.block.bkt.read b = none :=
  ⟨(fun _ _ _ _ h => nomatch h), 65535, by decide, by decide, rfl⟩

theorem witness_StepRuns_run :
    (running 0x3).host.moves = .host (.run 0x3) :: [] ∧ (running 0x3).block.status.busy = false ∧
    (running 0x3).block.status.err = false ∧ decode 0x3 = .legal .pdbl := by decide

theorem witness_StepRuns_block_turn :
    (busyWith .block).host.moves = .block :: [] ∧ (busyWith .block).block.running = some .padd := by decide

theorem witness_StepRuns_fetch_word :
    Instr.wellFormed (.bred 16) = true ∧ State.reset.block.status.busy = false ∧ State.reset.block.status.err = false := by
  decide

theorem witness_EveryStepKeepsTheBlockInvariant :
    ∃ t, (presenting 0x4).block.Inv ∧ step (presenting 0x4) = .next t :=
  ⟨_, ⟨rfl, by decide, rfl, (fun _ h => nomatch h), by decide, by decide, by decide, by decide⟩, rfl⟩

theorem witness_OnlyTheseEvents_operand :
    ∃ t, step (State.reset.withMoves [.host (.wr 5 (.lit 3))]) = .next t ∧
      t.block.x (Fin.castLE (by decide) (5 : Fin 6)) ≠ State.reset.block.x (Fin.castLE (by decide) (5 : Fin 6)) :=
  ⟨_, rfl, by decide⟩

theorem witness_OnlyTheseEvents_bucket :
    ∃ t, step (State.reset.withMoves [.host (.wrb topEntry (.lit 1) (.lit 2) (.lit 3))]) = .next t ∧
      t.block.bkt.read 65535 ≠ State.reset.block.bkt.read 65535 :=
  ⟨_, rfl, by decide⟩

theorem witness_OnlyTheseEvents_result :
    ∃ t, step (running 0x2) = .next t ∧ t.block.r ≠ (running 0x2).block.r :=
  ⟨_, rfl, fun h => nomatch congrArg (fun r => r.x.written) h⟩

theorem witness_OnlyTheseEvents_result_at_a_wait :
    ∃ t, step (busyWith (.host .wait)) = .next t ∧ t.block.r ≠ (busyWith (.host .wait)).block.r :=
  ⟨_, rfl, fun h => nomatch congrArg (fun r => r.x.written) h⟩

theorem witness_HostRegister_write_of_a_variable :
    (State.reset.withMoves [.host (.wr 0 (.var 2))]).host.moves = .host (.wr 0 (.var 2)) :: [] ∧
    (State.reset.withMoves [.host (.wr 0 (.var 2))]).block.status.busy = false := by decide

theorem witness_HostRegister_write :
    (State.reset.withMoves [.host (.wr 5 (.lit 3))]).host.moves = .host (.wr 5 (.lit 3)) :: [] ∧
    (State.reset.withMoves [.host (.wr 5 (.lit 3))]).block.status.busy = false ∧
    (busyWith (.host (.wr 5 (.lit 3)))).block.status.busy = true := by decide

theorem witness_HostRegister_read :
    ((loaded g g).withMoves [.host (.rd (some 0) 8)]).host.moves = .host (.rd (some 0) 8) :: [] ∧
    ((loaded g g).withMoves [.host (.rd (some 0) 8)]).block.status.busy = false ∧
    (busyWith (.host (.rd none 0))).block.status.busy = true := by decide

theorem witness_HostBucket_write :
    (State.reset.withMoves [.host (.wrb topEntry (.lit 1) (.lit 2) (.lit 3))]).host.moves =
      .host (.wrb topEntry (.lit 1) (.lit 2) (.lit 3)) :: [] ∧
    (State.reset.withMoves [.host (.wrb topEntry (.lit 1) (.lit 2) (.lit 3))]).block.status.busy = false := by decide

theorem witness_HostBucket_write_of_variables :
    (State.reset.withMoves [.host (.wrb zeroEntry (.var 0) (.var 1) (.var 2))]).host.moves =
      .host (.wrb zeroEntry (.var 0) (.var 1) (.var 2)) :: [] ∧ zeroEntry < Config.nbkt ∧ topEntry < Config.nbkt := by decide

theorem witness_HostBucket_no_entry :
    (State.reset.withMoves [.host (.rdb true 65536)]).host.moves = .host (.rdb true 65536) :: [] ∧
    (State.reset.withMoves [.host (.wrb 65536 (.lit 1) (.lit 2) (.lit 3))]).host.moves =
      .host (.wrb 65536 (.lit 1) (.lit 2) (.lit 3)) :: [] ∧ Config.nbkt ≤ 65536 := by decide

theorem witness_HostBucket_two_reads :
    (State.reset.withMoves [.host (.rdb true zeroEntry), .host (.rdb false zeroEntry)]).host.moves =
      .host (.rdb true zeroEntry) :: .host (.rdb false zeroEntry) :: [] ∧
    (State.reset.withMoves [.host (.rdb true zeroEntry), .host (.rdb false zeroEntry)]).block.status.busy = false ∧
    (busyWith (.host (.rdb true zeroEntry))).block.status.busy = true := by decide

theorem witness_Movp :
    (State.reset.withMoves (scriptMoves (expand (.movp .sideA)))).block.status.busy = false ∧
    (State.reset.withMoves (scriptMoves (expand (.movp .sideA)))).host.moves = scriptMoves (expand (.movp .sideA)) ++ [] ∧
    (State.reset.withMoves (scriptMoves (expand (.movp .sideB)))).host.moves = scriptMoves (expand (.movp .sideB)) ++ [] := by
  decide

theorem witness_StbAndLdb :
    (State.reset.withMoves (scriptMoves (expand (.stb 65535)))).block.status.busy = false ∧ 65535 < Config.nbkt ∧
    (State.reset.withMoves (scriptMoves (expand (.stb 65535)))).host.moves = scriptMoves (expand (.stb 65535)) ++ [] ∧
    (State.reset.withMoves (scriptMoves (expand (.ldb 0)))).host.moves = scriptMoves (expand (.ldb 0)) ++ [] := by
  decide

/-- Parameters other than this hardware's. -/
def smallBlock : Config.Params := ⟨4, ⟨0, 1, 0⟩⟩

theorem witness_Parameters_width :
    (presenting 0x405).host.moves = .host (.cmd (0x00000005 + 256 * BitVec.ofNat 32 4)) :: [] ∧ 4 ≤ smallBlock.wMax ∧
    (presenting 0x505).host.moves = .host (.cmd (0x00000005 + 256 * BitVec.ofNat 32 5)) :: [] ∧ smallBlock.wMax < 5 ∧
    (presenting 0x505).block.status.busy = false ∧ (presenting 0x505).block.status.err = false := by decide

theorem witness_Parameters_identity :
    ((loaded ⟨5, 7, 0⟩ g).withMoves [.host (.run 0x3)]).host.moves = .host (.run 0x00000003) :: [] ∧
    goodPoint ((loaded ⟨5, 7, 0⟩ g).withMoves [.host (.run 0x3)]).block.a ∧
    ((loaded ⟨5, 7, 0⟩ g).withMoves [.host (.run 0x3)]).block.a.z.val = 0 := by decide +kernel

theorem witness_DecodeOfEncode : Instr.wellFormed (.bred 16) = true ∧ decode 0x00001005 = .legal (.bred 16) := by decide

theorem witness_field_operands_at_the_top :
    Config.p - 1 < Config.p ∧ 0 < Config.p ∧ Config.p - 1 ≠ 0 := by decide

theorem witness_FieldLaws_zero_product :
    fmul 0 (Config.p - 1) = 0 ∧ 0 < Config.p ∧ Config.p - 1 < Config.p := by decide

theorem witness_Folding : 2 ^ 512 - 1 < 2 ^ 512 := by norm_num

theorem witness_Fmul_canonical :
    (loaded ⟨ofField (Config.p - 1), 0, 0⟩ ⟨0, 0, 0⟩).block.a.x.good ∧
    (loaded ⟨ofField (Config.p - 1), 0, 0⟩ ⟨0, 0, 0⟩).block.b.x.good := by decide +kernel

theorem witness_Fmul_not_canonical : (loaded ⟨pWord, 0, 0⟩ ⟨0, 0, 0⟩).block.a.x.bad = true := by decide +kernel

theorem witness_Fmul_never_written : operandsAllowed .fmul onlyA0 ∧ onlyA0.block.b.x.seen = none :=
  ⟨witness_Unwritten_fmul_and_fred.1, rfl⟩

theorem witness_Fred_written :
    (loaded ⟨BitVec.allOnes 256, BitVec.allOnes 256, 0⟩ g).block.a.x.written = true ∧
    (loaded ⟨BitVec.allOnes 256, BitVec.allOnes 256, 0⟩ g).block.a.y.written = true := by decide

/-- Vectors D10 and F3: (p - 1)^2. -/
theorem witness_Fred_of_the_exact_product :
    let s := loaded ⟨ofField (Config.p - 1), 0, 0⟩ ⟨ofField (Config.p - 1), 0, 0⟩
    let u := loaded ⟨0x1000007A4000E9844, 0xFFFFFFFFFFFFFFFFFFFFFFFFFFFFFFFFFFFFFFFFFFFFFFFFFFFFFFFDFFFFF85C, 0⟩ g
    s.block.a.x.good ∧ s.block.b.x.good ∧ u.block.a.x.written = true ∧ u.block.a.y.written = true ∧
    u.block.a.y.val.toNat * 2 ^ 256 + u.block.a.x.val.toNat = s.block.a.x.val.toNat * s.block.b.x.val.toNat := by
  decide +kernel

theorem witness_Pdbl_identity :
    goodPoint (loaded ⟨5, 7, 0⟩ g).block.a ∧ (loaded ⟨5, 7, 0⟩ g).block.a.z.val = 0 := by decide +kernel

theorem witness_Pdbl_zero_y :
    goodPoint (loaded ⟨5, 0, 1⟩ g).block.a ∧ (loaded ⟨5, 0, 1⟩ g).block.a.y.val = 0 := by decide +kernel

theorem witness_Pdbl_general :
    goodPoint (loaded g g).block.a ∧ (loaded g g).block.a.z.val ≠ 0 ∧ (loaded g g).block.a.y.val ≠ 0 := by decide +kernel

theorem witness_Pdbl_not_canonical : ∃ r ∈ tripleRegs (loaded ⟨1, 2, pWord⟩ g).block.a, r.bad = true := by decide +kernel

theorem witness_Padd_first_identity :
    goodPoint (loaded ⟨2, 3, 0⟩ ⟨5, 7, 0⟩).block.a ∧ goodPoint (loaded ⟨2, 3, 0⟩ ⟨5, 7, 0⟩).block.b ∧
    (loaded ⟨2, 3, 0⟩ ⟨5, 7, 0⟩).block.a.z.val = 0 := by decide +kernel

theorem witness_Padd_second_identity :
    goodPoint (loaded g ⟨5, 7, 0⟩).block.a ∧ goodPoint (loaded g ⟨5, 7, 0⟩).block.b ∧
    (loaded g ⟨5, 7, 0⟩).block.a.z.val ≠ 0 ∧ (loaded g ⟨5, 7, 0⟩).block.b.z.val = 0 := by decide +kernel

theorem witness_Padd_inverse :
    goodPoint (loaded ⟨1, 2, 3⟩ ⟨4, 5, 6⟩).block.a ∧ goodPoint (loaded ⟨1, 2, 3⟩ ⟨4, 5, 6⟩).block.b ∧
    (((4 : Nat) : ZMod Config.p) * ((3 : Nat) : ZMod Config.p) ^ 2 -
      ((1 : Nat) : ZMod Config.p) * ((6 : Nat) : ZMod Config.p) ^ 2 = 0) ∧
    (((5 : Nat) : ZMod Config.p) * ((3 : Nat) : ZMod Config.p) ^ 3 -
      ((2 : Nat) : ZMod Config.p) * ((6 : Nat) : ZMod Config.p) ^ 3 ≠ 0) := by
  refine ⟨by decide +kernel, by decide +kernel, by norm_num, fun h => ?_⟩
  have h' : ((135 : Nat) : ZMod Config.p) = ((432 : Nat) : ZMod Config.p) := by
    linear_combination h
  exact absurd (eq_of_cast_eq (by decide) (by decide) h') (by decide)

theorem witness_Padd_equal :
    goodPoint (loaded g g).block.a ∧ goodPoint (loaded g g).block.b ∧ (loaded g g).block.a.z.val ≠ 0 ∧
    (((gx.toNat : ZMod Config.p) * ((1 : Nat) : ZMod Config.p) ^ 2 -
      (gx.toNat : ZMod Config.p) * ((1 : Nat) : ZMod Config.p) ^ 2 = 0)) ∧
    (((gy.toNat : ZMod Config.p) * ((1 : Nat) : ZMod Config.p) ^ 3 -
      (gy.toNat : ZMod Config.p) * ((1 : Nat) : ZMod Config.p) ^ 3 = 0)) :=
  ⟨by decide +kernel, by decide +kernel, by decide +kernel, sub_self _, sub_self _⟩

theorem witness_Padd_general :
    goodPoint (loaded ⟨1, 2, 1⟩ ⟨4, 5, 1⟩).block.a ∧ goodPoint (loaded ⟨1, 2, 1⟩ ⟨4, 5, 1⟩).block.b ∧
    (((4 : Nat) : ZMod Config.p) * ((1 : Nat) : ZMod Config.p) ^ 2 -
      ((1 : Nat) : ZMod Config.p) * ((1 : Nat) : ZMod Config.p) ^ 2 ≠ 0) := by
  refine ⟨by decide +kernel, by decide +kernel, fun h => ?_⟩
  have h' : ((4 : Nat) : ZMod Config.p) = ((1 : Nat) : ZMod Config.p) := by
    linear_combination h
  exact absurd (eq_of_cast_eq (by decide) (by decide) h') (by decide)

theorem witness_Padd_not_canonical :
    ∃ r ∈ tripleRegs (loaded g ⟨1, pWord, 1⟩).block.a ++ tripleRegs (loaded g ⟨1, pWord, 1⟩).block.b, r.bad = true := by
  decide +kernel

theorem witness_SwappedOperands :
    canonicalPoint (j2.map toField) ∧ canonicalPoint (g.map toField) ∧ (j2.map toField).z ≠ 0 ∧ (g.map toField).z ≠ 0 ∧
    normX (j2.map toField) (g.map toField) ≠ normX (g.map toField) (j2.map toField) ∧
    (jadd Config.idJac (j2.map toField) (g.map toField)).y ≠ 0 := by decide +kernel

theorem witness_SamePoint :
    canonicalPoint (g.map toField) ∧ (g.map toField).z ≠ 0 ∧ 0 < Config.p - 1 ∧ Config.p - 1 < Config.p ∧
    (g.map toField).y ≠ 0 := by decide +kernel

theorem witness_DoublingRefines : canonicalPoint (j2.map toField) := by decide +kernel

theorem witness_AdditionRefines :
    canonicalPoint (j2.map toField) ∧ canonicalPoint (g.map toField) ∧ onCurveJacobian (j2.map toField) ∧
    onCurveJacobian (g.map toField) := by decide +kernel

/-- The affine pair (1, 1), off the curve. -/
def oneElement : FieldElement := ⟨1, by decide⟩

theorem witness_MixedAddition_identity : canonicalPoint ⟨5, 7, 0⟩ := by decide +kernel

theorem witness_MixedAddition_inverse :
    canonicalPoint ⟨4, 1, 2⟩ ∧ (4 : Nat) = fmul oneElement.val (fsqr 2) ∧
    (1 : Nat) ≠ fmul oneElement.val (fmul 2 (fsqr 2)) := by decide +kernel

theorem witness_MixedAddition_equal :
    canonicalPoint ⟨4, 8, 2⟩ ∧ (4 : Nat) = fmul oneElement.val (fsqr 2) ∧
    (8 : Nat) = fmul oneElement.val (fmul 2 (fsqr 2)) := by decide +kernel

theorem witness_MixedAddition_general :
    canonicalPoint ⟨5, 8, 2⟩ ∧ (5 : Nat) ≠ fmul oneElement.val (fsqr 2) := by decide +kernel

theorem witness_OnCurve_pdbl :
    ∃ t, goodPoint (loaded j2 g).block.a ∧ onCurveJacobian (pointOf (loaded j2 g).block.a) ∧
      exec .pdbl (loaded j2 g) = .next t :=
  ⟨_, by decide +kernel, by decide +kernel, rfl⟩

theorem witness_OnCurve_padd :
    ∃ t, goodPoint (loaded j2 g).block.a ∧ goodPoint (loaded j2 g).block.b ∧
      onCurveJacobian (pointOf (loaded j2 g).block.a) ∧ onCurveJacobian (pointOf (loaded j2 g).block.b) ∧
      exec .padd (loaded j2 g) = .next t :=
  ⟨_, by decide +kernel, by decide +kernel, by decide +kernel, by decide +kernel, rfl⟩

/-- The entries of vector B1. -/
def bktB1 : Memory := [(1, g), (2, ⟨0, 0, 0⟩), (3, twoG)]

theorem goodBuckets_B1 : goodBuckets bktB1 3 := by
  intro b h1 h2
  interval_cases b
  · exact ⟨g, rfl, by decide +kernel⟩
  · exact ⟨⟨0, 0, 0⟩, rfl, by decide +kernel⟩
  · exact ⟨twoG, rfl, by decide +kernel⟩

theorem witness_OnCurve_bred :
    ∃ t, widthOk 2 = true ∧ goodBuckets (filled bktB1).block.bkt (lastBucket 2) ∧
      (∀ b, 1 ≤ b → b ≤ lastBucket 2 → onCurveJacobian (bucketPoint (filled bktB1).block.bkt b)) ∧
      exec (.bred 2) (filled bktB1) = .next t := by
  refine ⟨_, rfl, goodBuckets_B1, ?_, rfl⟩
  intro b h1 h2
  change b ≤ 3 at h2
  interval_cases b <;> decide +kernel

theorem witness_Bred_written : 1 ≤ 2 ∧ 2 ≤ 16 ∧ goodBuckets (filled bktB1).block.bkt (2 ^ 2 - 1) :=
  ⟨by decide, by decide, goodBuckets_B1⟩

theorem witness_Bred_not_canonical :
    ∃ b e, 1 ≤ b ∧ b ≤ 2 ^ 16 - 1 ∧ (filled [(65535, ⟨0, 0, pWord⟩)]).block.bkt.read b = some e ∧
      canonicalEntry e = false :=
  ⟨65535, _, by decide, by decide, rfl, by decide +kernel⟩

theorem witness_Bred_illegal_width : (0 = 0 ∨ 16 < 0) ∧ 0 < 32 ∧ (17 = 0 ∨ 16 < 17) ∧ 17 < 32 := by decide

theorem witness_BredOfEmptyBuckets :
    goodBuckets (filled [(1, ⟨9, 9, 0⟩), (2, ⟨0, 0, 0⟩), (3, ⟨0, 0, 0⟩)]).block.bkt (2 ^ 2 - 1) ∧
    (filled [(1, ⟨9, 9, 0⟩), (2, ⟨0, 0, 0⟩), (3, ⟨0, 0, 0⟩)]).block.bkt.read 1 = some ⟨9, 9, 0⟩ ∧
    ∀ b, 1 ≤ b → b ≤ 2 ^ 2 - 1 →
      (bucketPoint (filled [(1, ⟨9, 9, 0⟩), (2, ⟨0, 0, 0⟩), (3, ⟨0, 0, 0⟩)]).block.bkt b).z = 0 := by
  refine ⟨?_, rfl, ?_⟩ <;> intro b h1 h2 <;> norm_num at h2
  · interval_cases b <;> exact ⟨_, rfl, by decide +kernel⟩
  · interval_cases b <;> rfl

theorem witness_BredOfOneBucket : goodBuckets (filled [(1, g)]).block.bkt (2 ^ 1 - 1) ∧
    (filled [(1, g)]).block.bkt.read 1 = some g := by
  refine ⟨?_, rfl⟩
  intro b h1 h2
  norm_num at h2
  interval_cases b
  exact ⟨g, rfl, by decide +kernel⟩

theorem witness_CommandsReadAndWrite :
    ∃ t, Instr.wellFormed .fmul = true ∧ readsAgree .fmul (loaded g twoG) (loaded ⟨gx, 0, 0⟩ ⟨twoG.x, 0, 0⟩) ∧
      (loaded g twoG).draws = (loaded ⟨gx, 0, 0⟩ ⟨twoG.x, 0, 0⟩).draws ∧ exec .fmul (loaded g twoG) = .next t :=
  ⟨_, rfl, ⟨rfl, rfl⟩, rfl, rfl⟩

/-- A triple of order 2 for `jadd`, off the curve: with it and the identity, `jadd` is addition modulo 2. -/
def orderTwo : Triple Nat := ⟨5, 0, 1⟩

theorem witness_RunningSum :
    let value : Triple Nat → ZMod 2 := fun P => if P = orderTwo then 1 else 0
    let ok : Triple Nat → Prop := fun P => P = orderTwo ∨ P = Config.idJac
    (∀ P Q, ok P → ok Q → ok (jadd Config.idJac P Q) ∧ value (jadd Config.idJac P Q) = value P + value Q) ∧
    ok Config.idJac ∧ value Config.idJac = 0 ∧ ∀ b, 1 ≤ b → b ≤ 3 → ok ((fun _ => orderTwo) b) := by
  refine ⟨?_, .inr rfl, by decide, fun _ _ _ => .inl rfl⟩
  rintro P Q (rfl | rfl) (rfl | rfl) <;> decide +kernel

theorem witness_RunningSumAgrees :
    ∀ b, 1 ≤ b → b ≤ 3 → canonicalPoint (bucketPoint bktB1 b) ∧ onCurveJacobian (bucketPoint bktB1 b) := by
  intro b h1 h2
  interval_cases b <;> decide +kernel

theorem witness_FieldInverse : Config.p - 1 < Config.p ∧ Config.p - 1 ≠ 0 := by decide

theorem witness_Windows : 1 ≤ 16 := by decide

theorem witness_ZeroScalar : onCurve affineG = true := by decide +kernel

theorem witness_BuildBuckets :
    1 ≤ 2 ∧ 2 ≤ 16 ∧ (∀ b ∈ [1, 3, 0, 1], b < 2 ^ 2) ∧ State.reset.block.status.busy = false ∧
    State.reset.block.status.err = false := by decide

theorem witness_EngineOnTheBlock :
    State.reset.block.status.busy = false ∧ State.reset.block.status.err = false ∧
    [5, 3].length = [affineG, affine2G].length ∧ (∀ P ∈ [affineG, affine2G], onCurve P = true) ∧ 1 ≤ 16 ∧ (17 = 0 ∨ 16 < 17) := by
  decide +kernel

end Sys2Proof.Tests
end

/-! PROOFS. The machine at any parameters (rule R6): the words it decodes, the transactions it answers, and the doubling of an
identity. -/

namespace Sys2Proof.Machine

/-- A written register is seen as its value. -/
@[simp] theorem Reg.seen_of (v : Word) : (Reg.of v).seen = some v := rfl

@[simp] theorem Triple_map_map {α β γ : Type} (g : β → γ) (f : α → β) (t : Triple α) :
    (t.map f).map g = t.map fun a => g (f a) := rfl

/-- The layout of a `BRED` word (rule R45): opcode 5, the width from bit 8 on, nothing carried out of the word. -/
theorem bredWord_toNat {w : Nat} (hw : w < 32) :
    (0x00000005 + 256 * BitVec.ofNat 32 w : CmdWord).toNat = 5 + 256 * w := by
  have hmul : (256 * BitVec.ofNat 32 w : CmdWord).toNat = 256 * w := by
    rw [BitVec.toNat_mul, BitVec.toNat_ofNat, Nat.mod_eq_of_lt (by omega : w < 2 ^ 32)]
    exact Nat.mod_eq_of_lt (show 256 * w < 2 ^ 32 by omega)
  rw [BitVec.toNat_add, hmul]
  exact Nat.mod_eq_of_lt (show 5 + 256 * w < 2 ^ 32 by omega)

/-- The fields of a `BRED` word (rule R45). -/
theorem bredWord_fields {w : Nat} (hw : w < 32) :
    opField (0x00000005 + 256 * BitVec.ofNat 32 w) = 5 ∧ rsv0Field (0x00000005 + 256 * BitVec.ofNat 32 w) = 0 ∧
    wField (0x00000005 + 256 * BitVec.ofNat 32 w) = w ∧ rsv1Field (0x00000005 + 256 * BitVec.ofNat 32 w) = 0 := by
  simp only [opField, rsv0Field, wField, rsv1Field, bits, bredWord_toNat hw]
  omega

/-- Rule R48 for opcode 5 with the reserved bits 0: the width alone decides. -/
theorem decodeWith_of_bred_fields (wMax : Nat) {c : CmdWord} (hop : opField c = 5) (hrsv0 : rsv0Field c = 0)
    (hrsv1 : rsv1Field c = 0) :
    decodeWith wMax c =
      if wField c = 0 ∨ wMax < wField c then .illegal .badW else .legal (.bred (wField c)) := by
  simp [decodeWith, hop, hrsv0, hrsv1]

/-- A `BRED` word whose width is not 0 is a command exactly up to the largest width (rule R48). -/
theorem decodeWith_bredWord (wMax : Nat) {w : Nat} (h1 : 1 ≤ w) (hw : w < 32) :
    decodeWith wMax (0x00000005 + 256 * BitVec.ofNat 32 w) =
      if wMax < w then .illegal .badW else .legal (.bred w) := by
  obtain ⟨hop, hrsv0, hwidth, hrsv1⟩ := bredWord_fields hw
  rw [decodeWith_of_bred_fields wMax hop hrsv0 hrsv1, hwidth]
  simp [Nat.one_le_iff_ne_zero.mp h1]

/-- The `PDBL` word does not depend on the largest width. -/
theorem decodeWith_pdblWord (wMax : Nat) : decodeWith wMax 0x00000003 = .legal .pdbl := rfl

/-- The step of the machine with parameters, by the host's next statement. -/
theorem stepWith_host (c : Config.Params) (s : State) (st : Stmt) (rest : List Move)
    (h : s.host.moves = .host st :: rest) :
    stepWith c s = hostStatement c (execWith c) st (s.withMoves rest) := by
  simp [stepWith, takeMove, h]

section Presentation

variable {c : Config.Params} {word : CmdWord} {s : State}

/-- A legal word that an unhalted block is presented with starts (rule R49). -/
theorem presentWord_legal {i : Instr} (start : Instr → Answer) (he : s.block.status.err = false)
    (hd : decodeWith c.wMax word = .legal i) : presentWord c word s start = start i := by
  simp [presentWord, he, hd]

/-- An illegal word that an unhalted block is presented with takes the exception (rule R121). -/
theorem presentWord_illegal {code : ErrCode} (start : Instr → Answer) (he : s.block.status.err = false)
    (hd : decodeWith c.wMax word = .illegal code) :
    presentWord c word s start = .next (s.raiseIllegalCommand code) := by
  simp [presentWord, he, hd]

theorem hostCommand_legal {i : Instr} (hb : s.block.status.busy = false) (he : s.block.status.err = false)
    (hd : decodeWith c.wMax word = .legal i) : hostCommand c word s = .next (s.accept i) := by
  rw [hostCommand, s.whenIdle_idle _ hb, presentWord_legal _ he hd]

theorem hostCommand_illegal {code : ErrCode} (hb : s.block.status.busy = false) (he : s.block.status.err = false)
    (hd : decodeWith c.wMax word = .illegal code) : hostCommand c word s = .next (s.raiseIllegalCommand code) := by
  rw [hostCommand, s.whenIdle_idle _ hb, presentWord_illegal _ he hd]

theorem hostRun_legal {i : Instr} (run : Meaning) (hb : s.block.status.busy = false)
    (he : s.block.status.err = false) (hd : decodeWith c.wMax word = .legal i) :
    hostRun c run word s = run i s := by
  rw [hostRun, s.whenIdle_idle _ hb, presentWord_legal _ he hd]

end Presentation

/-- On an idle block a bucket read answers exactly for an index of the bucket memory (rule R33). -/
theorem hostReadBkt_answers_iff (c : Config.Params) (k : Bool) (b : Nat) {s : State}
    (hb : s.block.status.busy = false) : (∃ t, hostReadBkt c k b s = .next t) ↔ b < c.nbkt := by
  constructor
  · rintro ⟨t, ht⟩
    obtain ⟨-, hlt, -⟩ := hostReadBkt_next ht
    exact hlt
  · intro hlt
    exact ⟨_, (s.whenIdle_next_iff _ _).mpr ⟨hb, (whenEntry_next_iff c b _ _).mpr ⟨hlt, rfl⟩⟩⟩

/-- A well-formed point operand is a specified one (rules R22 and R23). -/
theorem fieldStatus_of_goodPoint {t : Triple Reg} (h : goodPoint t) : fieldStatus (tripleRegs t) = .specified := by
  obtain ⟨hx, hy, hz⟩ := h
  rw [fieldStatus_specified_iff]
  simp [tripleRegs, hx, hy, hz]

theorem jdbl_of_z_eq_zero (idJac : Triple Nat) {P : Triple Nat} (h : P.z = 0) : jdbl idJac P = idJac :=
  if_pos (.inl h)

/-- Doubling a well-formed identity writes the block's own `ID_JAC` (rules R6, R75 and R76). -/
theorem pdblWith_identity (c : Config.Params) {s : State} (hgood : goodPoint s.block.a)
    (hz : s.block.a.z.val = 0) : pdblWith c s = .next (s.completePoint (c.idJac.map ofField)) := by
  have hid : (pointOf s.block.a).z = 0 := by simp [pointOf, toField, hz]
  rw [pdblWith, fieldStatus_of_goodPoint hgood, jdbl_of_z_eq_zero _ hid, State.runPoint]

/-- Rule R6's values for this hardware, and the machine with parameters at them. -/
theorem stepWith_at_this_hardware :
    Config.params.wMax = 16 ∧ Config.params.nbkt = 65536 ∧ Config.params.idJac = ⟨1, 1, 0⟩ ∧
      ∀ s, stepWith Config.params s = step s :=
  ⟨rfl, by decide, rfl, stepWith_params⟩

section AnyParameters

variable (c : Config.Params) {s : State} {rest : List Move}

/-- `CMD` of a `BRED` word with a width up to `W_MAX` starts that `BRED`. -/
theorem stepWith_bred_accepted {w : Nat} (hb : s.block.status.busy = false) (he : s.block.status.err = false)
    (hm : s.host.moves = .host (.cmd (0x00000005 + 256 * BitVec.ofNat 32 w)) :: rest)
    (h1 : 1 ≤ w) (h32 : w < 32) (hw : w ≤ c.wMax) : stepWith c s = .next ((s.withMoves rest).accept (.bred w)) := by
  have hd := decodeWith_bredWord c.wMax h1 h32
  rw [if_neg (Nat.not_lt.mpr hw)] at hd
  rw [stepWith_host c s _ rest hm]
  exact hostCommand_legal (s := s.withMoves rest) hb he hd

/-- `CMD` of a `BRED` word with a width above `W_MAX` takes `IllegalCommand(BAD_W)`. -/
theorem stepWith_bred_raises {w : Nat} (hb : s.block.status.busy = false) (he : s.block.status.err = false)
    (hm : s.host.moves = .host (.cmd (0x00000005 + 256 * BitVec.ofNat 32 w)) :: rest)
    (h1 : 1 ≤ w) (h32 : w < 32) (hw : c.wMax < w) :
    stepWith c s = .next ((s.withMoves rest).raiseIllegalCommand .badW) := by
  have hd := decodeWith_bredWord c.wMax h1 h32
  rw [if_pos hw] at hd
  rw [stepWith_host c s _ rest hm]
  exact hostCommand_illegal (s := s.withMoves rest) hb he hd

/-- `RUN` of the `PDBL` word over an identity completes with `ID_JAC`. -/
theorem stepWith_pdbl_identity (hb : s.block.status.busy = false) (he : s.block.status.err = false)
    (hm : s.host.moves = .host (.run 0x00000003) :: rest) (hgood : goodPoint s.block.a)
    (hz : s.block.a.z.val = 0) :
    stepWith c s = .next ((s.withMoves rest).completePoint (c.idJac.map ofField)) := by
  rw [stepWith_host c s _ rest hm]
  exact (hostRun_legal (s := s.withMoves rest) (execWith c) hb he (decodeWith_pdblWord c.wMax)).trans
    (pdblWith_identity (s := s.withMoves rest) c hgood hz)

end AnyParameters

/-- Settles O22: each clause is one step on the host's next statement, at parameters left free. -/
theorem parametersAreArgumentsOfTheMachine : Obligations.ParametersAreArgumentsOfTheMachine := by
  refine ⟨stepWith_at_this_hardware, fun c s rest hb he => ⟨fun w hm h1 h32 => ⟨fun hw => ?_, fun hw => ?_⟩,
    fun k b hm => ?_, fun hm hgood hz => ?_⟩⟩
  · exact ⟨_, stepWith_bred_accepted c hb he hm h1 h32 hw, rfl⟩
  · exact ⟨_, stepWith_bred_raises c hb he hm h1 h32 hw, rfl, rfl⟩
  · rw [stepWith_host c s _ rest hm]
    exact hostReadBkt_answers_iff (s := s.withMoves rest) c k b hb
  · exact ⟨_, stepWith_pdbl_identity c hb he hm hgood hz, by simp⟩

end Sys2Proof.Machine

/-! PROOFS. The state of the block (10_state.md): what a command completes with, what one step can do, the invariant of the
block, the table of `STATUS`, and the host's transactions on the registers. -/

namespace Sys2Proof.Machine

/-! ### Registers and the integers they hold -/

theorem canonical_iff (v : Word) : canonical v = true ↔ v.toNat < Config.p := decide_eq_true_iff

/-- What a reader sees of a register decides whether it is written. -/
theorem Reg.written_eq_isSome_seen (r : Reg) : r.written = r.seen.isSome := by
  cases h : r.written <;> simp [Reg.seen, h]

/-- What a reader sees of a register decides whether it is a written one of `p` or more (rule R23). -/
theorem Reg.bad_eq_any_seen (r : Reg) : r.bad = r.seen.any fun v => !canonical v := by
  cases h : r.written <;> simp [Reg.bad, Reg.seen, h]

theorem Reg.val_eq_of_seen_eq {r r' : Reg} (hw : r.written = true) (h : r.seen = r'.seen) : r.val = r'.val := by
  have hw' : r'.written = true := by rw [Reg.written_eq_isSome_seen, ← h, ← Reg.written_eq_isSome_seen, hw]
  simpa [Reg.seen, hw, hw'] using h

theorem Reg.canonicalResult_of {v : Word} (h : canonical v = true) : (Reg.of v).canonicalResult := fun _ => h

theorem canonicalPoint_pointOf {t : Triple Reg} (h : goodPoint t) : canonicalPoint (pointOf t) := by
  obtain ⟨⟨-, hx⟩, ⟨-, hy⟩, -, hz⟩ := h
  exact ⟨(canonical_iff _).mp hx, (canonical_iff _).mp hy, (canonical_iff _).mp hz⟩

theorem canonicalEntry_iff (e : Triple Word) : canonicalEntry e = true ↔ canonicalPoint (e.map toField) := by
  simp [canonicalEntry, canonical_iff, canonicalPoint, toField, and_assoc]

theorem canonicalEntry_map_ofField {P : Triple Nat} (h : canonicalPoint P) : canonicalEntry (P.map ofField) = true := by
  obtain ⟨hx, hy, hz⟩ := h
  simp [canonicalEntry, canonical_ofField hx, canonical_ofField hy, canonical_ofField hz]

/-! ### Point arithmetic keeps coordinates below `p` (rules R75, R77 and R91) -/

theorem canonicalPoint_idJac : canonicalPoint Config.idJac := by decide

theorem canonicalPoint_jdbl (P : Triple Nat) : canonicalPoint (jdbl Config.idJac P) := by
  rcases jdbl_cases Config.idJac P with ⟨h, -⟩ | ⟨h, -⟩ <;> rw [h]
  · exact canonicalPoint_idJac
  · exact ⟨fsub_lt _ _, fsub_lt _ _, fdbl_lt _⟩

theorem canonicalPoint_jadd {P Q : Triple Nat} (hP : canonicalPoint P) (hQ : canonicalPoint Q) :
    canonicalPoint (jadd Config.idJac P Q) := by
  rcases jadd_cases Config.idJac P Q with ⟨h, -⟩ | ⟨h, -⟩ | ⟨h, -⟩ | ⟨h, -⟩ | ⟨h, -⟩ <;> rw [h]
  · exact hQ
  · exact hP
  · exact canonicalPoint_idJac
  · exact canonicalPoint_jdbl P
  · exact ⟨fsub_lt _ _, fsub_lt _ _, fmul_lt _ _⟩

theorem canonicalPoint_bucketReduce {bucket : Nat → Triple Nat} {n : Nat}
    (hb : ∀ b, 1 ≤ b → b ≤ n → canonicalPoint (bucket b)) :
    canonicalPoint (bucketReduce (jadd Config.idJac) Config.idJac bucket n) :=
  (runningScan_keeps (jadd Config.idJac) bucket canonicalPoint (fun _ _ => canonicalPoint_jadd) n hb _
    canonicalPoint_idJac canonicalPoint_idJac).2

theorem canonicalPoint_bucketPoint {m : Memory} {b : Nat} {e : Triple Word} (hr : m.read b = some e)
    (he : canonicalEntry e = true) : canonicalPoint (bucketPoint m b) := by
  rw [bucketPoint, hr]
  exact (canonicalEntry_iff e).mp he

/-! ### What a command completes with -/

/-- `t` is `s` after a field command completed with some canonical word (rules R11 and R23). -/
def State.CompletesWord (s t : State) : Prop :=
  ∃ v n, canonical v = true ∧ t = (s.completeWord v).drawn n

/-- `t` is `s` after a point command or a reduction completed with some canonical triple (rules R11 and R23). -/
def State.CompletesPoint (s t : State) : Prop :=
  ∃ e n, canonicalEntry e = true ∧ t = (s.completePoint e).drawn n

section Completions

variable {s t : State}

theorem State.CompletesWord.fieldFrame (h : s.CompletesWord t) : fieldFrame s t := by
  obtain ⟨v, n, -, rfl⟩ := h
  exact ⟨⟨rfl, rfl, fun _ => rfl, rfl, rfl⟩, rfl, rfl, rfl, rfl, rfl, rfl, rfl⟩

theorem State.CompletesWord.result (h : s.CompletesWord t) : ∃ v, t.block.r.x.seen = some v ∧ canonical v = true := by
  obtain ⟨v, n, hv, rfl⟩ := h
  exact ⟨v, rfl, hv⟩

theorem State.CompletesPoint.pointFrame (h : s.CompletesPoint t) : pointFrame s t := by
  obtain ⟨e, n, -, rfl⟩ := h
  exact ⟨⟨rfl, rfl, fun _ => rfl, rfl, rfl⟩, rfl, rfl, rfl, rfl, rfl⟩

theorem State.CompletesPoint.result (h : s.CompletesPoint t) : goodPoint t.block.r := by
  obtain ⟨e, n, he, rfl⟩ := h
  rw [canonicalEntry, Bool.and_eq_true, Bool.and_eq_true] at he
  obtain ⟨⟨hx, hy⟩, hz⟩ := he
  exact ⟨⟨rfl, hx⟩, ⟨rfl, hy⟩, rfl, hz⟩

theorem State.runWord_completesWord {st : OperandStatus} {v : Nat} (hv : v < Config.p)
    (h : s.runWord st v = .next t) : s.CompletesWord t := by
  rcases s.runWord_cases st v with ⟨-, h'⟩ | ⟨-, h'⟩ | ⟨-, h'⟩ <;> rw [h'] at h <;> cases h
  · exact ⟨_, 0, canonical_ofField hv, rfl⟩
  · exact ⟨_, 1, canonical_freeElement _, rfl⟩

/-- The formulas matter only where the operands are specified: elsewhere the words are free ones (rule R22). -/
theorem State.runPoint_completesPoint {st : OperandStatus} {P : Triple Nat}
    (hP : st = .specified → canonicalPoint P) (h : s.runPoint st P = .next t) : s.CompletesPoint t := by
  rcases s.runPoint_cases st P with ⟨hst, h'⟩ | ⟨-, h'⟩ | ⟨-, h'⟩ <;> rw [h'] at h <;> cases h
  · exact ⟨_, 0, canonicalEntry_map_ofField (hP hst), rfl⟩
  · exact ⟨_, 3, by simp [canonicalEntry, canonical_freeElement], rfl⟩

/-- A point operand the check calls specified is a well-formed one (rules R22, R23 and R74). -/
theorem goodPoint_of_specified {a : Triple Reg} {rs : List Reg} (hsub : ∀ r ∈ tripleRegs a, r ∈ rs)
    (h : fieldStatus rs = .specified) : goodPoint a := by
  have hall := (fieldStatus_specified_iff rs).mp h
  exact ⟨hall _ (hsub _ (by simp [tripleRegs])), hall _ (hsub _ (by simp [tripleRegs])),
    hall _ (hsub _ (by simp [tripleRegs]))⟩

theorem exec_fmul_completesWord (h : exec .fmul s = .next t) : s.CompletesWord t :=
  State.runWord_completesWord (fmul_lt _ _) h

theorem exec_fred_completesWord (h : exec .fred s = .next t) : s.CompletesWord t :=
  State.runWord_completesWord (fred_lt _) h

theorem exec_pdbl_completesPoint (h : exec .pdbl s = .next t) : s.CompletesPoint t :=
  State.runPoint_completesPoint (fun _ => canonicalPoint_jdbl _) h

theorem exec_padd_completesPoint (h : exec .padd s = .next t) : s.CompletesPoint t := by
  refine State.runPoint_completesPoint (fun hst => canonicalPoint_jadd ?_ ?_) h
  · exact canonicalPoint_pointOf (goodPoint_of_specified (fun _ => List.mem_append_left _) hst)
  · exact canonicalPoint_pointOf (goodPoint_of_specified (fun _ => List.mem_append_right _) hst)

/-- The meaning of a `BRED` with a legal width (rule R91). -/
theorem exec_bred_eq {w : Nat} (hw : widthOk w = true) (s : State) :
    exec (.bred w) s = s.runPoint (bucketStatus s.block.bkt (lastBucket w))
      (bucketReduce (jadd Config.idJac) Config.idJac (bucketPoint s.block.bkt) (lastBucket w)) :=
  (execBred_eq w s).trans (if_pos hw)

theorem exec_bred_completesPoint {w : Nat} (hw : widthOk w = true) (h : exec (.bred w) s = .next t) :
    s.CompletesPoint t := by
  rw [exec_bred_eq hw] at h
  refine State.runPoint_completesPoint (fun hst => canonicalPoint_bucketReduce fun b h1 h2 => ?_) h
  obtain ⟨e, hr, he⟩ := (bucketStatus_specified_iff _ _).mp hst b h1 h2
  exact canonicalPoint_bucketPoint hr he

/-- A command that is one completes with a canonical word or a canonical triple (rule R23). -/
theorem exec_completes_canonical {i : Instr} (hi : i.wellFormed = true) (h : exec i s = .next t) :
    s.CompletesWord t ∨ s.CompletesPoint t := by
  cases i with
  | fmul => exact .inl (exec_fmul_completesWord h)
  | fred => exact .inl (exec_fred_completesWord h)
  | pdbl => exact .inr (exec_pdbl_completesPoint h)
  | padd => exact .inr (exec_padd_completesPoint h)
  | bred w => exact .inr (exec_bred_completesPoint hi h)

/-- Every command has the frame of a point command; a field command leaves R1 and R2 as well (rule R11). -/
theorem exec_pointFrame {i : Instr} (hi : i.wellFormed = true) (h : exec i s = .next t) : pointFrame s t := by
  rcases exec_completes_canonical hi h with hw | hp
  · obtain ⟨hin, -, -, hst⟩ := hw.fieldFrame
    exact ⟨hin, hst⟩
  · exact hp.pointFrame

/-- A completion writes exactly `BUSY` and `DONE` of `STATUS` (rule R16). -/
theorem exec_status {i : Instr} (hi : i.wellFormed = true) (h : exec i s = .next t) :
    t.block.status = s.block.status.completed := by
  rcases exec_next h with ⟨-, q, n, rfl⟩ | ⟨hill, -⟩
  · rfl
  · rw [hi] at hill
    cases hill

/-- No command, legal or not, changes an operand register or the bucket memory (rules R11 and R34). -/
theorem exec_inputs {i : Instr} (h : exec i s = .next t) :
    t.block.a = s.block.a ∧ t.block.b = s.block.b ∧ t.block.bkt = s.block.bkt := by
  rcases exec_next h with ⟨-, q, n, rfl⟩ | ⟨-, rfl⟩ <;> exact ⟨rfl, rfl, rfl⟩

/-- No command clears `ERR` (rules R16 and R123). -/
theorem exec_keeps_err {i : Instr} (h : exec i s = .next t) (he : s.block.status.err = true) :
    t.block.status.err = true := by
  rcases exec_next h with ⟨-, q, n, rfl⟩ | ⟨-, rfl⟩
  · exact he
  · rfl

end Completions

/-! ### When a command completes -/

theorem fieldStatus_ne_nonCanonical {rs : List Reg} (h : ∀ r ∈ rs, r.canonicalResult) :
    fieldStatus rs ≠ .nonCanonical := by
  rw [Ne, fieldStatus_nonCanonical_iff]
  rintro ⟨r, hr, hw, hbad⟩
  rw [h r hr hw] at hbad
  cases hbad

theorem bucketStatus_ne_nonCanonical {m : Memory} {n : Nat}
    (h : ∀ b e, 1 ≤ b → b ≤ n → m.read b = some e → canonicalEntry e = true) : bucketStatus m n ≠ .nonCanonical := by
  rw [Ne, bucketStatus_nonCanonical_iff]
  rintro ⟨b, e, h1, h2, hr, hbad⟩
  rw [h b e h1 h2 hr] at hbad
  cases hbad

theorem State.runWord_answers (s : State) {st : OperandStatus} (v : Nat) (h : st ≠ .nonCanonical) :
    ∃ t, s.runWord st v = .next t := by
  rcases s.runWord_cases st v with ⟨-, h'⟩ | ⟨-, h'⟩ | ⟨hst, -⟩
  · exact ⟨_, h'⟩
  · exact ⟨_, h'⟩
  · exact absurd hst h

theorem State.runPoint_answers (s : State) {st : OperandStatus} (P : Triple Nat) (h : st ≠ .nonCanonical) :
    ∃ t, s.runPoint st P = .next t := by
  rcases s.runPoint_cases st P with ⟨-, h'⟩ | ⟨-, h'⟩ | ⟨hst, -⟩
  · exact ⟨_, h'⟩
  · exact ⟨_, h'⟩
  · exact absurd hst h

/-- The one thing that stops a command is a written operand of `p` or more (rule R23). -/
theorem exec_answers {i : Instr} {s : State} (hi : i.wellFormed = true) (ho : operandsAllowed i s) :
    ∃ t, exec i s = .next t := by
  cases i with
  | fmul => exact s.runWord_answers _ (fieldStatus_ne_nonCanonical ho)
  | fred => exact s.runWord_answers _ (wideStatus_ne_nonCanonical _)
  | pdbl => exact s.runPoint_answers _ (fieldStatus_ne_nonCanonical ho)
  | padd => exact s.runPoint_answers _ (fieldStatus_ne_nonCanonical ho)
  | bred w =>
    rw [exec_bred_eq hi]
    exact s.runPoint_answers _ (bucketStatus_ne_nonCanonical ho)

/-- What a command reads does not include the moves still to come. -/
theorem operandsAllowed_withMoves {i : Instr} {s : State} (ms : List Move) (h : operandsAllowed i s) :
    operandsAllowed i (s.withMoves ms) := by
  cases i <;> exact h

/-! ### What one step can do -/

/-- The moves at which the block may complete the command it runs: its own turn, a `WAIT`, and none left (rule R50; log entry
7). -/
def State.blockMayMove (s : State) : Prop :=
  s.host.moves = [] ∨ ∃ rest, s.host.moves = .block :: rest ∨ s.host.moves = .host .wait :: rest

/-- Command `i` is the one this step runs: the host presents it by `RUN` to a block that is idle and not halted, or the block
runs it and may move. -/
def State.runsNow (s : State) (i : Instr) : Prop :=
  (∃ c rest, s.host.moves = .host (.run c) :: rest ∧ decode c = .legal i ∧
    s.block.status.busy = false ∧ s.block.status.err = false) ∨
  (s.block.running = some i ∧ s.blockMayMove)

/-- All that one step can do, by what it does to the block. -/
inductive StepEvent (s : State) : State → Prop
  /-- A read, a poll, a move of an idle block, or a command word that a halted block ignores (rules R12, R15, R33, R123). -/
  | keepsBlock {t : State} (hk : t.block = s.block) : StepEvent s t
  /-- `RESET` (rule R135). -/
  | resets {rest : List Move} (hm : s.host.moves = .host .reset :: rest) : StepEvent s (s.withMoves rest).resetBlock
  /-- A register write (rule R12). -/
  | writesReg {i : Fin 6} {v : HostWord} {rest : List Move} (hm : s.host.moves = .host (.wr i v) :: rest)
      (hb : s.block.status.busy = false) : StepEvent s ((s.withMoves rest).writeReg i (v.value s.host))
  /-- A bucket write (rule R33). -/
  | writesEntry {b : Nat} {x y z : HostWord} {rest : List Move} (hm : s.host.moves = .host (.wrb b x y z) :: rest)
      (hlt : b < Config.nbkt) :
      StepEvent s ((s.withMoves rest).writeBkt b ⟨x.value s.host, y.value s.host, z.value s.host⟩)
  /-- An illegal word, presented to a block that is idle and not halted (rule R121). -/
  | raises {code : ErrCode} {rest : List Move} (hb : s.block.status.busy = false) :
      StepEvent s ((s.withMoves rest).raiseIllegalCommand code)
  /-- A legal word, accepted (rule R49). -/
  | accepts {c : CmdWord} {i : Instr} {rest : List Move} (he : s.block.status.err = false) (hd : decode c = .legal i) :
      StepEvent s ((s.withMoves rest).accept i)
  /-- A command runs to its completion (rule R50). -/
  | executes {u t : State} {i : Instr} (hu : u.block = s.block) (hr : s.runsNow i) (h : exec i u = .next t) :
      StepEvent s t

theorem blockTurn_event {s u t : State} (hu : u.block = s.block) (hm : s.blockMayMove)
    (h : blockTurn exec u = .next t) : StepEvent s t := by
  rcases blockTurn_next h with ⟨-, rfl⟩ | ⟨i, hr, h⟩
  · exact .keepsBlock hu
  · exact .executes hu (.inr ⟨hu ▸ hr, hm⟩) h

theorem hostStatement_event {s t : State} {st : Stmt} {rest : List Move} (hm : s.host.moves = .host st :: rest)
    (h : hostStatement Config.params exec st (s.withMoves rest) = .next t) : StepEvent s t := by
  cases st with
  | wr i v =>
    obtain ⟨hb, rfl⟩ := hostWriteReg_next h
    rw [HostWord.value_withMoves]
    exact .writesReg hm hb
  | rd k i =>
    obtain ⟨-, rfl⟩ := hostReadReg_next h
    exact .keepsBlock (by simp)
  | wrb b x y z =>
    obtain ⟨-, hlt, rfl⟩ := hostWriteBkt_next h
    simp only [HostWord.value_withMoves]
    exact .writesEntry hm hlt
  | rdb k b =>
    obtain ⟨-, -, rfl⟩ := hostReadBkt_next h
    exact .keepsBlock (by simp)
  | cmd c =>
    obtain ⟨hb, ⟨-, rfl⟩ | ⟨-, code, -, rfl⟩ | ⟨he, i, hd, rfl⟩⟩ := hostCommand_next h
    · exact .keepsBlock rfl
    · exact .raises hb
    · exact .accepts he hd
  | wait =>
    rw [hostStatement, hostWait] at h
    split at h
    · exact blockTurn_event (s.withMoves_block _) (.inr ⟨rest, .inr hm⟩) h
    · cases h
      exact .keepsBlock rfl
  | rds =>
    cases h
    exact .keepsBlock rfl
  | reset =>
    cases h
    exact .resets hm
  | run c =>
    obtain ⟨hb, ⟨-, rfl⟩ | ⟨-, code, -, rfl⟩ | ⟨he, i, hd, h⟩⟩ := hostRun_next h
    · exact .keepsBlock rfl
    · exact .raises hb
    · exact .executes (s.withMoves_block rest) (.inl ⟨c, rest, hm, hd, hb, he⟩) h

/-- The inversion of the step: every next state comes about by one of the events. -/
theorem step_event {s t : State} (h : step s = .next t) : StepEvent s t := by
  cases hm : s.host.moves with
  | nil =>
    rw [step_no_moves s hm] at h
    exact blockTurn_event rfl (.inl hm) h
  | cons m rest =>
    cases m with
    | block =>
      rw [step_block s rest hm] at h
      exact blockTurn_event (s.withMoves_block rest) (.inr ⟨rest, .inl hm⟩) h
    | host st =>
      rw [step_host s st rest hm] at h
      exact hostStatement_event hm h

/-! ### Decoding, as far as the step depends on it -/

/-- What the decoder accepts is a command (rules R47 and R48). -/
theorem wellFormed_of_decode {c : CmdWord} {i : Instr} (h : decode c = .legal i) : i.wellFormed = true := by
  have plain {j : Instr} (hj : j.wellFormed = true) (h : withoutWidth (wField c) j = .legal i) : i.wellFormed = true := by
    unfold withoutWidth at h
    split at h <;> cases h
    exact hj
  unfold decode decodeWith at h
  split at h
  · cases h
  · split at h
    · exact plain rfl h
    · exact plain rfl h
    · exact plain rfl h
    · exact plain rfl h
    · split at h <;> cases h
      rename_i hw
      rw [not_or, Nat.not_lt] at hw
      exact (widthOkWith_iff _ _).mpr ⟨Nat.one_le_iff_ne_zero.mpr hw.1, hw.2⟩
    · cases h

/-- The encoder's `BRED` word (rule R55). -/
theorem encode_bred {w : Nat} (hw : w < 32) : encode (.bred w) = 0x00000005 + 256 * BitVec.ofNat 32 w := by
  apply BitVec.eq_of_toNat_eq
  rw [bredWord_toNat hw, encode, BitVec.toNat_ofNat]
  exact Nat.mod_eq_of_lt (show 5 + 256 * w < 2 ^ 32 by omega)

/-- Rule R55, the half the step needs. -/
theorem decode_encode {i : Instr} (hi : i.wellFormed = true) : decode (encode i) = .legal i := by
  cases i with
  | fmul => exact decode_fmul_word
  | fred => exact decode_fred_word
  | pdbl => exact decode_pdbl_word
  | padd => exact decode_padd_word
  | bred w =>
    obtain ⟨h1, h16⟩ := (widthOk_iff w).mp hi
    rw [encode_bred (by omega), decode, decodeWith_bredWord _ h1 (by omega), if_neg]
    exact Nat.not_lt.mpr h16

/-- A table word of 32 bits is the word itself. -/
theorem tableWord_toNat (c : CmdWord) : tableWord 32 c.toNat = c := by
  rw [tableWord, Nat.mod_eq_of_lt c.isLt, BitVec.ofNat_toNat, BitVec.setWidth_eq]

/-! ### The invariant of the block -/

/-- Settles O15, clause by clause: nothing is written and nothing runs. -/
theorem blockInvariantHoldsAtReset : Obligations.BlockInvariantHoldsAtReset :=
  { memory := Memory.wf_empty
    status := by decide
    running := rfl
    legalCommand := fun _ h => nomatch h
    halted := fun _ => rfl
    resultX := fun h => nomatch h
    resultY := fun h => nomatch h
    resultZ := fun h => nomatch h }

theorem errNumber_ne_zero (code : ErrCode) : errNumber code ≠ 0 := by cases code <;> decide

theorem errNumber_ne_three (code : ErrCode) : errNumber code ≠ 3 := by cases code <;> decide

section Invariant

variable {s : State} (hs : s.block.Inv)
include hs

theorem Block.Inv.writeReg (i : Fin 6) (v : Word) : (s.writeReg i v).block.Inv := by
  rw [State.writeReg_block, Block.writeOperand]
  split
  · exact { hs with }
  · exact { hs with }

theorem Block.Inv.writeBkt {b : Nat} (hb : b < Config.nbkt) (e : Triple Word) : (s.writeBkt b e).block.Inv :=
  { hs with memory := Memory.wf_write _ b e hs.memory hb }

theorem Block.Inv.raiseIllegalCommand (hb : s.block.status.busy = false) (code : ErrCode) :
    (s.raiseIllegalCommand code).block.Inv :=
  { hs with
    status := by
      obtain ⟨hbd, -, -⟩ := hs.status
      exact ⟨hbd, iff_of_true (errNumber_ne_zero code) rfl, errNumber_ne_three code⟩
    halted := fun _ => hb }

theorem Block.Inv.accept (he : s.block.status.err = false) {i : Instr} (hi : i.wellFormed = true) :
    (s.accept i).block.Inv :=
  { hs with
    status := by
      obtain ⟨-, hcode, hne⟩ := hs.status
      exact ⟨by simp, hcode, hne⟩
    running := rfl
    legalCommand := by
      rintro _ ⟨⟩
      exact hi
    halted := fun h => absurd (he.symm.trans h) Bool.false_ne_true }

theorem Block.Inv.complete {q : Triple Reg} (hx : q.x.canonicalResult) (hy : q.y.canonicalResult)
    (hz : q.z.canonicalResult) : (s.complete q).block.Inv where
  memory := hs.memory
  status := by
    obtain ⟨-, hcode, hne⟩ := hs.status
    exact ⟨by simp, hcode, hne⟩
  running := rfl
  legalCommand := fun _ h => nomatch h
  halted := fun _ => rfl
  resultX := hx
  resultY := hy
  resultZ := hz

/-- A command that completes leaves the invariant: what it writes to R is canonical and the rest of R was (rule R23). -/
theorem Block.Inv.of_exec {i : Instr} {t : State} (hi : i.wellFormed = true) (h : exec i s = .next t) : t.block.Inv := by
  rcases exec_completes_canonical hi h with ⟨v, n, hv, rfl⟩ | hp
  · exact hs.complete (q := { s.block.r with x := .of v }) (Reg.canonicalResult_of hv) hs.resultY hs.resultZ
  · obtain ⟨⟨-, hx⟩, ⟨-, hy⟩, -, hz⟩ := hp.result
    obtain ⟨e, n, -, rfl⟩ := hp
    exact hs.complete (q := e.map .of) (fun _ => hx) (fun _ => hy) fun _ => hz

/-- The command a step runs is a legal one: it was decoded, or it was running. -/
theorem Block.Inv.wellFormed_of_runsNow {i : Instr} (h : s.runsNow i) : i.wellFormed = true := by
  rcases h with ⟨c, rest, -, hd, -⟩ | ⟨hr, -⟩
  · exact wellFormed_of_decode hd
  · exact hs.legalCommand i hr

end Invariant

/-- Settles O14, event by event. -/
theorem everyStepKeepsTheBlockInvariant : Obligations.EveryStepKeepsTheBlockInvariant := by
  intro s t hs h
  cases step_event h with
  | keepsBlock hk => exact hk ▸ hs
  | resets hm => exact blockInvariantHoldsAtReset
  | writesReg hm hb => exact Block.Inv.writeReg (s := s.withMoves _) hs _ _
  | writesEntry hm hlt => exact Block.Inv.writeBkt (s := s.withMoves _) hs hlt _
  | raises hb => exact Block.Inv.raiseIllegalCommand (s := s.withMoves _) hs hb _
  | accepts he hd => exact Block.Inv.accept (s := s.withMoves _) hs he (wellFormed_of_decode hd)
  | executes hu hr h => exact Block.Inv.of_exec (hu ▸ hs) (hs.wellFormed_of_runsNow hr) h

end Sys2Proof.Machine

/-! PROOFS. The state of the block, continued: the table of `STATUS`, completion, what a command reads and writes, and what a
step may change. -/

namespace Sys2Proof.Machine

/-! ### A presented word, and the block's move -/

theorem presentWord_halted (c : Config.Params) (word : CmdWord) {s : State} (start : Instr → Answer)
    (he : s.block.status.err = true) : presentWord c word s start = .next s := by
  simp [presentWord, he]

/-- `CMD` and `RUN` present their word to an idle block; they differ in what a legal one starts (rules R49 and R50). -/
theorem step_presents {s : State} {c : CmdWord} {rest : List Move}
    (hm : s.host.moves = .host (.cmd c) :: rest ∨ s.host.moves = .host (.run c) :: rest)
    (hb : s.block.status.busy = false) :
    ∃ start, step s = presentWord Config.params c (s.withMoves rest) start := by
  rcases hm with hm | hm <;> rw [step_host s _ rest hm]
  · exact ⟨_, (s.withMoves rest).whenIdle_idle _ hb⟩
  · exact ⟨_, (s.withMoves rest).whenIdle_idle _ hb⟩

theorem blockTurn_running {run : Meaning} {s : State} {i : Instr} (hr : s.block.running = some i) :
    blockTurn run s = run i s := by
  simp [blockTurn, hr]

/-- Where a busy block may move, the step is the meaning of the command it runs (rule R50; log entry 7). -/
theorem step_of_blockMayMove {s : State} {i : Instr} (hr : s.block.running = some i)
    (hb : s.block.status.busy = true) (hm : s.blockMayMove) : ∃ ms, step s = exec i (s.withMoves ms) := by
  rcases hm with hm | ⟨rest, hm | hm⟩
  · exact ⟨s.host.moves, (step_no_moves s hm).trans (blockTurn_running hr)⟩
  · exact ⟨rest, (step_block s rest hm).trans (blockTurn_running (s := s.withMoves rest) hr)⟩
  · refine ⟨.host .wait :: rest, (step_host s _ rest hm).trans ?_⟩
    rw [hostStatement, hostWait, if_pos (by simpa using hb)]
    exact blockTurn_running (s := s.withMoves (.host .wait :: rest)) hr

/-! ### The event table of `STATUS` -/

/-- No step but a reset clears `ERR` (rule R16, last sentence). -/
theorem step_keeps_err {s t : State} (h : step s = .next t) (he : s.block.status.err = true)
    (hc : t.block.status.err = false) : ∃ rest, s.host.moves = .host .reset :: rest := by
  have kept (ht : t.block.status.err = true) : ∃ rest, s.host.moves = .host .reset :: rest := by
    rw [ht] at hc
    cases hc
  cases step_event h with
  | keepsBlock hk => exact kept (by rw [hk, he])
  | resets hm => exact ⟨_, hm⟩
  | writesReg hm hb => exact kept (by simpa using he)
  | writesEntry hm hlt => exact kept he
  | raises hb => exact kept rfl
  | accepts he' hd => exact kept he
  | executes hu hr h => exact kept (exec_keeps_err h (by rw [hu, he]))

/-- Settles O4: a lemma for each row, and `step_keeps_err` for the last sentence. -/
theorem statusFieldsChangeAsTheEventTableSays : Obligations.StatusFieldsChangeAsTheEventTableSays := by
  refine ⟨fun s rest hm => ?_, fun s c i rest hm hb he hd => ?_, fun s t i hi h => exec_status hi h,
    fun s c code rest hm hb he hd => ?_, fun s c rest hm hb he => ?_, fun s t h => step_keeps_err h⟩
  · exact ⟨_, step_host s _ rest hm, rfl⟩
  · exact ⟨_, (step_host s _ rest hm).trans (hostCommand_legal (s := s.withMoves rest) hb he hd), rfl⟩
  · obtain ⟨start, hstep⟩ := step_presents hm hb
    refine ⟨_, hstep.trans (presentWord_illegal (s := s.withMoves rest) start he hd), ?_⟩
    cases code <;> rfl
  · obtain ⟨start, hstep⟩ := step_presents hm hb
    exact ⟨_, hstep.trans (presentWord_halted _ c (s := s.withMoves rest) start he), rfl⟩

/-! ### Completion -/

/-- Settles O11: only a written operand of `p` or more stops a command, and a move of the block runs it. -/
theorem everyStartedCommandCompletes : Obligations.EveryStartedCommandCompletes := by
  refine ⟨fun i s hi ho => ?_, fun i s rest hi ho hr hb hm => ?_⟩
  · obtain ⟨t, ht⟩ := exec_answers hi ho
    exact ⟨t, ht, exec_pointFrame hi ht⟩
  · have hmove : s.blockMayMove := by
      rcases hm with hm | hm | hm
      · exact .inr ⟨rest, .inl hm⟩
      · exact .inr ⟨rest, .inr hm⟩
      · exact .inl hm
    obtain ⟨ms, hstep⟩ := step_of_blockMayMove hr hb hmove
    obtain ⟨t, ht⟩ := exec_answers hi (operandsAllowed_withMoves ms ho)
    obtain ⟨-, hdone⟩ := exec_pointFrame hi ht
    exact ⟨t, hstep.trans ht, hdone⟩

/-- Settles O12. The frame and the bound on the result are those of every completion, so which words were never written does
not enter. -/
theorem unwrittenOperandsGiveAnUnspecifiedResult : Obligations.UnwrittenOperandsGiveAnUnspecifiedResult := by
  have word {s t : State} {i : Instr} (h : exec i s = .next t) (hc : s.CompletesWord t) :
      ∃ t v, exec i s = .next t ∧ fieldFrame s t ∧ t.block.r.x.seen = some v ∧ canonical v = true := by
    obtain ⟨v, hv⟩ := hc.result
    exact ⟨t, v, h, hc.fieldFrame, hv⟩
  have point {s t : State} {i : Instr} (h : exec i s = .next t) (hc : s.CompletesPoint t) :
      ∃ t, exec i s = .next t ∧ pointFrame s t ∧ goodPoint t.block.r := ⟨t, h, hc.pointFrame, hc.result⟩
  intro s
  refine ⟨fun ho _ => ?_, fun _ => ?_, fun ho _ => ?_, fun ho _ => ?_, fun w h1 h2 ho _ => ?_⟩
  · obtain ⟨t, ht⟩ := exec_answers (i := .fmul) rfl ho
    exact word ht (exec_fmul_completesWord ht)
  · obtain ⟨t, ht⟩ := exec_answers (i := .fred) (s := s) rfl trivial
    exact word ht (exec_fred_completesWord ht)
  · obtain ⟨t, ht⟩ := exec_answers (i := .pdbl) rfl ho
    exact point ht (exec_pdbl_completesPoint ht)
  · obtain ⟨t, ht⟩ := exec_answers (i := .padd) rfl ho
    exact point ht (exec_padd_completesPoint ht)
  · have hw : widthOk w = true := (widthOk_iff w).mpr ⟨h1, h2⟩
    obtain ⟨t, ht⟩ := exec_answers (i := .bred w) hw ho
    exact point ht (exec_bred_completesPoint hw ht)

/-! ### FMUL -/

/-- `FMUL` on well-formed operands (rule R66). -/
theorem exec_fmul_specified {s : State} (ha : s.block.a.x.good) (hb : s.block.b.x.good) :
    exec .fmul s =
      .next (s.completeWord (ofField (fmul (toField s.block.a.x.val) (toField s.block.b.x.val)))) := by
  have hst : fieldStatus [s.block.a.x, s.block.b.x] = .specified := by
    rw [fieldStatus_specified_iff]
    simp [ha, hb]
  change execFmul s = _
  rw [execFmul, hst, State.runWord]

/-- `FMUL` with a written operand of `p` or more (rule R23). -/
theorem exec_fmul_refused {s : State} (h : s.block.a.x.bad = true ∨ s.block.b.x.bad = true) :
    exec .fmul s = .refused .nonCanonicalOperand := by
  have hst : fieldStatus [s.block.a.x, s.block.b.x] = .nonCanonical := by
    rw [fieldStatus_nonCanonical_iff]
    simpa [Reg.bad] using h
  change execFmul s = _
  rw [execFmul, hst, State.runWord]

/-- Settles O33; over a never-written operand by what every completion of `FMUL` leaves, as in O12. -/
theorem fmulWritesTheProductModuloP : Obligations.FmulWritesTheProductModuloP := by
  refine ⟨decode_fmul_word, fun s => ⟨fun ha hb => ?_, exec_fmul_refused, fun ho _ => ?_⟩⟩
  · have hexec := exec_fmul_specified ha hb
    have hval := toField_ofField (fmul_lt (toField s.block.a.x.val) (toField s.block.b.x.val))
    refine ⟨_, _, hexec, (exec_fmul_completesWord hexec).fieldFrame, rfl, ?_, hval⟩
    exact lt_of_eq_of_lt hval (fmul_lt _ _)
  · obtain ⟨t, ht⟩ := exec_answers (i := .fmul) rfl ho
    have hc := exec_fmul_completesWord ht
    obtain ⟨v, hv, -⟩ := hc.result
    exact ⟨t, v, ht, hc.fieldFrame, hv⟩

/-! ### What a command reads -/

theorem all_written_eq_all_seen (rs : List Reg) : rs.all Reg.written = (rs.map Reg.seen).all Option.isSome := by
  rw [List.all_map]
  exact congrArg rs.all (funext Reg.written_eq_isSome_seen)

theorem any_bad_eq_any_seen (rs : List Reg) :
    rs.any Reg.bad = (rs.map Reg.seen).any fun o => o.any fun v => !canonical v := by
  rw [List.any_map]
  exact congrArg rs.any (funext Reg.bad_eq_any_seen)

/-- The check on field operands looks at nothing but what a reader sees of them. -/
theorem fieldStatus_congr {rs rs' : List Reg} (h : rs.map Reg.seen = rs'.map Reg.seen) :
    fieldStatus rs = fieldStatus rs' := by
  simp only [fieldStatus, any_bad_eq_any_seen, all_written_eq_all_seen, h]

theorem wideStatus_congr {rs rs' : List Reg} (h : rs.map Reg.seen = rs'.map Reg.seen) :
    wideStatus rs = wideStatus rs' := by
  simp only [wideStatus, all_written_eq_all_seen, h]

theorem seen_eq_of_map_eq {a a' : Triple Reg} (h : a.map Reg.seen = a'.map Reg.seen) :
    a.x.seen = a'.x.seen ∧ a.y.seen = a'.y.seen ∧ a.z.seen = a'.z.seen :=
  ⟨congrArg Triple.x h, congrArg Triple.y h, congrArg Triple.z h⟩

theorem tripleRegs_map_seen {a a' : Triple Reg} (h : a.map Reg.seen = a'.map Reg.seen) :
    (tripleRegs a).map Reg.seen = (tripleRegs a').map Reg.seen := by
  obtain ⟨hx, hy, hz⟩ := seen_eq_of_map_eq h
  simp [tripleRegs, hx, hy, hz]

/-- Written triples that a reader cannot tell apart hold the same point. -/
theorem pointOf_congr {a a' : Triple Reg} (hg : goodPoint a) (h : a.map Reg.seen = a'.map Reg.seen) :
    pointOf a = pointOf a' := by
  obtain ⟨⟨hwx, -⟩, ⟨hwy, -⟩, hwz, -⟩ := hg
  obtain ⟨hx, hy, hz⟩ := seen_eq_of_map_eq h
  simp [pointOf, Triple.map, Reg.val_eq_of_seen_eq hwx hx, Reg.val_eq_of_seen_eq hwy hy, Reg.val_eq_of_seen_eq hwz hz]

/-- The check on a bucket array looks at nothing but its own entries (rule R34). -/
theorem bucketStatus_congr {m m' : Memory} {n : Nat} (h : ∀ b, 1 ≤ b → b ≤ n → m.read b = m'.read b) :
    bucketStatus m n = bucketStatus m' n := by
  have bad : someEntryBad m n = someEntryBad m' n := by
    rw [Bool.eq_iff_iff, someEntryBad_iff, someEntryBad_iff]
    constructor
    · rintro ⟨b, e, h1, h2, hr, he⟩
      exact ⟨b, e, h1, h2, h b h1 h2 ▸ hr, he⟩
    · rintro ⟨b, e, h1, h2, hr, he⟩
      exact ⟨b, e, h1, h2, (h b h1 h2).trans hr, he⟩
  have written : allWritten m n = allWritten m' n := by
    rw [Bool.eq_iff_iff, allWritten_iff, allWritten_iff]
    exact forall₃_congr fun b h1 h2 => by rw [h b h1 h2]
  rw [bucketStatus, bucketStatus, bad, written]

/-- The scan of rule R91 visits the entries `n` down to 1 and no other. -/
theorem runningScan_congr {α : Type} (add : α → α → α) {bucket bucket' : Nat → α} {n : Nat}
    (h : ∀ b, 1 ≤ b → b ≤ n → bucket b = bucket' b) (acc : α × α) :
    runningScan add bucket n acc = runningScan add bucket' n acc := by
  induction n generalizing acc with
  | zero => rfl
  | succ n ih =>
    rw [runningScan_succ, runningScan_succ, h (n + 1) (by omega) le_rfl]
    exact ih (fun b h1 h2 => h b h1 (by omega)) _

/-- A reduction over entries 1 to `n` reads no other entry (rules R34 and R91). -/
theorem bucketReduce_bucketPoint_congr {m m' : Memory} {n : Nat} (h : ∀ b, 1 ≤ b → b ≤ n → m.read b = m'.read b) :
    bucketReduce (jadd Config.idJac) Config.idJac (bucketPoint m) n =
      bucketReduce (jadd Config.idJac) Config.idJac (bucketPoint m') n :=
  congrArg Prod.snd (runningScan_congr _ (fun b h1 h2 => by rw [bucketPoint, bucketPoint, h b h1 h2]) _)

section Agreement

variable {s u t : State}

/-- Field commands that agree on the check of their operands, on the value where it is specified, and on the supply of free
values, agree on R0. -/
theorem State.runWord_agree {st : OperandStatus} {v v' : Nat} (hv : st = .specified → v = v') (hd : s.draws = u.draws)
    (h : s.runWord st v = .next t) :
    ∃ w, u.runWord st v' = .next w ∧ t.block.r.x.seen = w.block.r.x.seen := by
  cases st with
  | specified =>
    cases h
    exact ⟨_, rfl, by simp [hv rfl]⟩
  | unspecified =>
    cases h
    exact ⟨_, rfl, by simp [hd]⟩
  | nonCanonical => cases h

/-- The same for the commands that write all of R. -/
theorem State.runPoint_agree {st : OperandStatus} {P P' : Triple Nat} (hP : st = .specified → P = P')
    (hd : s.draws = u.draws) (h : s.runPoint st P = .next t) :
    ∃ w, u.runPoint st P' = .next w ∧ t.block.r.map Reg.seen = w.block.r.map Reg.seen := by
  cases st with
  | specified =>
    cases h
    exact ⟨_, rfl, by simp [hP rfl]⟩
  | unspecified =>
    cases h
    exact ⟨_, rfl, by simp [hd]⟩
  | nonCanonical => cases h

/-- A command reads nothing but what the table of rule R11 and rule R34 list. -/
theorem exec_agree {i : Instr} (hi : i.wellFormed = true) (ha : readsAgree i s u) (hd : s.draws = u.draws)
    (h : exec i s = .next t) : ∃ v, exec i u = .next v ∧ writesAgree i t v := by
  cases i with
  | fmul =>
    obtain ⟨hA, hB⟩ := ha
    have hst := fieldStatus_congr (rs := [s.block.a.x, s.block.b.x]) (rs' := [u.block.a.x, u.block.b.x])
      (by simp [hA, hB])
    change ∃ v, execFmul u = .next v ∧ _
    rw [execFmul, ← hst]
    refine State.runWord_agree (fun hsp => ?_) hd h
    have hw := (fieldStatus_specified_iff _).mp hsp
    rw [Reg.val_eq_of_seen_eq (hw _ (by simp)).1 hA, Reg.val_eq_of_seen_eq (hw _ (by simp)).1 hB]
  | fred =>
    obtain ⟨hlo, hhi⟩ := ha
    have hst := wideStatus_congr (rs := [s.block.a.x, s.block.a.y]) (rs' := [u.block.a.x, u.block.a.y])
      (by simp [hlo, hhi])
    change ∃ v, execFred u = .next v ∧ _
    rw [execFred, ← hst]
    refine State.runWord_agree (fun hsp => ?_) hd h
    have hw := (wideStatus_specified_iff _).mp hsp
    rw [Reg.val_eq_of_seen_eq (hw _ (by simp)) hlo, Reg.val_eq_of_seen_eq (hw _ (by simp)) hhi]
  | pdbl =>
    have hst := fieldStatus_congr (tripleRegs_map_seen ha)
    change ∃ v, execPdbl u = .next v ∧ _
    rw [execPdbl_eq, ← hst]
    refine State.runPoint_agree (fun hsp => ?_) hd h
    exact congrArg (jdbl Config.idJac) (pointOf_congr (goodPoint_of_specified (fun _ => id) hsp) ha)
  | padd =>
    obtain ⟨hA, hB⟩ := ha
    have hst := fieldStatus_congr (rs := tripleRegs s.block.a ++ tripleRegs s.block.b)
      (rs' := tripleRegs u.block.a ++ tripleRegs u.block.b)
      (by rw [List.map_append, List.map_append, tripleRegs_map_seen hA, tripleRegs_map_seen hB])
    change ∃ v, execPadd u = .next v ∧ _
    rw [execPadd_eq, ← hst]
    refine State.runPoint_agree (fun hsp => ?_) hd h
    exact congrArg₂ (jadd Config.idJac)
      (pointOf_congr (goodPoint_of_specified (fun _ => List.mem_append_left _) hsp) hA)
      (pointOf_congr (goodPoint_of_specified (fun _ => List.mem_append_right _) hsp) hB)
  | bred w =>
    rw [exec_bred_eq hi] at h
    rw [exec_bred_eq hi, ← bucketStatus_congr ha, ← bucketReduce_bucketPoint_congr ha]
    exact State.runPoint_agree (fun _ => rfl) hd h

end Agreement

/-- Settles O45: `exec_agree` for what is read, the frames of completion for what is written. -/
theorem commandsReadAndWriteOnlyWhatTheTableLists : Obligations.CommandsReadAndWriteOnlyWhatTheTableLists := by
  refine ⟨fun i s u t hi ha hd h => exec_agree hi ha hd h, fun i s t h => exec_inputs h, fun i s t hi h => ?_⟩
  have hc : s.CompletesWord t := by
    rcases hi with rfl | rfl
    · exact exec_fmul_completesWord h
    · exact exec_fred_completesWord h
  obtain ⟨-, hy, hz, -⟩ := hc.fieldFrame
  exact ⟨hy, hz⟩

/-! ### Register numbers -/

theorem Triple.get_set {α : Type} (t : Triple α) (i j : Fin 3) (v : α) :
    (t.set i v).get j = if j = i then v else t.get j := by
  fin_cases i <;> fin_cases j <;> rfl

/-- Within one triple of rule R10 the register number and the word number name the same word. -/
theorem wordNumber_eq_iff {m n : Nat} (h : m / 3 = n / 3) : Fin.ofNat 3 m = Fin.ofNat 3 n ↔ m = n := by
  rw [Fin.ext_iff, Fin.val_ofNat, Fin.val_ofNat]
  omega

/-- A write of an operand register, seen from every register (rule R12). -/
theorem Block.x_writeOperand (k : Block) (i : Fin 6) (v : Word) (j : Fin 9) :
    (k.writeOperand i v).x j = if j.val = i.val then .of v else k.x j := by
  have hi := i.isLt
  unfold Block.writeOperand Block.x
  by_cases hi3 : i.val < 3 <;> by_cases hj3 : j.val < 3
  · simp [hi3, hj3, Triple.get_set, wordNumber_eq_iff (m := j.val) (n := i.val) (by omega), -Fin.ofNat_eq_cast]
  · simp [hi3, hj3, show j.val ≠ i.val by omega]
  · simp [hi3, hj3, show j.val ≠ i.val by omega]
  · by_cases hj6 : j.val < 6
    · simp [hi3, hj3, hj6, Triple.get_set, wordNumber_eq_iff (m := j.val) (n := i.val) (by omega), -Fin.ofNat_eq_cast]
    · simp [hi3, hj3, hj6, show j.val ≠ i.val by omega]

theorem Block.x_writeOperand_same (k : Block) (i : Fin 6) (v : Word) :
    (k.writeOperand i v).x (i.castLE (by decide)) = .of v :=
  (k.x_writeOperand i v _).trans (if_pos rfl)

theorem Block.x_writeOperand_other (k : Block) {i : Fin 6} (v : Word) {j : Fin 9} (h : j ≠ i.castLE (by decide)) :
    (k.writeOperand i v).x j = k.x j :=
  (k.x_writeOperand i v j).trans (if_neg fun hv => h (Fin.ext hv))

/-- The six operand registers are the words of A and B (rule R10). -/
theorem Block.x_operand_congr {k k' : Block} (ha : k.a = k'.a) (hb : k.b = k'.b) (j : Fin 6) :
    k.x (j.castLE (by decide)) = k'.x (j.castLE (by decide)) := by
  simp [Block.x, ha, hb]

/-! ### What a step may change -/

section Changes

variable {s t : State} (h : step s = .next t)
include h

/-- An operand register changes only by a host write of it or a reset (rules R11 and R12). -/
theorem step_changes_operand (j : Fin 6) (hne : t.block.x (j.castLE (by decide)) ≠ s.block.x (j.castLE (by decide))) :
    ∃ rest, (∃ v, s.host.moves = .host (.wr j v) :: rest) ∨ s.host.moves = .host .reset :: rest := by
  cases step_event h with
  | keepsBlock hk => exact absurd (by rw [hk]) hne
  | resets hm => exact ⟨_, .inr hm⟩
  | @writesReg i v rest hm hb =>
    obtain rfl : j = i := by
      by_contra hji
      exact hne (Block.x_writeOperand_other s.block _ fun heq => hji (Fin.castLE_injective _ heq))
    exact ⟨rest, .inl ⟨v, hm⟩⟩
  | writesEntry hm hlt => exact absurd rfl hne
  | raises hb => exact absurd rfl hne
  | accepts he hd => exact absurd rfl hne
  | executes hu hr h =>
    obtain ⟨ha, hb, -⟩ := exec_inputs h
    exact absurd (Block.x_operand_congr (by rw [ha, hu]) (by rw [hb, hu]) j) hne

/-- A bucket entry changes only by a host write of it or a reset (rules R33 and R34). -/
theorem step_changes_entry (b : Nat) (hne : t.block.bkt.read b ≠ s.block.bkt.read b) :
    ∃ rest, (∃ x y z, s.host.moves = .host (.wrb b x y z) :: rest) ∨ s.host.moves = .host .reset :: rest := by
  cases step_event h with
  | keepsBlock hk => exact absurd (by rw [hk]) hne
  | resets hm => exact ⟨_, .inr hm⟩
  | writesReg hm hb => exact absurd (by simp) hne
  | @writesEntry b' x y z rest hm hlt =>
    obtain rfl : b = b' := by
      by_contra hbb
      exact hne (Memory.read_write_other _ _ _ _ hbb)
    exact ⟨rest, .inl ⟨x, y, z, hm⟩⟩
  | raises hb => exact absurd rfl hne
  | accepts he hd => exact absurd rfl hne
  | executes hu hr h =>
    obtain ⟨-, -, hbkt⟩ := exec_inputs h
    exact absurd (by rw [hbkt, hu]) hne

/-- The result triple changes only by a reset or by the completion of the command the step runs (rules R11 and R50). -/
theorem step_changes_result (hne : t.block.r ≠ s.block.r) :
    (∃ rest, s.host.moves = .host .reset :: rest) ∨
    (∃ i, s.runsNow i ∧ i.wellFormed = true ∧ t.block.status.done = true ∧ t.block.status.busy = false ∧
      t.block.running = none) := by
  cases step_event h with
  | keepsBlock hk => exact absurd (by rw [hk]) hne
  | resets hm => exact .inl ⟨_, hm⟩
  | writesReg hm hb => exact absurd (by simp) hne
  | writesEntry hm hlt => exact absurd rfl hne
  | raises hb => exact absurd rfl hne
  | accepts he hd => exact absurd rfl hne
  | executes hu hr h =>
    rcases exec_next h with ⟨hi, q, n, rfl⟩ | ⟨-, rfl⟩
    · exact .inr ⟨_, hr, hi, rfl, rfl, rfl⟩
    · exact absurd (by simp [hu]) hne

end Changes

/-- Settles O16, from the events of a step: `step_changes_operand`, `step_changes_entry`, `step_changes_result`. -/
theorem onlyTheseEventsChangeData : Obligations.OnlyTheseEventsChangeData := by
  refine fun s t h => ⟨step_changes_operand h, step_changes_entry h, fun hne => ?_⟩
  refine (step_changes_result h hne).imp_right ?_
  rintro ⟨i, ⟨c, rest, hrun⟩ | ⟨hr, hm⟩, hi, hdone, hbusy, hnone⟩
  · exact ⟨hdone, hbusy, hnone, .inl ⟨c, i, rest, hrun⟩⟩
  · exact ⟨hdone, hbusy, hnone, .inr ⟨i, hr, hi, hm⟩⟩

end Sys2Proof.Machine

/-! PROOFS. The state of the block, concluded: reset, the `STATUS` word, the step as the meaning of a command, and what the
host's register transactions and the pseudo-statements made of them do. -/

namespace Sys2Proof.Machine

/-! ### Reset, `STATUS`, and the command of a step -/

/-- Settles O1: each clause is a field of the one reset state. -/
theorem resetLeavesStatusZeroAndAllDataUnwritten : Obligations.ResetLeavesStatusZeroAndAllDataUnwritten :=
  ⟨by decide, rfl, by decide, fun _ => rfl⟩

/-- The layout of the `STATUS` word (rule R15), over the 32 values of its fields. -/
theorem Status.word_fields (st : Status) :
    st.word.getLsbD 0 = st.busy ∧ st.word.getLsbD 1 = st.done ∧ st.word.getLsbD 2 = st.err ∧
      st.word.extractLsb' 3 2 = st.errcode ∧ st.word.extractLsb' 5 27 = 0 := by
  obtain ⟨busy, done, err, errcode⟩ := st
  revert busy done err errcode
  decide

/-- Settles O3: the layout of the word, and a read that only adds a reply. -/
theorem statusWordHasItsFieldsAndReadsHaveNoSideEffect :
    Obligations.StatusWordHasItsFieldsAndReadsHaveNoSideEffect :=
  ⟨Status.word_fields, fun s rest hm => ⟨_, step_host s _ rest hm, rfl, rfl, rfl, rfl⟩⟩

/-- `RUN` of a legal word is the meaning of its command (rules R49 and R50). -/
theorem step_run_legal {s : State} {c : CmdWord} {i : Instr} {rest : List Move}
    (hm : s.host.moves = .host (.run c) :: rest) (hb : s.block.status.busy = false) (he : s.block.status.err = false)
    (hd : decode c = .legal i) : step s = exec i (s.withMoves rest) :=
  (step_host s _ rest hm).trans (hostRun_legal (s := s.withMoves rest) exec hb he hd)

/-- Settles O13; a placed word is a `RUN` of itself, by `step_run_legal` and `decode_encode`. -/
theorem stepRunsTheDecodedCommand : Obligations.StepRunsTheDecodedCommand := by
  refine ⟨fun s c i rest => step_run_legal, fun s i rest hm hr => ?_, fun s i hi hb he => ?_⟩
  · exact (step_block s rest hm).trans (blockTurn_running (s := s.withMoves rest) hr)
  · have hd : decode (tableWord 32 (encode i).toNat) = .legal i := by rw [tableWord_toNat, decode_encode hi]
    exact step_run_legal (s := s.withFetchWord 32 (encode i).toNat) rfl hb he hd

/-! ### Host transactions, one step each -/

section Transactions

variable {s : State} {rest : List Move}

/-- A register that was written reads as its value (rules R12 and R22). -/
theorem State.readReg_of_seen {i : Fin 9} {v : Word} (h : (s.block.x i).seen = some v) : s.readReg i = v := by
  unfold Reg.seen at h
  unfold State.readReg
  split at h
  · rw [if_pos ‹_›]
    exact Option.some.inj h
  · cases h

theorem step_wr {i : Fin 6} {v : HostWord} (hm : s.host.moves = .host (.wr i v) :: rest) :
    step s = s.whenIdle (.next ((s.withMoves rest).writeReg i (v.value s.host))) := by
  rw [step_host s _ rest hm, hostStatement, HostWord.value_withMoves]
  rfl

theorem step_rd {k : Option (Fin 3)} {i : Fin 9} (hm : s.host.moves = .host (.rd k i) :: rest) :
    step s = s.whenIdle (.next (((s.withMoves rest).keep k (s.readReg i)).reply (.reg i (s.readReg i)))) :=
  step_host s _ rest hm

theorem step_wrb {b : Nat} {x y z : HostWord} (hm : s.host.moves = .host (.wrb b x y z) :: rest)
    (hb : s.block.status.busy = false) (hlt : b < Config.nbkt) :
    step s = .next ((s.withMoves rest).writeBkt b ⟨x.value s.host, y.value s.host, z.value s.host⟩) := by
  rw [step_host s _ rest hm, hostStatement, hostWriteBkt, State.whenIdle_idle _ _ (by simpa using hb),
    whenEntry_lt _ _ hlt]
  simp only [HostWord.value_withMoves]

theorem step_rdb {keep : Bool} {b : Nat} (hm : s.host.moves = .host (.rdb keep b) :: rest)
    (hb : s.block.status.busy = false) (hlt : b < Config.nbkt) :
    step s = .next (((s.withMoves rest).keepEntry keep (s.readBkt b)).reply (.bucket b (s.readBkt b))) := by
  rw [step_host s _ rest hm, hostStatement, hostReadBkt, State.whenIdle_idle _ _ (by simpa using hb),
    whenEntry_lt _ _ hlt]
  rfl

end Transactions

/-- Settles O18: `step_wr` and `step_rd` give the next state, the register rules what it holds. -/
theorem hostRegisterWriteChangesOneRegisterAndReadChangesNone :
    Obligations.HostRegisterWriteChangesOneRegisterAndReadChangesNone := by
  refine ⟨fun s i v rest hm => ⟨fun hb => ?_, fun hb => ?_⟩, fun s k i rest hm => ⟨fun hb => ?_, fun hb => ?_⟩⟩
  · refine ⟨_, (step_wr hm).trans (s.whenIdle_idle _ hb), ?_, fun j hj => ?_, by simp, by simp, by simp, rfl, rfl, rfl⟩
    · rw [State.writeReg_block, Block.x_writeOperand_same, Reg.seen_of]
    · exact Block.x_writeOperand_other s.block _ hj
  · exact (step_wr hm).trans (s.whenIdle_busy _ hb)
  · refine ⟨_, s.readReg i, (step_rd hm).trans (s.whenIdle_idle _ hb), by simp, by simp,
      fun u hu => State.readReg_of_seen hu, by simp, ?_, ?_, ?_, ?_⟩ <;> rintro rfl <;> rfl
  · exact (step_rd hm).trans (s.whenIdle_busy _ hb)

/-! ### The pseudo-statements made of them -/

/-- A run goes on from the state a run gives. -/
theorem run_add_of_run (M : Host.Core) {j k : Nat} {s t : M.State} (h : M.run j s = .next t) :
    M.run (j + k) s = M.run k t := by
  induction j generalizing s with
  | zero =>
    cases h
    rw [Nat.zero_add]
  | succ j ih =>
    rw [Host.Core.run] at h
    split at h
    · rw [Nat.add_right_comm, run_succ_of_step M _ s _ ‹_›]
      exact ih h
    · cases h
    · cases h

/-- The block with another operand triple. -/
def Block.withOperand (k : Block) (d : Side) (t : Triple Reg) : Block :=
  match d with
  | .sideA => { k with a := t }
  | .sideB => { k with b := t }

/-- Writing the three words of a side writes its triple (rule R10). -/
theorem Block.writeOperand_triple (k : Block) (d : Side) (x y z : Word) :
    ((k.writeOperand (operandReg d 0) x).writeOperand (operandReg d 1) y).writeOperand (operandReg d 2) z =
      k.withOperand d ⟨.of x, .of y, .of z⟩ := by
  cases d <;> rfl

section Scripts

variable {s : State} {rest : List Move} (hb : s.block.status.busy = false)
include hb

theorem run_wr {i : Fin 6} {v : HostWord} (hm : s.host.moves = .host (.wr i v) :: rest) (k : Nat) :
    Host.Core.run core (k + 1) s = Host.Core.run core k ((s.withMoves rest).writeReg i (v.value s.host)) :=
  run_of_step ((step_wr hm).trans (s.whenIdle_idle _ hb))

theorem run_rd {k : Option (Fin 3)} {i : Fin 9} (hm : s.host.moves = .host (.rd k i) :: rest) (n : Nat) :
    Host.Core.run core (n + 1) s =
      Host.Core.run core n (((s.withMoves rest).keep k (s.readReg i)).reply (.reg i (s.readReg i))) :=
  run_of_step ((step_rd hm).trans (s.whenIdle_idle _ hb))

/-- The three reads of R leave in the host's variables what it reads from R0, R1 and R2, and nothing else of the block or of
the moves (rule R54). -/
theorem run_readResult (hm : s.host.moves = scriptMoves readResult ++ rest) :
    ∃ t, Host.Core.run core 3 s = .next t ∧ t.block = s.block ∧ t.host.moves = rest ∧
      t.host.vars = ⟨s.readReg 6, s.readReg 7, s.readReg 8⟩ := by
  rw [run_rd hb hm, run_rd (by simpa using hb) rfl, run_rd (by simpa using hb) rfl]
  exact ⟨_, rfl, rfl, rfl, rfl⟩

/-- The three writes of an operand triple, of host words that do not change under way (rule R54). -/
theorem run_writeTriple (d : Side) {x y z : HostWord} (hm : s.host.moves = scriptMoves (writeTriple d x y z) ++ rest) :
    ∃ t, Host.Core.run core 3 s = .next t ∧ t.host.moves = rest ∧
      t.block = s.block.withOperand d ⟨.of (x.value s.host), .of (y.value s.host), .of (z.value s.host)⟩ := by
  rw [run_wr hb hm, run_wr (by simpa using hb) rfl, run_wr (by simpa using hb) rfl]
  refine ⟨_, rfl, rfl, ?_⟩
  simp [Block.writeOperand_triple]

end Scripts

/-- `MOVP` to either side (rule R54). -/
theorem run_movp {s : State} {rest : List Move} (d : Side) (hb : s.block.status.busy = false)
    (hm : s.host.moves = scriptMoves (expand (.movp d)) ++ rest) :
    ∃ t, Host.Core.run core 6 s = .next t ∧ t.host.moves = rest ∧
      t.block = s.block.withOperand d ⟨.of (s.readReg 6), .of (s.readReg 7), .of (s.readReg 8)⟩ := by
  obtain ⟨u, hu, hub, hum, huv⟩ := run_readResult (rest := scriptMoves (writeTriple d (.var 0) (.var 1) (.var 2)) ++ rest)
    hb (by rw [hm, expand, scriptMoves, List.map_append, List.append_assoc]; rfl)
  obtain ⟨t, ht, htm, htb⟩ := run_writeTriple (s := u) (by rw [hub, hb]) d hum
  refine ⟨t, (run_add_of_run core hu).trans ht, htm, ?_⟩
  rw [htb, hub]
  simp only [HostWord.value, huv]
  rfl

/-- Settles O20: `run_movp` at each side. -/
theorem movpCopiesTheResultToAnOperandTriple : Obligations.MovpCopiesTheResultToAnOperandTriple :=
  fun _ _ hb => ⟨run_movp .sideA hb, run_movp .sideB hb⟩

/-- `STB`, on an idle block (rule R54). -/
theorem run_stb {s : State} {b : Nat} {rest : List Move} (hb : s.block.status.busy = false) (hlt : b < Config.nbkt)
    (hm : s.host.moves = scriptMoves (expand (.stb b)) ++ rest) :
    ∃ t, Host.Core.run core 4 s = .next t ∧ t.host.moves = rest ∧
      t.block = { s.block with bkt := s.block.bkt.write b ⟨s.readReg 6, s.readReg 7, s.readReg 8⟩ } := by
  obtain ⟨u, hu, hub, hum, huv⟩ := run_readResult (rest := .host (.wrb b (.var 0) (.var 1) (.var 2)) :: rest) hb hm
  have hstep := step_wrb hum (by rw [hub, hb]) hlt
  have hrun : Host.Core.run core 1 u = .next _ := run_of_step (k := 0) hstep
  refine ⟨_, (run_add_of_run core hu).trans hrun, rfl, ?_⟩
  rw [← hub]
  simp only [HostWord.value, huv]
  rfl

/-- `LDB`, on an idle block (rule R54). -/
theorem run_ldb {s : State} {b : Nat} {rest : List Move} (hb : s.block.status.busy = false) (hlt : b < Config.nbkt)
    (hm : s.host.moves = scriptMoves (expand (.ldb b)) ++ rest) :
    ∃ t, Host.Core.run core 4 s = .next t ∧ t.host.moves = rest ∧
      t.block = s.block.withOperand .sideA ((s.readBkt b).map Reg.of) := by
  have hstep := step_rdb (rest := scriptMoves (writeTriple .sideA (.var 0) (.var 1) (.var 2)) ++ rest) hm hb hlt
  obtain ⟨t, ht, htm, htb⟩ := run_writeTriple
    (s := ((s.withMoves _).keepEntry true (s.readBkt b)).reply (.bucket b (s.readBkt b))) (by simpa using hb) .sideA rfl
  exact ⟨t, (run_of_step hstep).trans ht, htm, htb⟩

/-- Settles O21: `run_stb` and `run_ldb`, with the laws of the bucket memory. -/
theorem stbStoresTheResultAndLdbLoadsAnEntry : Obligations.StbStoresTheResultAndLdbLoadsAnEntry := by
  refine fun s b rest hb hlt => ⟨fun hm => ?_, fun hm => run_ldb hb hlt hm⟩
  obtain ⟨t, ht, htm, htb⟩ := run_stb hb hlt hm
  refine ⟨t, ht, htm, ?_⟩
  rw [htb]
  exact ⟨Memory.read_write_same _ _ _, fun b' hne => Memory.read_write_other _ _ _ _ hne, fun _ => rfl, rfl, rfl⟩

end Sys2Proof.Machine

/-! PROOFS. The bucket memory at the host interface (20_memory.md): which bucket transactions the interface refuses, and that
a read leaves what every later read returns. -/

namespace Sys2Proof.Machine

/-! ### What the host reads from an entry -/

/-- An entry that was written reads as it stands in the memory (rules R22 and R33). -/
theorem State.readBkt_of_read {s : State} {b : Nat} {e : Triple Word} (h : s.block.bkt.read b = some e) :
    s.readBkt b = e := by
  rw [State.readBkt, h, Option.getD_some]

/-- What the host reads from an entry depends on the bucket memory and the number of resets alone (log entry 4). -/
theorem State.readBkt_congr {s t : State} (hbkt : t.block.bkt = s.block.bkt) (hepoch : t.epoch = s.epoch) (b : Nat) :
    t.readBkt b = s.readBkt b := by
  rw [State.readBkt, State.readBkt, hbkt, hepoch]

/-! ### Bucket transactions, one step each -/

section BucketTransactions

variable {s : State} {b : Nat} {rest : List Move}

/-- An idle block has no transaction on an index that is no entry (rule R33; log entry 17). -/
theorem State.whenIdle_whenEntry_ge (a : Answer) (hb : s.block.status.busy = false) (hge : Config.nbkt ≤ b) :
    s.whenIdle (whenEntry Config.params b a) = .refused .noSuchEntry := by
  rw [State.whenIdle_idle _ _ hb, whenEntry_ge _ _ hge]

/-- A bucket write stands behind two checks, `BUSY` before the index (rules R33 and R138). -/
theorem step_wrb_checked {x y z : HostWord} (hm : s.host.moves = .host (.wrb b x y z) :: rest) :
    step s = s.whenIdle (whenEntry Config.params b
      (.next ((s.withMoves rest).writeBkt b ⟨x.value s.host, y.value s.host, z.value s.host⟩))) := by
  rw [step_host s _ rest hm, hostStatement]
  simp only [HostWord.value_withMoves]
  rfl

/-- A bucket read stands behind the same two checks (rules R33 and R138). -/
theorem step_rdb_checked {keep : Bool} (hm : s.host.moves = .host (.rdb keep b) :: rest) :
    step s = s.whenIdle (whenEntry Config.params b
      (.next (((s.withMoves rest).keepEntry keep (s.readBkt b)).reply (.bucket b (s.readBkt b))))) :=
  step_host s _ rest hm

/-- After a read of an entry, a second read of it replies the same triple, written or not (rule R33; log entry 4). -/
theorem step_rdb_again {keep keep' : Bool} {t : State}
    (hm : s.host.moves = .host (.rdb keep b) :: .host (.rdb keep' b) :: rest)
    (hb : s.block.status.busy = false) (hlt : b < Config.nbkt) (ht : step s = .next t) :
    ∃ u, step t = .next u ∧
      u.host.replies = .bucket b (s.readBkt b) :: .bucket b (s.readBkt b) :: s.host.replies := by
  obtain rfl := Host.Outcome.next.inj ((step_rdb hm hb hlt).symm.trans ht)
  refine ⟨_, step_rdb (keep := keep') (rest := rest) (by simp) (by simpa using hb) hlt, ?_⟩
  simp [State.readBkt_congr (s := s) (t := ((s.withMoves _).keepEntry keep _).reply _)]

end BucketTransactions

/-- Settles O19: `step_wrb` and `step_rdb` give the next state, the laws of the bucket memory what it holds, and the checks
before them the refusals. -/
theorem hostBucketWriteChangesOneEntryAndReadsRepeat :
    Obligations.HostBucketWriteChangesOneEntryAndReadsRepeat := by
  refine ⟨fun s b x y z rest hm => ⟨fun hb hlt => ?write, fun hb hge => ?writeNoEntry, fun hb => ?writeBusy⟩,
    fun s k b rest hm => ⟨fun hb hlt => ?read, fun hb hge => ?readNoEntry, fun hb => ?readBusy⟩⟩
  case write =>
    exact ⟨_, step_wrb hm hb hlt, Memory.read_write_same _ _ _, fun b' hne => Memory.read_write_other _ _ _ _ hne,
      fun _ => rfl, rfl, rfl, rfl, rfl, rfl⟩
  case writeNoEntry => exact (step_wrb_checked hm).trans (State.whenIdle_whenEntry_ge _ hb hge)
  case writeBusy => exact (step_wrb_checked hm).trans (s.whenIdle_busy _ hb)
  case read =>
    have hstep := step_rdb hm hb hlt
    refine ⟨_, s.readBkt b, hstep, by simp, by simp, fun e' he => State.readBkt_of_read he, by simp, ?_, ?_, ?_⟩
    · rintro rfl
      rfl
    · rintro rfl
      rfl
    · rintro k' rest' rfl
      exact step_rdb_again hm hb hlt hstep
  case readNoEntry => exact (step_rdb_checked hm).trans (State.whenIdle_whenEntry_ge _ hb hge)
  case readBusy => exact (step_rdb_checked hm).trans (s.whenIdle_busy _ hb)

end Sys2Proof.Machine

/-! PROOFS. The command word (30_encoding.md): the fields of a word, what the decoder accepts, the encoder as its inverse, and
the acceptance and completion of a command by `CMD`, `WAIT` and `RUN`. -/

namespace Sys2Proof.Machine

/-! ### The fields of a command word (rule R45) -/

section Fields

variable (c : CmdWord)

/-- The model's field arithmetic is the extraction of the bits from `lo` on. -/
theorem bits_eq_extractLsb' (hi lo : Nat) : bits hi lo c = (c.extractLsb' lo (hi - lo + 1)).toNat := by
  rw [bits, BitVec.extractLsb'_toNat, Nat.shiftRight_eq_div_pow]

theorem opField_eq : opField c = (c.extractLsb' 0 3).toNat := bits_eq_extractLsb' c 2 0

theorem rsv0Field_eq : rsv0Field c = (c.extractLsb' 3 5).toNat := bits_eq_extractLsb' c 7 3

theorem wField_eq : wField c = (c.extractLsb' 8 5).toNat := bits_eq_extractLsb' c 12 8

theorem rsv1Field_eq : rsv1Field c = (c.extractLsb' 13 19).toNat := bits_eq_extractLsb' c 31 13

/-- The four fields cover the word. -/
theorem toNat_eq_fields :
    c.toNat = opField c + 2 ^ 3 * rsv0Field c + 2 ^ 8 * wField c + 2 ^ 13 * rsv1Field c := by
  have hc : c.toNat < 2 ^ 32 := c.isLt
  simp only [opField, rsv0Field, wField, rsv1Field, bits]
  omega

end Fields

/-- A mask whose bits in a field are all 1 leaves the field as it is. -/
theorem extractLsb'_and_mask {m : CmdWord} {lo n : Nat} (hm : m.extractLsb' lo n = BitVec.allOnes n) (c : CmdWord) :
    (c &&& m).extractLsb' lo n = c.extractLsb' lo n := by
  rw [BitVec.extractLsb'_and, hm, BitVec.and_allOnes]

/-! ### Decode and encode are inverse (rules R47, R48 and R55) -/

/-- The inversion of the decoder: a word that decodes to a command has the command's opcode and width in their fields, and
reserved bits 0. -/
theorem fields_of_decode {c : CmdWord} {i : Instr} (h : decode c = .legal i) :
    opField c = opcodeOf i ∧ rsv0Field c = 0 ∧ wField c = widthOf i ∧ rsv1Field c = 0 := by
  have plain {j : Instr} (hj : widthOf j = 0) (h : withoutWidth (wField c) j = .legal i) :
      i = j ∧ wField c = widthOf j := by
    unfold withoutWidth at h
    split at h <;> cases h
    exact ⟨rfl, by omega⟩
  unfold decode decodeWith at h
  split at h
  · cases h
  · rename_i hrsv
    rw [not_or, not_not, not_not] at hrsv
    obtain ⟨hrsv0, hrsv1⟩ := hrsv
    split at h
    case h_1 hop | h_2 hop | h_3 hop | h_4 hop =>
      obtain ⟨rfl, hw⟩ := plain rfl h
      exact ⟨hop, hrsv0, hw, hrsv1⟩
    case h_5 hop =>
      split at h <;> cases h
      exact ⟨hop, hrsv0, rfl, hrsv1⟩
    case h_6 => cases h

/-- The encoder's word as a number (rule R55). -/
theorem encode_toNat {i : Instr} (hi : i.wellFormed = true) : (encode i).toNat = opcodeOf i + 256 * widthOf i := by
  cases i with
  | bred w =>
    obtain ⟨-, h16⟩ := (widthOk_iff w).mp hi
    rw [encode_bred (by omega), bredWord_toNat (by omega)]
    rfl
  | _ => rfl

/-- Rule R55, the other half: the fields the decoder accepts are all of the word. -/
theorem encode_of_decode {c : CmdWord} {i : Instr} (h : decode c = .legal i) : encode i = c := by
  obtain ⟨hop, hrsv0, hw, hrsv1⟩ := fields_of_decode h
  apply BitVec.eq_of_toNat_eq
  rw [encode_toNat (wellFormed_of_decode h), toNat_eq_fields c, hop, hrsv0, hw, hrsv1]
  omega

/-- Settles O25: `decode_encode`, `encode_of_decode` and `wellFormed_of_decode`, and the encoder's word as a number. -/
theorem decodeOfEncodeAndEncodeOfDecode : Obligations.DecodeOfEncodeAndEncodeOfDecode :=
  ⟨⟨rfl, rfl, rfl, rfl, fun _ h1 h16 => encode_toNat ((widthOk_iff _).mpr ⟨h1, h16⟩)⟩,
    fun _ hi => decode_encode hi, fun _ _ h => ⟨encode_of_decode h, wellFormed_of_decode h⟩⟩

/-! ### The legal words (rule R47) -/

/-- The legal words are the encodings of the commands. -/
theorem decode_eq_legal_iff {c : CmdWord} {i : Instr} : decode c = .legal i ↔ c = encode i ∧ i.wellFormed = true := by
  constructor
  · exact fun h => ⟨(encode_of_decode h).symm, wellFormed_of_decode h⟩
  · rintro ⟨rfl, hi⟩
    exact decode_encode hi

/-- The mask of `BRED` keeps the opcode and the reserved bits. -/
theorem decode_of_bred_row {c : CmdWord} (hrow : c &&& 0xFFFFE0FF = 0x00000005)
    (hw : widthOk (wField c) = true) : decode c = .legal (.bred (wField c)) := by
  have field {lo n : Nat} (hm : (0xFFFFE0FF : CmdWord).extractLsb' lo n = BitVec.allOnes n) :
      c.extractLsb' lo n = (0x00000005 : CmdWord).extractLsb' lo n := by
    rw [← hrow, extractLsb'_and_mask hm]
  have hop : opField c = 5 := by rw [opField_eq, field (by decide)]; rfl
  have hrsv0 : rsv0Field c = 0 := by rw [rsv0Field_eq, field (by decide)]; rfl
  have hrsv1 : rsv1Field c = 0 := by rw [rsv1Field_eq, field (by decide)]; rfl
  obtain ⟨h1, h16⟩ := (widthOk_iff _).mp hw
  rw [decode, decodeWith_of_bred_fields _ hop hrsv0 hrsv1, if_neg]
  exact not_or.mpr ⟨Nat.one_le_iff_ne_zero.mp h1, Nat.not_lt.mpr h16⟩

/-- A word decodes to a `BRED` exactly when it is in its row and its width field is that legal width. -/
theorem decode_eq_bred_iff_row {c : CmdWord} {w : Nat} :
    decode c = .legal (.bred w) ↔ c &&& 0xFFFFE0FF = 0x00000005 ∧ widthOk (wField c) = true ∧ w = wField c := by
  constructor
  · intro h
    obtain ⟨rfl, hi⟩ := decode_eq_legal_iff.mp h
    obtain ⟨-, -, hw, -⟩ := fields_of_decode h
    exact ⟨Laws.RowSelected.bred w hi, by rwa [hw], hw.symm⟩
  · rintro ⟨hrow, hw, rfl⟩
    exact decode_of_bred_row hrow hw

/-- A word decodes to a `BRED` exactly when it is one of the sixteen `BRED` words. -/
theorem decode_eq_bred_iff_word {c : CmdWord} {w : Nat} :
    decode c = .legal (.bred w) ↔ 1 ≤ w ∧ w ≤ 16 ∧ c = 0x00000005 + 256 * BitVec.ofNat 32 w := by
  rw [decode_eq_legal_iff, Instr.wellFormed, widthOk_iff]
  constructor
  · rintro ⟨rfl, h1, h16⟩
    exact ⟨h1, h16, encode_bred (by omega)⟩
  · rintro ⟨h1, h16, rfl⟩
    exact ⟨(encode_bred (by omega)).symm, h1, h16⟩

/-- The mask of a row without a free field keeps the whole word. -/
theorem and_fullMask (c : CmdWord) : c &&& 0xFFFFFFFF = c := BitVec.and_allOnes

/-- Settles O23, command by command: a word without a width field is its own row. -/
theorem decodeAcceptsExactlyTheTwentyWords : Obligations.DecodeAcceptsExactlyTheTwentyWords := by
  refine ⟨fun c i => ?rows, fun c i => ?words⟩
  case rows =>
    simp only [and_fullMask, ← wField_eq]
    cases i with
    | bred w => simp [decode_eq_bred_iff_row, widthOk_iff, and_assoc]
    | _ => simp [decode_eq_legal_iff, encode, opcodeOf, widthOf, Instr.wellFormed]
  case words =>
    cases i with
    | bred w => simp [decode_eq_bred_iff_word]
    | _ => simp [decode_eq_legal_iff, encode, opcodeOf, widthOf, Instr.wellFormed]

/-! ### The order of the checks (rule R48) -/

/-- The eight opcodes. -/
theorem opcode_cases (op : BitVec 3) :
    op = 0 ∨ op = 1 ∨ op = 2 ∨ op = 3 ∨ op = 4 ∨ op = 5 ∨ op = 6 ∨ op = 7 := by
  revert op
  decide

/-- The decoder's checks below the reserved bits, as a function of opcode and width. -/
theorem decodeWith_unreserved (wMax : Nat) {c : CmdWord} (hrsv0 : rsv0Field c = 0) (hrsv1 : rsv1Field c = 0) :
    decodeWith wMax c =
      let op := c.extractLsb' 0 3
      let w := c.extractLsb' 8 5
      if op = 0 ∨ op = 6 ∨ op = 7 then .illegal .illegalOp
      else if op = 5 then (if w = 0 ∨ wMax < w.toNat then .illegal .badW else .legal (.bred w.toNat))
      else if w ≠ 0 then .illegal .illegalOp
      else if op = 1 then .legal .fmul
      else if op = 2 then .legal .fred
      else if op = 3 then .legal .pdbl
      else .legal .padd := by
  have hw : wField c = 0 ↔ c.extractLsb' 8 5 = 0 := by rw [wField_eq]; exact BitVec.toNat_inj (y := 0)
  rcases opcode_cases (c.extractLsb' 0 3) with hop | hop | hop | hop | hop | hop | hop | hop <;>
    simp [decodeWith, withoutWidth, hrsv0, hrsv1, opField_eq, hop, hw]
  simp [wField_eq]

/-- Settles O24: the reserved bits first, then `decodeWith_unreserved`. -/
theorem decodeChecksReservedBitsThenOpcodeThenWidth : Obligations.DecodeChecksReservedBitsThenOpcodeThenWidth := by
  refine ⟨rfl, rfl, by decide, by decide, fun c => ?_⟩
  have hreserved : rsv0Field c ≠ 0 ∨ rsv1Field c ≠ 0 ↔ c.extractLsb' 3 5 ≠ 0 ∨ c.extractLsb' 13 19 ≠ 0 := by
    rw [rsv0Field_eq, rsv1Field_eq]
    exact or_congr (BitVec.toNat_inj (y := 0)).not (BitVec.toNat_inj (y := 0)).not
  intro op rsv0 w rsv1
  split
  · rw [decode, decodeWith, if_pos (hreserved.mpr ‹_›)]
  · obtain ⟨hrsv0, hrsv1⟩ := not_or.mp (mt hreserved.mp ‹_›)
    exact decodeWith_unreserved _ (not_not.mp hrsv0) (not_not.mp hrsv1)

/-- Settles O26: each word is decoded as it stands. -/
theorem decodeOfWrittenOutWords : Obligations.DecodeOfWrittenOutWords :=
  ⟨decode_fmul_word, decode_fred_word, decode_pdbl_word, decode_padd_word, by decide, decode_bred_word_16, by decide,
    by decide, by decide, by decide, by decide, by decide, by decide⟩

/-! ### Words in host statements (rules R53 and R54) -/

/-- Settles O17: the value of a host word, case by case. -/
theorem hostWordsAreNumeralsOrVariables : Obligations.HostWordsAreNumeralsOrVariables :=
  fun _ => ⟨fun _ => rfl, rfl, rfl, rfl⟩

/-! ### `HostCommand`, one step (rule R49) -/

section Command

variable {s : State} {c : CmdWord} {rest : List Move} (hm : s.host.moves = .host (.cmd c) :: rest)
include hm

theorem step_cmd_busy (hb : s.block.status.busy = true) : step s = .refused .transactionWhileBusy :=
  (step_host s _ rest hm).trans ((s.withMoves rest).whenIdle_busy _ hb)

theorem step_cmd_legal {i : Instr} (hb : s.block.status.busy = false) (he : s.block.status.err = false)
    (hd : decode c = .legal i) : step s = .next ((s.withMoves rest).accept i) :=
  (step_host s _ rest hm).trans (hostCommand_legal (s := s.withMoves rest) hb he hd)

end Command

/-- A word that starts nothing does by `CMD` what it does by `RUN`: a halted block ignores it (rule R123). -/
theorem step_word_halted {s : State} {c : CmdWord} {rest : List Move}
    (hm : s.host.moves = .host (.cmd c) :: rest ∨ s.host.moves = .host (.run c) :: rest)
    (hb : s.block.status.busy = false) (he : s.block.status.err = true) : step s = .next (s.withMoves rest) := by
  obtain ⟨start, hstep⟩ := step_presents hm hb
  exact hstep.trans (presentWord_halted _ c (s := s.withMoves rest) start he)

/-- An illegal word takes the exception, by `CMD` and by `RUN` (rule R121). -/
theorem step_word_illegal {s : State} {c : CmdWord} {code : ErrCode} {rest : List Move}
    (hm : s.host.moves = .host (.cmd c) :: rest ∨ s.host.moves = .host (.run c) :: rest)
    (hb : s.block.status.busy = false) (he : s.block.status.err = false) (hd : decode c = .illegal code) :
    step s = .next ((s.withMoves rest).raiseIllegalCommand code) := by
  obtain ⟨start, hstep⟩ := step_presents hm hb
  exact hstep.trans (presentWord_illegal (s := s.withMoves rest) start he hd)

/-- While `BUSY` stays 1 no step changes what a command reads or the result registers: the host's writes are not available,
and a command or a reset that changes data leaves `BUSY` 0 (rules R49 and R138). -/
theorem step_busy_keeps_data {s t : State} (hb : s.block.status.busy = true) (h : step s = .next t)
    (ht : t.block.status.busy = true) : (∀ j, t.block.x j = s.block.x j) ∧ t.block.bkt = s.block.bkt := by
  cases step_event h with
  | keepsBlock hk => exact ⟨fun j => by rw [hk], by rw [hk]⟩
  | resets hm => cases ht
  | writesReg hm hidle => exact absurd (hidle.symm.trans hb) Bool.false_ne_true
  | writesEntry hm hlt =>
    rw [step_wrb_checked hm, s.whenIdle_busy _ hb] at h
    cases h
  | raises hidle => exact ⟨fun _ => rfl, rfl⟩
  | accepts he hd => exact ⟨fun _ => rfl, rfl⟩
  | executes hu hr h =>
    rcases exec_next h with ⟨-, q, n, rfl⟩ | ⟨-, rfl⟩
    · cases ht
    · rw [← hu]
      exact ⟨fun _ => rfl, rfl⟩

/-- Settles O5: a lemma for each case of `HostCommand`, and `step_busy_keeps_data`. -/
theorem hostCommandAcceptsRaisesOrIgnores : Obligations.HostCommandAcceptsRaisesOrIgnores := by
  refine ⟨fun s c rest hm => ⟨step_cmd_busy hm, step_word_halted (.inl hm),
    fun code => step_word_illegal (.inl hm), fun i hb he hd => ?_⟩, fun s t => step_busy_keeps_data⟩
  exact ⟨_, step_cmd_legal hm hb he hd, rfl, rfl, rfl, fun _ => rfl, rfl, rfl⟩

/-- The status read of a block that a command was just accepted by: `BUSY` 1 and all else 0 (rules R15 and R50). -/
theorem Status.accepted_word {st : Status} (he : st.err = false) (hc : st.errcode = 0) : st.accepted.word = 1 := by
  simp [Status.word, he, hc]

/-- Settles O10: acceptance, then a read that changes nothing of the block. -/
theorem statusReadDuringACommandShowsBusy : Obligations.StatusReadDuringACommandShowsBusy := by
  intro s c i rest hm hst hd
  have hword : s.block.status.accepted.word = 1 := by
    rw [hst]
    exact Status.accepted_word rfl rfl
  refine ⟨_, _, step_cmd_legal hm (by rw [hst]) (by rw [hst]) hd, step_host _ .rds rest rfl, ?_, rfl, rfl⟩
  exact congrArg (fun v => Reply.status v :: s.host.replies) hword

/-! ### `CMD` and `WAIT` reach what `RUN` reaches (rules R50 and R54) -/

theorem State.withMoves_eq_self {s : State} {ms : List Move} (h : s.host.moves = ms) : s.withMoves ms = s := by
  subst h
  rfl

/-- On an idle block `WAIT` is over (rule R53). -/
theorem step_wait_idle {s : State} {rest : List Move} (hm : s.host.moves = .host .wait :: rest)
    (hb : s.block.status.busy = false) : step s = .next (s.withMoves rest) := by
  rw [step_host s _ rest hm, hostStatement, hostWait, if_neg (by simp [hb])]

/-- On a busy block `WAIT` runs the command and stands where it stood (log entry 7). -/
theorem step_wait_busy {s : State} {i : Instr} {rest : List Move} (hm : s.host.moves = .host .wait :: rest)
    (hb : s.block.status.busy = true) (hr : s.block.running = some i) : step s = exec i s := by
  rw [step_host s _ rest hm, hostStatement, hostWait, if_pos (by simpa using hb)]
  change blockTurn exec (s.withMoves (.host .wait :: rest)) = _
  rw [State.withMoves_eq_self hm, blockTurn_running hr]

section Completion

variable {s t : State} {i j : Instr} (ms : List Move)

/-- A completion writes every field that acceptance writes (rules R49 and R50), so it is the same from the accepted state,
whatever moves are still to come. -/
theorem State.runWord_accept {st : OperandStatus} {v : Nat} (h : s.runWord st v = .next t) :
    ((s.accept j).withMoves ms).runWord st v = .next (t.withMoves ms) := by
  cases st <;> cases h <;> rfl

theorem State.runPoint_accept {st : OperandStatus} {P : Triple Nat} (h : s.runPoint st P = .next t) :
    ((s.accept j).withMoves ms).runPoint st P = .next (t.withMoves ms) := by
  cases st <;> cases h <;> rfl

theorem exec_accept (hi : i.wellFormed = true) (h : exec i s = .next t) :
    exec i ((s.accept j).withMoves ms) = .next (t.withMoves ms) := by
  cases i with
  | fmul => exact State.runWord_accept ms h
  | fred => exact State.runWord_accept ms h
  | pdbl => exact State.runPoint_accept ms h
  | padd => exact State.runPoint_accept ms h
  | bred w =>
    rw [exec_bred_eq hi] at h ⊢
    exact State.runPoint_accept ms h

end Completion

/-- `CMD` and `WAIT` of a word that starts nothing take two steps. -/
theorem run_cmd_wait_idle {s u : State} {rest : List Move} (h : step s = .next u)
    (hm : u.host.moves = .host .wait :: rest) (hb : u.block.status.busy = false) :
    Host.Core.run core 2 s = .next (u.withMoves rest) := by
  rw [run_of_step h, run_of_step (step_wait_idle hm hb)]
  rfl

/-- `CMD` and `WAIT` of a legal word take three steps: acceptance, completion, and the `WAIT` that finds `BUSY` 0. -/
theorem run_cmd_wait_legal {s t : State} {c : CmdWord} {i : Instr} {rest : List Move}
    (hm : s.host.moves = .host (.cmd c) :: .host .wait :: rest) (hb : s.block.status.busy = false)
    (he : s.block.status.err = false) (hd : decode c = .legal i) (h : exec i (s.withMoves rest) = .next t) :
    Host.Core.run core 3 s = .next t := by
  have hi : i.wellFormed = true := wellFormed_of_decode hd
  obtain ⟨⟨-, -, -, hhost, -⟩, hidle, -⟩ := exec_pointFrame hi h
  have hcomplete : step ((s.withMoves (.host .wait :: rest)).accept i) = .next (t.withMoves (.host .wait :: rest)) :=
    (step_wait_busy rfl rfl rfl).trans (exec_accept (s := s.withMoves rest) (j := i) _ hi h)
  rw [run_of_step (step_cmd_legal hm hb he hd), run_cmd_wait_idle hcomplete rfl hidle]
  exact congrArg _ (State.withMoves_eq_self (s := t) (by rw [hhost]; rfl))

/-- Settles O9, by what the word does: `run_cmd_wait_idle` where it is ignored or illegal, `run_cmd_wait_legal` where it is
a command. -/
theorem runInOneStepIsCommandThenWait : Obligations.RunInOneStepIsCommandThenWait := by
  intro s t c rest hm h
  rw [step_host s _ rest hm] at h
  have hplaced : (s.withMoves (.host (.cmd c) :: .host .wait :: rest)).host.moves =
      .host (.cmd c) :: .host .wait :: rest := rfl
  obtain ⟨hb, ⟨he, rfl⟩ | ⟨he, code, hd, rfl⟩ | ⟨he, i, hd, h⟩⟩ := hostRun_next h
  · have hrun := run_cmd_wait_idle (step_word_halted (.inl hplaced) hb he) rfl hb
    exact ⟨2, by decide, hrun⟩
  · have hrun := run_cmd_wait_idle (step_word_illegal (.inl hplaced) hb he hd) rfl hb
    exact ⟨2, by decide, hrun⟩
  · exact ⟨3, le_rfl, run_cmd_wait_legal hplaced hb he hd h⟩

end Sys2Proof.Machine

/-! PROOFS. The field (40_field.md): the primitives as reduced sums, differences and products, the laws of a field, the
reduction by folding, and what `FRED` leaves. -/

namespace Sys2Proof.Machine

/-! ### Sum, difference and product (rules R61 to R63) -/

/-- Below `2p` a reduction is at most one subtraction (rules R61 and R69). -/
theorem mod_p_eq_ite {n : Nat} (h : n < 2 * Config.p) :
    n % Config.p = if n < Config.p then n else n - Config.p := by
  split
  · exact Nat.mod_eq_of_lt ‹_›
  · rw [Nat.mod_eq_sub_mod (by omega), Nat.mod_eq_of_lt (by omega)]

/-- Settles O27. -/
theorem faddIsTheSumLessPWhenItReachesP : Obligations.FaddIsTheSumLessPWhenItReachesP := by
  intro a b ha hb
  have hsum : a + b < 2 * Config.p := by omega
  exact ⟨rfl, hsum, mod_p_eq_ite hsum⟩

/-- A difference is at most one addition of `p` (rule R62). -/
theorem fsub_eq_ite {a b : Nat} (ha : a < Config.p) (hb : b < Config.p) :
    fsub a b = if b ≤ a then a - b else a + Config.p - b := by
  split
  · refine eq_of_cast_eq (fsub_lt a b) (by omega) ?_
    rw [fsub_cast, Nat.cast_sub ‹_›]
  · refine eq_of_cast_eq (fsub_lt a b) (by omega) ?_
    rw [fsub_cast, Nat.cast_sub (by omega), Nat.cast_add, ZMod.natCast_self, add_zero]

/-- Negation (rule R62). -/
theorem fsub_zero_left {b : Nat} (hb : b < Config.p) : fsub 0 b = if b = 0 then 0 else Config.p - b := by
  rw [fsub_eq_ite p_pos hb]
  simp

/-- Settles O28. -/
theorem fsubIsTheDifferencePlusPWhenItIsNegative : Obligations.FsubIsTheDifferencePlusPWhenItIsNegative :=
  fun a b ha hb => ⟨fsub_cast_int a b, fsub_eq_ite ha hb, fsub_zero_left hb⟩

/-- The product is the reduction of the exact product (rules R63 and R65). -/
theorem fmul_eq_fred (a b : Nat) : fmul a b = fred (a * b) := rfl

/-- Settles O29. -/
theorem fmulIsTheReducedExactProduct : Obligations.FmulIsTheReducedExactProduct := by
  intro a b ha hb
  have hprod : a * b < Config.p ^ 2 := by
    rw [Nat.pow_two]
    exact Nat.mul_lt_mul'' ha hb
  have hwide : Config.p ^ 2 < 2 ^ 512 :=
    calc Config.p ^ 2 < (2 ^ 256) ^ 2 := Nat.pow_lt_pow_left p_lt_word two_ne_zero
      _ = 2 ^ 512 := by omega
  exact ⟨rfl, hprod, hwide, rfl, fmul_eq_fred a b⟩

/-! ### Small multiples (rule R64) -/

theorem fdbl_eq_fadd (a : Nat) : fdbl a = fadd a a :=
  eq_of_cast_eq (fdbl_lt a) (fadd_lt a a) (by simp [two_mul])

theorem ftpl_eq_fadd (a : Nat) : ftpl a = fadd (fdbl a) a :=
  eq_of_cast_eq (ftpl_lt a) (fadd_lt _ a) (by rw [ftpl_cast, fadd_cast, fdbl_cast]; ring)

theorem f4_eq_fdbl (a : Nat) : f4 a = fdbl (fdbl a) :=
  eq_of_cast_eq (f4_lt a) (fdbl_lt _) (by rw [f4_cast, fdbl_cast, fdbl_cast]; ring)

theorem f8_eq_fdbl (a : Nat) : f8 a = fdbl (f4 a) :=
  eq_of_cast_eq (f8_lt a) (fdbl_lt _) (by rw [f8_cast, fdbl_cast, f4_cast]; ring)

/-- Settles O30: the multiples and the products by 2, 3, 4 and 8 are defined by the same reduction. -/
theorem smallMultiplesAreSumsAndProducts : Obligations.SmallMultiplesAreSumsAndProducts :=
  fun a _ => ⟨rfl, rfl, rfl, rfl, fdbl_eq_fadd a, ftpl_eq_fadd a, f4_eq_fdbl a, f8_eq_fdbl a, rfl, rfl, rfl, rfl⟩

/-! ### The laws of a field (rule R68)

Both sides of each law are canonical, so it is enough that they are equal modulo `p` (`eq_of_cast_eq`), and there the
primitives are the operations of the ring of integers modulo `p`. -/

section FieldLaws

variable (a b c : Nat)

theorem fadd_comm : fadd a b = fadd b a := by
  rw [fadd, fadd, Nat.add_comm]

theorem fmul_comm : fmul a b = fmul b a := by
  rw [fmul, fmul, Nat.mul_comm]

theorem fadd_assoc : fadd (fadd a b) c = fadd a (fadd b c) :=
  eq_of_cast_eq (fadd_lt _ _) (fadd_lt _ _) (by simp [add_assoc])

theorem fmul_assoc : fmul (fmul a b) c = fmul a (fmul b c) :=
  eq_of_cast_eq (fmul_lt _ _) (fmul_lt _ _) (by simp [mul_assoc])

theorem fmul_fadd : fmul a (fadd b c) = fadd (fmul a b) (fmul a c) :=
  eq_of_cast_eq (fmul_lt _ _) (fadd_lt _ _) (by simp [mul_add])

theorem fmul_fsub : fmul a (fsub b c) = fsub (fmul a b) (fmul a c) :=
  eq_of_cast_eq (fmul_lt _ _) (fsub_lt _ _) (by simp [mul_sub])

theorem fmul_zero : fmul a 0 = 0 :=
  eq_of_cast_eq (fmul_lt a 0) p_pos (by simp)

theorem fsub_self : fsub a a = 0 :=
  eq_of_cast_eq (fsub_lt a a) p_pos (by simp)

theorem fadd_neg : fadd a (fsub 0 a) = 0 :=
  eq_of_cast_eq (fadd_lt _ _) p_pos (by simp)

/-- `p - 1` acts as `-1`. -/
theorem fmul_p_sub_one : fmul (Config.p - 1) a = fsub 0 a := by
  refine eq_of_cast_eq (fmul_lt _ a) (fsub_lt 0 a) ?_
  rw [fmul_cast, fsub_cast, Nat.cast_pred p_pos, ZMod.natCast_self]
  ring

end FieldLaws

theorem fadd_zero {a : Nat} (ha : a < Config.p) : fadd a 0 = a := Nat.mod_eq_of_lt ha

theorem fmul_one {a : Nat} (ha : a < Config.p) : fmul a 1 = a := by
  rw [fmul, Nat.mul_one, Nat.mod_eq_of_lt ha]

/-- Addition undoes subtraction. -/
theorem fadd_fsub_cancel (a : Nat) {b : Nat} (hb : b < Config.p) : fadd a (fsub b a) = b :=
  eq_of_cast_eq (fadd_lt _ _) hb (by simp)

theorem fmul_p_sub_one_self : fmul (Config.p - 1) (Config.p - 1) = 1 := by
  rw [fmul_p_sub_one, fsub_zero_left (by decide)]
  decide

/-- There are no zero divisors, since `p` is prime. -/
theorem eq_zero_of_fmul_eq_zero {a b : Nat} (ha : a < Config.p) (hb : b < Config.p) (h : fmul a b = 0) :
    a = 0 ∨ b = 0 := by
  have hdvd : Config.p ∣ a * b := Nat.dvd_of_mod_eq_zero h
  rcases p_prime.dvd_mul.mp hdvd with hda | hdb
  · exact .inl (Nat.eq_zero_of_dvd_of_lt hda ha)
  · exact .inr (Nat.eq_zero_of_dvd_of_lt hdb hb)

/-- Settles O31. -/
theorem fieldPrimitivesObeyTheFieldLaws : Obligations.FieldPrimitivesObeyTheFieldLaws :=
  fun a b c ha hb _ =>
    ⟨⟨fadd_comm a b, fmul_comm a b, fadd_assoc a b c, fmul_assoc a b c, fmul_fadd a b c, fmul_fsub a b c⟩,
      ⟨fadd_zero ha, fmul_one ha, fmul_zero a, fsub_self a, fadd_neg a⟩,
      fadd_fsub_cancel a hb,
      ⟨fmul_p_sub_one_self, fmul_p_sub_one a⟩,
      eq_zero_of_fmul_eq_zero ha hb⟩

/-! ### Reduction by folding (rule R69) -/

section Folding

variable {n : Nat}

theorem foldConst_add_p : foldConst + Config.p = 2 ^ 256 := by decide

/-- A fold takes away a multiple of `p`: the high part stands for `2^256`, and `2^256` is the constant plus `p`. -/
theorem foldOnce_add_multiple (n : Nat) : foldOnce n + n / 2 ^ 256 * Config.p = n :=
  calc foldOnce n + n / 2 ^ 256 * Config.p
      = n % 2 ^ 256 + n / 2 ^ 256 * (foldConst + Config.p) := by rw [foldOnce, Nat.mul_add, Nat.add_assoc]
    _ = n := by rw [foldConst_add_p, Nat.mod_add_div']

theorem foldOnce_mod_p (n : Nat) : foldOnce n % Config.p = n % Config.p := by
  conv_rhs => rw [← foldOnce_add_multiple n, Nat.add_mul_mod_self_right]

/-- A high part of at most `k` makes a fold of at most `k` constants above the low part. -/
theorem foldOnce_lt {k : Nat} (h : n / 2 ^ 256 ≤ k) : foldOnce n < 2 ^ 256 + k * foldConst :=
  Nat.add_lt_add_of_lt_of_le (Nat.mod_lt n (by decide)) (Nat.mul_le_mul_right foldConst h)

/-- The high part is below `2^256` before the first fold. -/
theorem foldOnce_first_lt (h : n < 2 ^ 512) : foldOnce n < 2 ^ 290 := by
  have hhi : n / 2 ^ 256 ≤ 2 ^ 256 - 1 := by omega
  calc foldOnce n < 2 ^ 256 + (2 ^ 256 - 1) * foldConst := foldOnce_lt hhi
    _ < 2 ^ 256 * 2 ^ 34 := by decide
    _ = 2 ^ 290 := by omega

/-- The high part is below `2^34` before the second fold. -/
theorem foldOnce_second_lt (h : n < 2 ^ 290) : foldOnce n < 2 ^ 256 + 2 ^ 67 := by
  have hhi : n / 2 ^ 256 ≤ 2 ^ 34 - 1 := by omega
  calc foldOnce n < 2 ^ 256 + (2 ^ 34 - 1) * foldConst := foldOnce_lt hhi
    _ < 2 ^ 256 + 2 ^ 67 := by decide

/-- The high part is 0 or 1 before the third fold. -/
theorem foldOnce_third_lt (h : n < 2 ^ 256 + 2 ^ 67) : foldOnce n < 2 * Config.p := by
  have hhi : n / 2 ^ 256 ≤ 1 := by omega
  calc foldOnce n < 2 ^ 256 + 1 * foldConst := foldOnce_lt hhi
    _ < 2 * Config.p := by decide

/-- The conditional subtraction at the end is the reduction, where the third fold is below `2p`. -/
theorem foldReduce_eq_mod (h : foldOnce (foldOnce (foldOnce n)) < 2 * Config.p) : foldReduce n = n % Config.p :=
  calc foldReduce n
      = if foldOnce (foldOnce (foldOnce n)) < Config.p then foldOnce (foldOnce (foldOnce n))
        else foldOnce (foldOnce (foldOnce n)) - Config.p := by simp only [foldReduce, ← not_lt, ite_not]
    _ = foldOnce (foldOnce (foldOnce n)) % Config.p := (mod_p_eq_ite h).symm
    _ = n % Config.p := by rw [foldOnce_mod_p, foldOnce_mod_p, foldOnce_mod_p]

end Folding

/-- Settles O32: each fold keeps the residue, and the bounds leave one subtraction at the end. -/
theorem foldingReducesModuloP : Obligations.FoldingReducesModuloP := by
  intro n hn
  have h1 := foldOnce_first_lt hn
  have h2 := foldOnce_second_lt h1
  have h3 := foldOnce_third_lt h2
  exact ⟨h1, h2, h3, foldReduce_eq_mod h3⟩

/-! ### FRED (rule R67) -/

/-- The 512-bit value of two words is that of the one written before the other (rule R8). -/
theorem concat_eq_append (hi lo : Word) : concat hi lo = (hi ++ lo).toNat := by
  rw [BitVec.toNat_append, ← Nat.shiftLeft_add_eq_or_of_lt lo.isLt, Nat.shiftLeft_eq, concat]

/-- `FRED` on written words, whatever they hold. -/
theorem exec_fred_specified {s : State} (hx : s.block.a.x.written = true) (hy : s.block.a.y.written = true) :
    exec .fred s = .next (s.completeWord (ofField (fred (concat s.block.a.y.val s.block.a.x.val)))) := by
  have hst : wideStatus [s.block.a.x, s.block.a.y] = .specified := by
    rw [wideStatus_specified_iff]
    simp [hx, hy]
  change execFred s = _
  rw [execFred, hst, State.runWord]

/-- Settles O34. -/
theorem fredReducesTheWideWordModuloP : Obligations.FredReducesTheWideWordModuloP := by
  refine ⟨decode_fred_word, fun s hx hy => ?_, fun s u ha hb hx hy hprod => ?_⟩
  · have hexec := exec_fred_specified hx hy
    refine ⟨_, _, hexec, (exec_fred_completesWord hexec).fieldFrame, rfl, ?_⟩
    rw [← concat_eq_append]
    exact toField_ofField (fred_lt _)
  · refine ⟨_, _, exec_fmul_specified ha hb, exec_fred_specified hx hy, ?_⟩
    have hvalue : fmul (toField s.block.a.x.val) (toField s.block.b.x.val) =
        fred (concat u.block.a.y.val u.block.a.x.val) := by
      rw [concat, hprod]
      exact fmul_eq_fred _ _
    rw [hvalue]
    rfl

end Sys2Proof.Machine

/-! PROOFS. The points (41_point.md): the formulas of doubling and addition as equations modulo `p`, what `PDBL` and `PADD`
leave, and the affine images of their results. The group law of the curve is Mathlib's; the host's affine addition is shown to
be it, so that the curve is closed under the commands and the two bucket reducers agree. -/

namespace Sys2Proof.Machine

/-! ### Canonical integers and their residues -/

theorem cast_eq_cast_iff {a b : Nat} (ha : a < Config.p) (hb : b < Config.p) :
    (a : ZMod Config.p) = b ↔ a = b :=
  ⟨eq_of_cast_eq ha hb, congrArg _⟩

theorem cast_eq_zero_iff {a : Nat} (ha : a < Config.p) : (a : ZMod Config.p) = 0 ↔ a = 0 := by
  rw [← Nat.cast_zero, cast_eq_cast_iff ha p_pos]

theorem cast_ne_zero_iff {a : Nat} (ha : a < Config.p) : (a : ZMod Config.p) ≠ 0 ↔ a ≠ 0 :=
  (cast_eq_zero_iff ha).not

theorem two_ne_zero_mod_p : (2 : ZMod Config.p) ≠ 0 :=
  (cast_ne_zero_iff (a := 2) (by decide)).mpr (by decide)

/-- A product of the field is 0 only with a factor 0, since `p` is prime. -/
theorem mul_ne_zero_mod_p {a b : ZMod Config.p} (ha : a ≠ 0) (hb : b ≠ 0) : a * b ≠ 0 :=
  have := Fact.mk p_prime
  mul_ne_zero ha hb

/-! ### The branches of the case analysis (rules R75 and R77) -/

section Branches

variable {idJac P Q : Triple Nat}

theorem jdbl_of_degenerate (h : P.z = 0 ∨ P.y = 0) : jdbl idJac P = idJac := if_pos h

theorem jdbl_of_regular (hz : P.z ≠ 0) (hy : P.y ≠ 0) : jdbl idJac P = doubleGeneral P := if_neg (by tauto)

theorem jadd_identity_right (hP : P.z ≠ 0) (hQ : Q.z = 0) : jadd idJac P Q = P := by
  simp [jadd, hP, hQ]

theorem jadd_of_inverse (hP : P.z ≠ 0) (hQ : Q.z ≠ 0) (hx : normX P Q = normX Q P) (hy : normY P Q ≠ normY Q P) :
    jadd idJac P Q = idJac := by
  simp [jadd, hP, hQ, hx, hy]

theorem jadd_of_same (hP : P.z ≠ 0) (hQ : Q.z ≠ 0) (hx : normX P Q = normX Q P) (hy : normY P Q = normY Q P) :
    jadd idJac P Q = jdbl idJac P := by
  simp [jadd, hP, hQ, hx, hy]

theorem jadd_of_normX_ne (hP : P.z ≠ 0) (hQ : Q.z ≠ 0) (hx : normX P Q ≠ normX Q P) :
    jadd idJac P Q = addGeneral P Q := by
  simp [jadd, hP, hQ, hx]

end Branches

/-! ### The formulas modulo `p` (rules R75 and R77) -/

section Formulas

variable (P Q : Triple Nat)

theorem doubleGeneral_x_cast : ((doubleGeneral P).x : ZMod Config.p) =
    (3 * P.x ^ 2) ^ 2 - 2 * (4 * P.x * P.y ^ 2) := by
  simp [doubleGeneral, mul_assoc]

theorem doubleGeneral_y_cast : ((doubleGeneral P).y : ZMod Config.p) =
    3 * P.x ^ 2 * (4 * P.x * P.y ^ 2 - (doubleGeneral P).x) - 8 * P.y ^ 4 := by
  simp only [doubleGeneral, fsub_cast, fmul_cast, fsqr_cast, ftpl_cast, f4_cast, f8_cast]
  ring

theorem doubleGeneral_z_cast : ((doubleGeneral P).z : ZMod Config.p) = 2 * P.y * P.z := by
  simp [doubleGeneral, mul_assoc]

theorem addGeneral_x_cast : ((addGeneral P Q).x : ZMod Config.p) =
    (normY Q P - normY P Q) ^ 2 - (normX Q P - normX P Q) ^ 3 - 2 * normX P Q * (normX Q P - normX P Q) ^ 2 := by
  simp only [addGeneral, fsub_cast, fmul_cast, fsqr_cast, fdbl_cast]
  ring

theorem addGeneral_y_cast : ((addGeneral P Q).y : ZMod Config.p) =
    (normY Q P - normY P Q) * (normX P Q * (normX Q P - normX P Q) ^ 2 - (addGeneral P Q).x) -
      normY P Q * (normX Q P - normX P Q) ^ 3 := by
  simp only [addGeneral, fsub_cast, fmul_cast, fsqr_cast]
  ring

theorem addGeneral_z_cast : ((addGeneral P Q).z : ZMod Config.p) = (normX Q P - normX P Q) * P.z * Q.z := by
  simp [addGeneral, mul_assoc]

@[simp] theorem normX_cast : (normX P Q : ZMod Config.p) = P.x * Q.z ^ 2 := by
  simp [normX]

@[simp] theorem normY_cast : (normY P Q : ZMod Config.p) = P.y * Q.z ^ 3 := by
  simp only [normY, fmul_cast, fsqr_cast]
  ring

theorem normX_lt : normX P Q < Config.p := fmul_lt _ _

theorem normY_lt : normY P Q < Config.p := fmul_lt _ _

theorem normX_eq_iff : normX P Q = normX Q P ↔ (P.x * Q.z ^ 2 : ZMod Config.p) = Q.x * P.z ^ 2 := by
  rw [← cast_eq_cast_iff (normX_lt P Q) (normX_lt Q P), normX_cast, normX_cast]

theorem normY_eq_iff : normY P Q = normY Q P ↔ (P.y * Q.z ^ 3 : ZMod Config.p) = Q.y * P.z ^ 3 := by
  rw [← cast_eq_cast_iff (normY_lt P Q) (normY_lt Q P), normY_cast, normY_cast]

end Formulas

theorem canonicalPoint_doubleGeneral (P : Triple Nat) : canonicalPoint (doubleGeneral P) :=
  ⟨fsub_lt _ _, fsub_lt _ _, fdbl_lt _⟩

theorem canonicalPoint_addGeneral (P Q : Triple Nat) : canonicalPoint (addGeneral P Q) :=
  ⟨fsub_lt _ _, fsub_lt _ _, fmul_lt _ _⟩

/-- Doubling a point that is not its own inverse gives no identity (rule R75). -/
theorem doubleGeneral_z_ne_zero {P : Triple Nat} (hP : canonicalPoint P) (hz : P.z ≠ 0) (hy : P.y ≠ 0) :
    (doubleGeneral P).z ≠ 0 := by
  obtain ⟨-, hylt, hzlt⟩ := hP
  obtain ⟨-, -, hlt⟩ := canonicalPoint_doubleGeneral P
  rw [← cast_ne_zero_iff hlt, doubleGeneral_z_cast]
  exact mul_ne_zero_mod_p (mul_ne_zero_mod_p two_ne_zero_mod_p ((cast_ne_zero_iff hylt).mpr hy))
    ((cast_ne_zero_iff hzlt).mpr hz)

/-- Points with different normalised X do not sum to an identity (rule R77). -/
theorem addGeneral_z_ne_zero {P Q : Triple Nat} (hP : canonicalPoint P) (hQ : canonicalPoint Q) (hPz : P.z ≠ 0)
    (hQz : Q.z ≠ 0) (hx : normX P Q ≠ normX Q P) : (addGeneral P Q).z ≠ 0 := by
  obtain ⟨-, -, hPlt⟩ := hP
  obtain ⟨-, -, hQlt⟩ := hQ
  have hH : (normX Q P - normX P Q : ZMod Config.p) ≠ 0 :=
    sub_ne_zero.mpr fun h => hx (eq_of_cast_eq (normX_lt Q P) (normX_lt P Q) h).symm
  obtain ⟨-, -, hlt⟩ := canonicalPoint_addGeneral P Q
  rw [← cast_ne_zero_iff hlt, addGeneral_z_cast]
  exact mul_ne_zero_mod_p (mul_ne_zero_mod_p hH ((cast_ne_zero_iff hPlt).mpr hPz))
    ((cast_ne_zero_iff hQlt).mpr hQz)

/-! ### What a point command leaves in the registers -/

theorem toField_eq_zero_iff (v : Word) : toField v = 0 ↔ v = 0 :=
  ⟨fun h => BitVec.eq_of_toNat_eq h, fun h => by rw [h]; rfl⟩

/-- A well-formed operand is seen as the words of the point it holds. -/
theorem map_seen_of_goodPoint {t : Triple Reg} (h : goodPoint t) :
    t.map Reg.seen = (pointOf t).map fun v => some (ofField v) := by
  obtain ⟨⟨hx, -⟩, ⟨hy, -⟩, hz, -⟩ := h
  simp [Triple.map, pointOf, Reg.seen, hx, hy, hz]

/-- The result of a completion with a canonical triple is that triple. -/
theorem pointOf_completePoint (s : State) {P : Triple Nat} (hP : canonicalPoint P) :
    pointOf (s.completePoint (P.map ofField)).block.r = P := by
  obtain ⟨hx, hy, hz⟩ := hP
  change (⟨_, _, _⟩ : Triple Nat) = ⟨P.x, P.y, P.z⟩
  congr 1
  · exact toField_ofField hx
  · exact toField_ofField hy
  · exact toField_ofField hz

section Commands

variable {s : State}

theorem exec_pdbl_specified (ha : goodPoint s.block.a) :
    exec .pdbl s = .next (s.completePoint ((jdbl Config.idJac (pointOf s.block.a)).map ofField)) := by
  change execPdbl s = _
  rw [execPdbl_eq, fieldStatus_of_goodPoint ha, State.runPoint]

theorem exec_padd_specified (ha : goodPoint s.block.a) (hb : goodPoint s.block.b) :
    exec .padd s =
      .next (s.completePoint ((jadd Config.idJac (pointOf s.block.a) (pointOf s.block.b)).map ofField)) := by
  have hst : fieldStatus (tripleRegs s.block.a ++ tripleRegs s.block.b) = .specified := by
    rw [fieldStatus_specified_iff]
    simpa [tripleRegs, and_assoc] using And.intro ha hb
  change execPadd s = _
  rw [execPadd_eq, hst, State.runPoint]

/-- A written operand of `p` or more stops a check of field operands (rule R23). -/
theorem fieldStatus_of_bad {rs : List Reg} (h : ∃ r ∈ rs, r.bad = true) : fieldStatus rs = .nonCanonical := by
  rw [fieldStatus_nonCanonical_iff]
  simpa [Reg.bad] using h

theorem exec_pdbl_refused (h : ∃ r ∈ tripleRegs s.block.a, r.bad = true) :
    exec .pdbl s = .refused .nonCanonicalOperand := by
  change execPdbl s = _
  rw [execPdbl_eq, fieldStatus_of_bad h, State.runPoint]

theorem exec_padd_refused (h : ∃ r ∈ tripleRegs s.block.a ++ tripleRegs s.block.b, r.bad = true) :
    exec .padd s = .refused .nonCanonicalOperand := by
  change execPadd s = _
  rw [execPadd_eq, fieldStatus_of_bad h, State.runPoint]

end Commands

/-- Settles O35: in each branch of rule R75 the result registers hold the triple that `jdbl` computes. -/
theorem pdblDoublesByTheFormulas : Obligations.PdblDoublesByTheFormulas := by
  intro s
  refine ⟨fun ha => ?_, exec_pdbl_refused⟩
  have hexec := exec_pdbl_specified ha
  have hcompletes := exec_pdbl_completesPoint hexec
  refine ⟨_, hexec, hcompletes.pointFrame, fun hdeg => ?_, fun hz hy => ⟨hcompletes.result, ?_⟩⟩
  · rw [jdbl_of_degenerate (hdeg.imp (toField_eq_zero_iff _).mpr (toField_eq_zero_iff _).mpr)]
    rfl
  · have hz' := (toField_eq_zero_iff _).not.mpr hz
    have hy' := (toField_eq_zero_iff _).not.mpr hy
    have hR := pointOf_completePoint s (canonicalPoint_doubleGeneral (pointOf s.block.a))
    rw [jdbl_of_regular hz' hy']
    generalize s.completePoint _ = t at hR
    have hzR := doubleGeneral_z_ne_zero (canonicalPoint_pointOf ha) hz' hy'
    rw [← hR] at hzR
    have hxC := doubleGeneral_x_cast (pointOf s.block.a)
    have hyC := doubleGeneral_y_cast (pointOf s.block.a)
    have hzC := doubleGeneral_z_cast (pointOf s.block.a)
    rw [← hR] at hxC hyC hzC
    exact ⟨(toField_eq_zero_iff _).not.mp hzR, hxC, hyC, hzC⟩

/-- Settles O36: in each branch of rule R77 the result registers hold the triple that `jadd` computes. -/
theorem paddAddsByTheFormulas : Obligations.PaddAddsByTheFormulas := by
  intro s
  refine ⟨fun ha hb => ?_, exec_padd_refused⟩
  have hexec := exec_padd_specified ha hb
  have hcompletes := exec_padd_completesPoint hexec
  refine ⟨_, hexec, hcompletes.pointFrame, hcompletes.result, fun hz => ?_, fun hz1 hz2 => ?_, fun hz1 hz2 => ?_⟩
  · rw [jadd_identity_left _ _ _ ((toField_eq_zero_iff _).mpr hz), map_seen_of_goodPoint hb]
    rfl
  · rw [jadd_identity_right ((toField_eq_zero_iff _).not.mpr hz1) ((toField_eq_zero_iff _).mpr hz2),
      map_seen_of_goodPoint ha]
    rfl
  · have hP := (toField_eq_zero_iff _).not.mpr hz1
    have hQ := (toField_eq_zero_iff _).not.mpr hz2
    have hX := normX_eq_iff (pointOf s.block.a) (pointOf s.block.b)
    have hY := normY_eq_iff (pointOf s.block.a) (pointOf s.block.b)
    refine ⟨fun hH hR => ?_, fun hH hR => ?_, fun hH => ?_⟩
    · rw [jadd_of_inverse hP hQ (hX.mpr (sub_eq_zero.mp hH).symm) fun h => hR (sub_eq_zero.mpr (hY.mp h).symm)]
      rfl
    · rw [jadd_of_same hP hQ (hX.mpr (sub_eq_zero.mp hH).symm) (hY.mpr (sub_eq_zero.mp hR).symm)]
      exact exec_pdbl_specified ha
    · have hne := mt hX.mp fun h => hH (sub_eq_zero.mpr h.symm)
      have hR := pointOf_completePoint s (canonicalPoint_addGeneral (pointOf s.block.a) (pointOf s.block.b))
      rw [jadd_of_normX_ne hP hQ hne]
      generalize s.completePoint _ = t at hR
      have hzR := addGeneral_z_ne_zero (canonicalPoint_pointOf ha) (canonicalPoint_pointOf hb) hP hQ hne
      have hxC := addGeneral_x_cast (pointOf s.block.a) (pointOf s.block.b)
      have hyC := addGeneral_y_cast (pointOf s.block.a) (pointOf s.block.b)
      have hzC := addGeneral_z_cast (pointOf s.block.a) (pointOf s.block.b)
      rw [← hR] at hzR
      simp only [normX_cast, normY_cast, ← hR] at hxC hyC hzC
      exact ⟨(toField_eq_zero_iff _).not.mp hzR, hxC, hyC, hzC⟩

/-! ### The other order of the operands (rule R77, note 4) -/

theorem addGeneral_swap_cast (P Q : Triple Nat) :
    ((addGeneral Q P).x : ZMod Config.p) = (addGeneral P Q).x ∧
    ((addGeneral Q P).y : ZMod Config.p) = -(addGeneral P Q).y ∧
    ((addGeneral Q P).z : ZMod Config.p) = -(addGeneral P Q).z := by
  have hx : ((addGeneral Q P).x : ZMod Config.p) = (addGeneral P Q).x := by
    rw [addGeneral_x_cast, addGeneral_x_cast]
    ring
  refine ⟨hx, ?_, ?_⟩
  · rw [addGeneral_y_cast, addGeneral_y_cast, hx, addGeneral_x_cast]
    ring
  · rw [addGeneral_z_cast, addGeneral_z_cast]
    ring

/-- The residue of a negation (rule R62). -/
theorem eq_fsub_zero_of_cast {a b : Nat} (ha : a < Config.p) (h : (a : ZMod Config.p) = -b) : a = fsub 0 b :=
  eq_of_cast_eq ha (fsub_lt 0 b) (by rw [h, fsub_cast, Nat.cast_zero, zero_sub])

/-- Settles O37, by `addGeneral_swap_cast`. -/
theorem swappedOperandsNegateYAndZ : Obligations.SwappedOperandsNegateYAndZ := by
  intro P Q hP hQ hPz hQz hx
  obtain ⟨hsx, hsy, hsz⟩ := addGeneral_swap_cast P Q
  obtain ⟨hxlt, hylt, hzlt⟩ := canonicalPoint_addGeneral P Q
  obtain ⟨hxlt', hylt', hzlt'⟩ := canonicalPoint_addGeneral Q P
  have hnegY := eq_fsub_zero_of_cast hylt' hsy
  have hnegZ := eq_fsub_zero_of_cast hzlt' hsz
  rw [jadd_of_normX_ne hPz hQz hx, jadd_of_normX_ne hQz hPz hx.symm]
  refine ⟨eq_of_cast_eq hxlt' hxlt hsx, hnegY, fun hy => ?_, ?_⟩
  · rw [hnegY, fsub_zero_left hylt, if_neg hy]
  · rw [hnegZ, fsub_zero_left hzlt, if_neg (addGeneral_z_ne_zero hP hQ hPz hQz hx)]

/-! ### Affine points by residues (rules R101, R104 and R111) -/

/-- The field element of a residue (rule R60). -/
def element (x : ZMod Config.p) : FieldElement :=
  ⟨x.val, have := NeZero.of_pos p_pos; x.val_lt⟩

@[simp] theorem element_cast (x : ZMod Config.p) : ((element x).val : ZMod Config.p) = x :=
  have := NeZero.of_pos p_pos
  ZMod.natCast_zmod_val x

theorem eq_element_of_cast {e : FieldElement} {x : ZMod Config.p} (h : (e.val : ZMod Config.p) = x) : e = element x :=
  Fin.ext (eq_of_cast_eq e.isLt (element x).isLt (by rw [h, element_cast]))

theorem element_inj {x y : ZMod Config.p} : element x = element y ↔ x = y :=
  ⟨fun h => by rw [← element_cast x, h, element_cast], congrArg _⟩

/-- The affine point with the given coordinates. -/
def Affine.ofCoords (x y : ZMod Config.p) : Affine := .point (element x) (element y)

/-- The third point on the line of slope `l` through two points, reflected (rule R111). -/
def Affine.ofSlope (l x1 y1 x2 : ZMod Config.p) : Affine :=
  .ofCoords (l ^ 2 - x1 - x2) (l * (x1 - (l ^ 2 - x1 - x2)) - y1)

theorem affineFromSlope_eq_ofSlope (l x1 y1 x2 : Nat) : affineFromSlope l x1 y1 x2 = .ofSlope l x1 y1 x2 := by
  have hx : subElement (fsub (fsqr l) x1) x2 = element ((l : ZMod Config.p) ^ 2 - x1 - x2) :=
    eq_element_of_cast (by simp)
  simp only [affineFromSlope, Affine.ofSlope, Affine.ofCoords, hx, Affine.point.injEq, true_and]
  exact eq_element_of_cast (by simp)

theorem fadd_eq_zero_iff (a b : Nat) : fadd a b = 0 ↔ (a + b : ZMod Config.p) = 0 := by
  rw [← cast_eq_zero_iff (fadd_lt a b), fadd_cast]

@[simp] theorem affineAdd_infinity_left (Q : Affine) : affineAdd .infinity Q = Q := by
  cases Q <;> rfl

@[simp] theorem affineAdd_infinity_right (P : Affine) : affineAdd P .infinity = P := by
  cases P <;> rfl

theorem affineAdd_of_inverse {x y1 y2 : ZMod Config.p} (h : y1 + y2 = 0) :
    affineAdd (.ofCoords x y1) (.ofCoords x y2) = .infinity := by
  simp [Affine.ofCoords, affineAdd, fadd_eq_zero_iff, h]

theorem toAffine_of_z_eq_zero {P : Triple Nat} (h : P.z = 0) : toAffine P = .infinity := by
  simp [toAffine, isId, h]

theorem toAffine_idJac : toAffine Config.idJac = .infinity := toAffine_of_z_eq_zero rfl

/-- The power `p - 2` is the inverse (rule R103). -/
theorem finv_cast [Fact (Nat.Prime Config.p)] (a : Nat) : (finv a : ZMod Config.p) = (a : ZMod Config.p)⁻¹ := by
  have hexp : Config.p - 2 < 2 ^ 256 := by decide
  have hsucc : Config.p - 2 + 1 = Config.p - 1 := by decide
  rw [finv, powMod_eq _ _ _ _ hexp, ZMod.natCast_mod, Nat.cast_pow]
  rcases eq_or_ne (a : ZMod Config.p) 0 with h | h
  · rw [h, zero_pow (by decide), inv_zero]
  · refine eq_inv_of_mul_eq_one_left ?_
    rw [← pow_succ, hsucc, ZMod.pow_card_sub_one_eq_one h]

/-! ### Triples and their affine coordinates (rules R74 and R104) -/

/-- The triple is no identity and has the affine coordinates `x` and `y` (rule R74). -/
structure HasCoords (P : Triple Nat) (x y : ZMod Config.p) : Prop where
  cast_z_ne_zero : (P.z : ZMod Config.p) ≠ 0
  x_eq : (P.x : ZMod Config.p) = x * P.z ^ 2
  y_eq : (P.y : ZMod Config.p) = y * P.z ^ 3

section Coordinates

variable [Fact (Nat.Prime Config.p)] {P Q : Triple Nat} {x y x1 y1 x2 y2 : ZMod Config.p}

theorem HasCoords.z_ne_zero (h : HasCoords P x y) : P.z ≠ 0 :=
  fun hz => h.cast_z_ne_zero (by rw [hz, Nat.cast_zero])

/-- The affine image divides X by `Z^2` and Y by `Z^3` (rule R104). -/
theorem HasCoords.toAffine_eq (h : HasCoords P x y) : toAffine P = .ofCoords x y := by
  have hid : isId P = false := decide_eq_false h.z_ne_zero
  have hX : mulElement P.x (fsqr (finv P.z)) = element x := by
    refine eq_element_of_cast ?_
    rw [mulElement_val, fmul_cast, fsqr_cast, finv_cast, h.x_eq]
    field_simp [h.cast_z_ne_zero]
  have hY : mulElement P.y (fmul (fsqr (finv P.z)) (finv P.z)) = element y := by
    refine eq_element_of_cast ?_
    rw [mulElement_val, fmul_cast, fmul_cast, fsqr_cast, finv_cast, h.y_eq]
    field_simp [h.cast_z_ne_zero]
  rw [toAffine, hid, if_neg Bool.false_ne_true]
  exact congrArg₂ Affine.point hX hY

theorem exists_hasCoords (hP : canonicalPoint P) (hz : P.z ≠ 0) : ∃ x y, HasCoords P x y := by
  obtain ⟨-, -, hzlt⟩ := hP
  have hZ := (cast_ne_zero_iff hzlt).mpr hz
  exact ⟨_, _, hZ, (div_mul_cancel₀ _ (pow_ne_zero 2 hZ)).symm, (div_mul_cancel₀ _ (pow_ne_zero 3 hZ)).symm⟩

theorem HasCoords.y_eq_zero_iff (h : HasCoords P x y) (hP : canonicalPoint P) : P.y = 0 ↔ y = 0 := by
  obtain ⟨-, hylt, -⟩ := hP
  rw [← cast_eq_zero_iff hylt, h.y_eq, mul_eq_zero, or_iff_left (pow_ne_zero 3 h.cast_z_ne_zero)]

/-- The normalised X agree exactly when the affine ones do (rule R77). -/
theorem HasCoords.normX_eq_iff (h1 : HasCoords P x1 y1) (h2 : HasCoords Q x2 y2) :
    normX P Q = normX Q P ↔ x1 = x2 := by
  have hZ : (P.z ^ 2 * Q.z ^ 2 : ZMod Config.p) ≠ 0 :=
    mul_ne_zero (pow_ne_zero 2 h1.cast_z_ne_zero) (pow_ne_zero 2 h2.cast_z_ne_zero)
  rw [Machine.normX_eq_iff, h1.x_eq, h2.x_eq, mul_assoc, mul_assoc, mul_comm ((Q.z : ZMod Config.p) ^ 2),
    mul_left_inj' hZ]

/-- The normalised Y agree exactly when the affine ones do (rule R77). -/
theorem HasCoords.normY_eq_iff (h1 : HasCoords P x1 y1) (h2 : HasCoords Q x2 y2) :
    normY P Q = normY Q P ↔ y1 = y2 := by
  have hZ : (P.z ^ 3 * Q.z ^ 3 : ZMod Config.p) ≠ 0 :=
    mul_ne_zero (pow_ne_zero 3 h1.cast_z_ne_zero) (pow_ne_zero 3 h2.cast_z_ne_zero)
  rw [Machine.normY_eq_iff, h1.y_eq, h2.y_eq, mul_assoc, mul_assoc, mul_comm ((Q.z : ZMod Config.p) ^ 3),
    mul_left_inj' hZ]

/-- The curve equation without inversion is the one of the affine coordinates (rules R79 and R81). -/
theorem HasCoords.onCurveJacobian_iff (h : HasCoords P x y) : onCurveJacobian P ↔ y ^ 2 = x ^ 3 + 7 := by
  have hscaled : onCurveJacobian P ↔ y ^ 2 * (P.z : ZMod Config.p) ^ 6 = (x ^ 3 + 7) * P.z ^ 6 := by
    rw [onCurveJacobian, or_iff_right h.z_ne_zero, ← cast_eq_cast_iff (fsqr_lt _) (fadd_lt _ _)]
    simp only [fsqr_cast, fadd_cast, fmul_cast, h.x_eq, h.y_eq, Nat.cast_ofNat]
    ring_nf
  rw [hscaled, mul_left_inj' (pow_ne_zero 6 h.cast_z_ne_zero)]

/-- Triples with the same affine coordinates: the doubling branch (rule R77). -/
theorem HasCoords.jadd_of_same (h1 : HasCoords P x y) (h2 : HasCoords Q x y) (idJac : Triple Nat) :
    jadd idJac P Q = jdbl idJac P :=
  Machine.jadd_of_same h1.z_ne_zero h2.z_ne_zero ((h1.normX_eq_iff h2).mpr rfl) ((h1.normY_eq_iff h2).mpr rfl)

/-- Triples that differ in the affine Y alone: the inverse branch (rule R77). -/
theorem HasCoords.jadd_of_y_ne (h1 : HasCoords P x y1) (h2 : HasCoords Q x y2) (hy : y1 ≠ y2) (idJac : Triple Nat) :
    jadd idJac P Q = idJac :=
  jadd_of_inverse h1.z_ne_zero h2.z_ne_zero ((h1.normX_eq_iff h2).mpr rfl) ((h1.normY_eq_iff h2).not.mpr hy)

/-- Triples that differ in the affine X: the general branch (rule R77). -/
theorem HasCoords.jadd_of_x_ne (h1 : HasCoords P x1 y1) (h2 : HasCoords Q x2 y2) (hx : x1 ≠ x2) (idJac : Triple Nat) :
    jadd idJac P Q = addGeneral P Q :=
  jadd_of_normX_ne h1.z_ne_zero h2.z_ne_zero ((h1.normX_eq_iff h2).not.mpr hx)

/-- Scaling by `k` keeps the affine coordinates (rule R74). -/
theorem HasCoords.scale (h : HasCoords P x y) {k : Nat} (hk : (k : ZMod Config.p) ≠ 0) :
    HasCoords ⟨fmul (fsqr k) P.x, fmul (fmul (fsqr k) k) P.y, fmul k P.z⟩ x y where
  cast_z_ne_zero := by rw [fmul_cast]; exact mul_ne_zero hk h.cast_z_ne_zero
  x_eq := by rw [fmul_cast, fmul_cast, fsqr_cast, h.x_eq]; ring
  y_eq := by rw [fmul_cast, fmul_cast, fmul_cast, fsqr_cast, h.y_eq]; ring

/-- Negating the Y of a triple negates the affine Y. -/
theorem HasCoords.neg (h : HasCoords P x y) : HasCoords ⟨P.x, fsub 0 P.y, P.z⟩ x (-y) where
  cast_z_ne_zero := h.cast_z_ne_zero
  x_eq := h.x_eq
  y_eq := by rw [fsub_cast, h.y_eq]; ring

end Coordinates

/-- Settles O38: a scaled representative has the affine coordinates of the point, and negated those of its inverse. -/
theorem samePointDoublesAndInversePointCancels : Obligations.SamePointDoublesAndInversePointCancels := by
  have := Fact.mk p_prime
  intro P k hP hz hk hkp
  obtain ⟨x, y, h⟩ := exists_hasCoords hP hz
  have hscaled := h.scale ((cast_ne_zero_iff hkp).mpr hk.ne')
  refine ⟨h.jadd_of_same hscaled _, fun hy => h.jadd_of_y_ne hscaled.neg (fun hneg => ?_) _⟩
  have hy0 := (h.y_eq_zero_iff hP).not.mp hy
  exact mul_ne_zero two_ne_zero_mod_p hy0 (by linear_combination hneg)

/-! ### The formulas are the tangent and the chord of the affine reference (rules R76, R78, R79 and R111) -/

section Refinement

variable [Fact (Nat.Prime Config.p)] {P Q : Triple Nat} {x y x1 y1 x2 y2 l : ZMod Config.p}

/-- The tangent of the affine reference: its slope `l` has `l * 2y = 3x^2`. -/
theorem affineAdd_of_same (hy : 2 * y ≠ 0) (hl : l * (2 * y) = 3 * x ^ 2) :
    affineAdd (.ofCoords x y) (.ofCoords x y) = .ofSlope l x y x := by
  have hsum : fadd (element y).val (element y).val ≠ 0 := by
    rwa [Ne, fadd_eq_zero_iff, element_cast, ← two_mul]
  rw [Affine.ofCoords, affineAdd, if_neg fun hinv => hsum hinv.2, if_pos ⟨rfl, rfl⟩, affineFromSlope_eq_ofSlope,
    fmul_cast, finv_cast, ftpl_cast, fsqr_cast, fdbl_cast, element_cast, element_cast, ← div_eq_mul_inv, ← hl,
    mul_div_cancel_right₀ l hy]

/-- The chord of the affine reference: its slope `l` has `l * (x2 - x1) = y2 - y1`. -/
theorem affineAdd_of_x_ne (hx : x1 ≠ x2) (hl : l * (x2 - x1) = y2 - y1) :
    affineAdd (.ofCoords x1 y1) (.ofCoords x2 y2) = .ofSlope l x1 y1 x2 := by
  have hne : element x1 ≠ element x2 := element_inj.not.mpr hx
  rw [Affine.ofCoords, Affine.ofCoords, affineAdd, if_neg fun hinv => hne hinv.1, if_neg fun hsame => hne hsame.1,
    affineFromSlope_eq_ofSlope, fmul_cast, finv_cast, fsub_cast, fsub_cast, element_cast, element_cast, element_cast,
    element_cast, ← div_eq_mul_inv, ← hl, mul_div_cancel_right₀ l (sub_ne_zero.mpr hx.symm)]

theorem HasCoords.toAffine_doubleGeneral (h : HasCoords P x y) (hy : 2 * y ≠ 0) (hl : l * (2 * y) = 3 * x ^ 2) :
    toAffine (doubleGeneral P) = .ofSlope l x y x := by
  have hM : (3 * P.x ^ 2 : ZMod Config.p) = l * (2 * y) * P.z ^ 4 := by
    rw [h.x_eq, hl]
    ring
  have hz3 : ((doubleGeneral P).z : ZMod Config.p) = 2 * y * P.z ^ 4 := by
    rw [doubleGeneral_z_cast, h.y_eq]
    ring
  have hx3 : ((doubleGeneral P).x : ZMod Config.p) = (l ^ 2 - x - x) * (doubleGeneral P).z ^ 2 := by
    rw [doubleGeneral_x_cast, hz3, hM, h.x_eq, h.y_eq]
    ring
  have hy3 : ((doubleGeneral P).y : ZMod Config.p) = (l * (x - (l ^ 2 - x - x)) - y) * (doubleGeneral P).z ^ 3 := by
    rw [doubleGeneral_y_cast, hx3, hz3, hM, h.x_eq, h.y_eq]
    ring
  exact HasCoords.toAffine_eq ⟨hz3 ▸ mul_ne_zero hy (pow_ne_zero 4 h.cast_z_ne_zero), hx3, hy3⟩

theorem HasCoords.toAffine_addGeneral (h1 : HasCoords P x1 y1) (h2 : HasCoords Q x2 y2) (hx : x1 ≠ x2)
    (hl : l * (x2 - x1) = y2 - y1) : toAffine (addGeneral P Q) = .ofSlope l x1 y1 x2 := by
  obtain rfl : y2 = y1 + l * (x2 - x1) := by rw [hl, add_sub_cancel]
  have hz3 : ((addGeneral P Q).z : ZMod Config.p) = (x2 - x1) * (P.z * Q.z) ^ 3 := by
    rw [addGeneral_z_cast, normX_cast, normX_cast, h1.x_eq, h2.x_eq]
    ring
  have hx3 : ((addGeneral P Q).x : ZMod Config.p) = (l ^ 2 - x1 - x2) * (addGeneral P Q).z ^ 2 := by
    rw [addGeneral_x_cast, hz3, normX_cast, normX_cast, normY_cast, normY_cast, h1.x_eq, h1.y_eq, h2.x_eq, h2.y_eq]
    ring
  have hy3 : ((addGeneral P Q).y : ZMod Config.p) =
      (l * (x1 - (l ^ 2 - x1 - x2)) - y1) * (addGeneral P Q).z ^ 3 := by
    rw [addGeneral_y_cast, hx3, hz3, normX_cast, normX_cast, normY_cast, normY_cast, h1.x_eq, h1.y_eq, h2.x_eq,
      h2.y_eq]
    ring
  refine HasCoords.toAffine_eq ⟨hz3 ▸ mul_ne_zero (sub_ne_zero.mpr hx.symm) (pow_ne_zero 3 ?_), hx3, hy3⟩
  exact mul_ne_zero h1.cast_z_ne_zero h2.cast_z_ne_zero

/-- Jacobian doubling is affine doubling, on the curve or not. -/
theorem toAffine_jdbl (hP : canonicalPoint P) :
    toAffine (jdbl Config.idJac P) = affineAdd (toAffine P) (toAffine P) := by
  by_cases hz : P.z = 0
  · rw [jdbl_of_degenerate (.inl hz), toAffine_idJac, toAffine_of_z_eq_zero hz, affineAdd_infinity_left]
  obtain ⟨x, y, h⟩ := exists_hasCoords hP hz
  rw [h.toAffine_eq]
  by_cases hy : P.y = 0
  · have hy0 : y = 0 := (h.y_eq_zero_iff hP).mp hy
    rw [jdbl_of_degenerate (.inr hy), toAffine_idJac, affineAdd_of_inverse (by rw [hy0, add_zero])]
  · have h2y : 2 * y ≠ 0 := mul_ne_zero two_ne_zero_mod_p ((h.y_eq_zero_iff hP).not.mp hy)
    have hl := div_mul_cancel₀ (3 * x ^ 2) h2y
    rw [jdbl_of_regular hz hy, h.toAffine_doubleGeneral h2y hl, affineAdd_of_same h2y hl]

/-- Jacobian addition of points of the curve is affine addition: there, points with one X and different Y are inverse. -/
theorem toAffine_jadd (hP : canonicalPoint P) (hQ : canonicalPoint Q) (hPc : onCurveJacobian P)
    (hQc : onCurveJacobian Q) :
    toAffine (jadd Config.idJac P Q) = affineAdd (toAffine P) (toAffine Q) := by
  by_cases hPz : P.z = 0
  · rw [jadd_identity_left _ _ _ hPz, toAffine_of_z_eq_zero hPz, affineAdd_infinity_left]
  by_cases hQz : Q.z = 0
  · rw [jadd_identity_right hPz hQz, toAffine_of_z_eq_zero hQz, affineAdd_infinity_right]
  obtain ⟨x1, y1, h1⟩ := exists_hasCoords hP hPz
  obtain ⟨x2, y2, h2⟩ := exists_hasCoords hQ hQz
  rw [h1.toAffine_eq, h2.toAffine_eq]
  by_cases hx : x1 = x2
  · obtain rfl := hx
    by_cases hy : y1 = y2
    · obtain rfl := hy
      rw [h1.jadd_of_same h2, toAffine_jdbl hP, h1.toAffine_eq]
    · have hsquares : y1 ^ 2 = y2 ^ 2 :=
        (h1.onCurveJacobian_iff.mp hPc).trans (h2.onCurveJacobian_iff.mp hQc).symm
      have hneg : y1 = -y2 := (sq_eq_sq_iff_eq_or_eq_neg.mp hsquares).resolve_left hy
      rw [h1.jadd_of_y_ne h2 hy, toAffine_idJac, affineAdd_of_inverse (by rw [hneg, neg_add_cancel])]
  · have hl := div_mul_cancel₀ (y2 - y1) (sub_ne_zero.mpr (Ne.symm hx))
    rw [h1.jadd_of_x_ne h2 hx, h1.toAffine_addGeneral h2 hx hl, affineAdd_of_x_ne hx hl]

end Refinement

/-- Settles O39. -/
theorem doublingRefinesAffineAddition : Obligations.DoublingRefinesAffineAddition :=
  have := Fact.mk p_prime
  fun _ hP => toAffine_jdbl hP

/-- Settles O40. -/
theorem additionRefinesAffineAddition : Obligations.AdditionRefinesAffineAddition :=
  have := Fact.mk p_prime
  fun _ _ hP hQ hPc hQc => toAffine_jadd hP hQ hPc hQc

/-! ### The group of the curve

The sums of the host's reference are those of Mathlib's group of points of `y^2 = x^3 + 7`, so the points of the curve are
closed under them and obey the laws of a commutative group (rule R79). -/

/-- The curve of rule R2, `y^2 = x^3 + 7` over the integers modulo `p`. -/
def secp256k1 : WeierstrassCurve.Affine (ZMod Config.p) := ⟨0, 0, 0, 0, 7⟩

theorem secp256k1_equation_iff (x y : ZMod Config.p) : secp256k1.Equation x y ↔ y ^ 2 = x ^ 3 + 7 := by
  rw [WeierstrassCurve.Affine.equation_iff]
  simp [secp256k1]

/-- The curve has no singular point: its discriminant is `-432 * 7^2`, and `p` does not divide that. -/
theorem secp256k1_discriminant_ne_zero : secp256k1.Δ ≠ 0 := by
  have hvalue : secp256k1.Δ = -((21168 : Nat) : ZMod Config.p) := by
    simp only [secp256k1, WeierstrassCurve.Δ, WeierstrassCurve.b₂, WeierstrassCurve.b₄, WeierstrassCurve.b₆]
    push_cast
    ring
  rw [hvalue, neg_ne_zero]
  exact (cast_ne_zero_iff (by decide)).mpr (by decide)

/-- The affine point that a point of the group is (rule R101). -/
def Affine.ofCurve : secp256k1.Point → Affine
  | .zero => .infinity
  | .some x y _ => .ofCoords x y

@[simp] theorem Affine.ofCurve_zero : Affine.ofCurve 0 = .infinity := rfl

@[simp] theorem Affine.ofCurve_some {x y : ZMod Config.p} (h : secp256k1.Nonsingular x y) :
    Affine.ofCurve (.some x y h) = .ofCoords x y := rfl

theorem eq_zero_of_ofCurve_eq_infinity {S : secp256k1.Point} (h : Affine.ofCurve S = .infinity) : S = 0 := by
  cases S with
  | zero => rfl
  | some x y hS => cases h

section Group

variable [Fact (Nat.Prime Config.p)]

/-- Every point of the curve is a point of the group. -/
theorem secp256k1_nonsingular_iff (x y : ZMod Config.p) : secp256k1.Nonsingular x y ↔ y ^ 2 = x ^ 3 + 7 := by
  rw [← WeierstrassCurve.Affine.equation_iff_nonsingular_of_Δ_ne_zero secp256k1_discriminant_ne_zero,
    secp256k1_equation_iff]

theorem ofSlope_eq_ofCurve {x1 y1 x2 l : ZMod Config.p}
    (h : secp256k1.Nonsingular (secp256k1.addX x1 x2 l) (secp256k1.addY x1 x2 y1 l)) :
    Affine.ofSlope l x1 y1 x2 = .ofCurve (.some _ _ h) := by
  rw [Affine.ofSlope, Affine.ofCurve_some]
  congr 1
  · simp [secp256k1]
  · simp [secp256k1, WeierstrassCurve.Affine.addY]
    ring

/-- The host's affine addition is the addition of the group. -/
theorem affineAdd_ofCurve (S T : secp256k1.Point) : affineAdd (.ofCurve S) (.ofCurve T) = .ofCurve (S + T) := by
  cases S with
  | zero => rw [← WeierstrassCurve.Affine.Point.zero_def, zero_add, Affine.ofCurve_zero, affineAdd_infinity_left]
  | some x1 y1 hS => ?_
  cases T with
  | zero => rw [← WeierstrassCurve.Affine.Point.zero_def, add_zero, Affine.ofCurve_zero, affineAdd_infinity_right]
  | some x2 y2 hT => ?_
  have hneg : secp256k1.negY x2 y2 = -y2 := by simp [secp256k1]
  by_cases hx : x1 = x2
  · by_cases hy : y1 = secp256k1.negY x2 y2
    · rw [WeierstrassCurve.Affine.Point.add_of_Y_eq hx hy, Affine.ofCurve_some, Affine.ofCurve_some, hx,
        affineAdd_of_inverse (by rw [hy, hneg, neg_add_cancel]), Affine.ofCurve_zero]
    · obtain rfl := WeierstrassCurve.Affine.Y_eq_of_Y_ne hS.1 hT.1 hx hy
      obtain rfl := hx
      have h2y : 2 * y1 ≠ 0 := fun h0 => hy (by rw [hneg]; linear_combination h0)
      have hl : secp256k1.slope x1 x1 y1 y1 * (2 * y1) = 3 * x1 ^ 2 := by
        rw [WeierstrassCurve.Affine.slope_of_Y_ne rfl hy, hneg, sub_neg_eq_add, ← two_mul, div_mul_cancel₀ _ h2y]
        simp [secp256k1]
      rw [WeierstrassCurve.Affine.Point.add_of_Y_ne hy, Affine.ofCurve_some, affineAdd_of_same h2y hl]
      exact ofSlope_eq_ofCurve _
  · have hl : secp256k1.slope x1 x2 y1 y2 * (x2 - x1) = y2 - y1 := by
      rw [WeierstrassCurve.Affine.slope_of_X_ne hx, ← neg_sub x1 x2, mul_neg,
        div_mul_cancel₀ _ (sub_ne_zero.mpr hx), neg_sub]
    rw [WeierstrassCurve.Affine.Point.add_of_X_ne hx, Affine.ofCurve_some, Affine.ofCurve_some,
      affineAdd_of_x_ne hx hl]
    exact ofSlope_eq_ofCurve _

/-- A triple is on the curve exactly when its affine image is a point of the group (rule R79). -/
theorem onCurveJacobian_iff_exists_point {P : Triple Nat} (hP : canonicalPoint P) :
    onCurveJacobian P ↔ ∃ S, toAffine P = .ofCurve S := by
  by_cases hz : P.z = 0
  · exact iff_of_true (.inl hz) ⟨0, toAffine_of_z_eq_zero hz⟩
  obtain ⟨x, y, h⟩ := exists_hasCoords hP hz
  rw [h.onCurveJacobian_iff, h.toAffine_eq]
  constructor
  · intro hc
    exact ⟨.some x y ((secp256k1_nonsingular_iff x y).mpr hc), rfl⟩
  · rintro ⟨S, hS⟩
    cases S with
    | zero => cases hS
    | some x' y' hN =>
      obtain ⟨hx, hy⟩ := Affine.point.inj hS
      rw [element_inj.mp hx, element_inj.mp hy]
      exact (secp256k1_nonsingular_iff x' y').mp hN

end Group

/-! ### Triples as representatives of points of the group -/

/-- The triple is canonical and represents the point `S` of the group. -/
structure Represents (P : Triple Nat) (S : secp256k1.Point) : Prop where
  canonical : canonicalPoint P
  image : toAffine P = .ofCurve S

theorem represents_idJac : Represents Config.idJac 0 := ⟨canonicalPoint_idJac, toAffine_idJac⟩

theorem Represents.eq_zero_of_z_eq_zero {P : Triple Nat} {S : secp256k1.Point} (h : Represents P S) (hz : P.z = 0) :
    S = 0 :=
  eq_zero_of_ofCurve_eq_infinity (h.image.symm.trans (toAffine_of_z_eq_zero hz))

section Representatives

variable [Fact (Nat.Prime Config.p)] {P Q : Triple Nat} {S T : secp256k1.Point} {bucket : Nat → Triple Nat}
  {points : Nat → secp256k1.Point} {n : Nat}

theorem Represents.onCurve (h : Represents P S) : onCurveJacobian P :=
  (onCurveJacobian_iff_exists_point h.canonical).mpr ⟨S, h.image⟩

theorem exists_represents (hP : canonicalPoint P) (hc : onCurveJacobian P) : ∃ S, Represents P S := by
  obtain ⟨S, hS⟩ := (onCurveJacobian_iff_exists_point hP).mp hc
  exact ⟨S, hP, hS⟩

/-- Doubling represents the double (rules R76 and R79). -/
theorem Represents.double (h : Represents P S) : Represents (jdbl Config.idJac P) (S + S) :=
  ⟨canonicalPoint_jdbl P, by rw [toAffine_jdbl h.canonical, h.image, affineAdd_ofCurve]⟩

/-- Addition represents the sum (rules R78 and R79). -/
theorem Represents.add (h1 : Represents P S) (h2 : Represents Q T) : Represents (jadd Config.idJac P Q) (S + T) := by
  refine ⟨canonicalPoint_jadd h1.canonical h2.canonical, ?_⟩
  rw [toAffine_jadd h1.canonical h2.canonical h1.onCurve h2.onCurve, h1.image, h2.image, affineAdd_ofCurve]

/-- A bucket array on the curve, as an array of points of the group. -/
theorem exists_points (hb : ∀ b, 1 ≤ b → b ≤ n → canonicalPoint (bucket b) ∧ onCurveJacobian (bucket b)) :
    ∃ points : Nat → secp256k1.Point, ∀ b, 1 ≤ b → b ≤ n → Represents (bucket b) (points b) := by
  have hpoint (b : Nat) : ∃ S, 1 ≤ b → b ≤ n → Represents (bucket b) S := by
    by_cases h : 1 ≤ b ∧ b ≤ n
    · obtain ⟨hcanon, hcurve⟩ := hb b h.1 h.2
      obtain ⟨S, hS⟩ := exists_represents hcanon hcurve
      exact ⟨S, fun _ _ => hS⟩
    · exact ⟨0, fun h1 h2 => absurd ⟨h1, h2⟩ h⟩
  exact ⟨fun b => (hpoint b).choose, fun b => (hpoint b).choose_spec⟩

end Representatives

/-! ### The two reducers compute the weighted sum (rules R90, R91, R92 and R95) -/

/-- Rule R92's argument, for any values in a commutative monoid that the addition adds: after the entries `n` down to 1,
`running` has been added to `result` once an entry, and entry `b` as many times as its index says. -/
theorem runningScan_sum {α G : Type} [AddCommMonoid G] {add : α → α → α} {rep : α → G → Prop}
    (hadd : ∀ x y g h, rep x g → rep y h → rep (add x y) (g + h)) {bucket : Nat → α} {value : Nat → G} {n : Nat}
    (hb : ∀ b, 1 ≤ b → b ≤ n → rep (bucket b) (value b)) {acc : α × α} {g h : G} (hrun : rep acc.1 g)
    (hres : rep acc.2 h) :
    rep (runningScan add bucket n acc).2 (h + n • g + ∑ b ∈ Finset.Icc 1 n, b • value b) := by
  induction n generalizing acc g h with
  | zero => simpa using hres
  | succ n ih =>
    have hrun' := hadd _ _ _ _ hrun (hb (n + 1) (by omega) le_rfl)
    have hscan := ih (acc := (_, _)) (fun b h1 h2 => hb b h1 (by omega)) hrun' (hadd _ _ _ _ hres hrun')
    rw [runningScan_succ, Finset.sum_Icc_succ_top (by omega)]
    convert hscan using 1
    rw [succ_nsmul, succ_nsmul, nsmul_add]
    abel

theorem bucketReduce_sum {α G : Type} [AddCommMonoid G] {add : α → α → α} {rep : α → G → Prop}
    (hadd : ∀ x y g h, rep x g → rep y h → rep (add x y) (g + h)) {identity : α} (hid : rep identity 0)
    {bucket : Nat → α} {value : Nat → G} {n : Nat} (hb : ∀ b, 1 ≤ b → b ≤ n → rep (bucket b) (value b)) :
    rep (bucketReduce add identity bucket n) (∑ b ∈ Finset.Icc 1 n, b • value b) := by
  have hscan := runningScan_sum hadd hb (acc := (identity, identity)) hid hid
  rwa [nsmul_zero, zero_add, zero_add] at hscan

section Reducers

variable [Fact (Nat.Prime Config.p)] {P Q : Triple Nat} {S T : secp256k1.Point} {bucket : Nat → Triple Nat}
  {points : Nat → secp256k1.Point} {n : Nat}

theorem represents_pippengerReduce (hb : ∀ b, 1 ≤ b → b ≤ n → Represents (bucket b) (points b)) :
    Represents (pippengerReduce Config.idJac bucket n) (∑ b ∈ Finset.Icc 1 n, b • points b) :=
  bucketReduce_sum (fun _ _ _ _ => Represents.add) represents_idJac hb

theorem represents_addTimes (n : Nat) (hP : Represents P S) (hQ : Represents Q T) :
    Represents (addTimes Config.idJac P n Q) (T + n • S) := by
  induction n generalizing Q T with
  | zero => simpa [addTimes] using hQ
  | succ n ih =>
    have h := ih (hQ.add hP)
    rwa [add_assoc, ← succ_nsmul'] at h

/-- An empty bucket is left out, which changes nothing (rule R95). -/
theorem represents_explicitShare {b : Nat} (hb : 1 ≤ b) (hP : Represents P T) (hbucket : Represents (bucket b) S) :
    Represents (explicitShare Config.idJac bucket P b) (T + b • S) := by
  unfold explicitShare
  split
  · rename_i hid
    rw [hbucket.eq_zero_of_z_eq_zero (of_decide_eq_true hid), nsmul_zero, add_zero]
    exact hP
  · have h := hP.add (represents_addTimes (b - 1) hbucket hbucket)
    rwa [← succ_nsmul', Nat.sub_add_cancel hb] at h

theorem represents_explicitWeight (hb : ∀ b, 1 ≤ b → b ≤ n → Represents (bucket b) (points b)) :
    Represents (explicitWeight Config.idJac bucket n) (∑ b ∈ Finset.Icc 1 n, b • points b) := by
  induction n with
  | zero => exact represents_idJac
  | succ n ih =>
    have hbelow := ih fun b h1 h2 => hb b h1 (by omega)
    have h := represents_explicitShare (by omega) hbelow (hb (n + 1) (by omega) le_rfl)
    rw [Finset.sum_Icc_succ_top (by omega)]
    rwa [explicitWeight, List.range_succ, List.map_append, List.foldl_append]

end Reducers

/-- Settles O47: both reducers represent the weighted sum of the buckets in the group. -/
theorem runningSumAgreesWithExplicitWeight : Obligations.RunningSumAgreesWithExplicitWeight := by
  have := Fact.mk p_prime
  intro bucket n hb
  obtain ⟨points, hpoints⟩ := exists_points hb
  exact (represents_pippengerReduce hpoints).image.trans (represents_explicitWeight hpoints).image.symm

/-! ### The commands keep points on the curve (rule R79) -/

theorem exec_bred_specified {s : State} {w : Nat} (hw : widthOk w = true)
    (hb : goodBuckets s.block.bkt (lastBucket w)) :
    exec (.bred w) s = .next (s.completePoint
      ((pippengerReduce Config.idJac (bucketPoint s.block.bkt) (lastBucket w)).map ofField)) := by
  rw [exec_bred_eq hw, (bucketStatus_specified_iff _ _).mpr hb, State.runPoint]
  rfl

/-- A completion with a representative of a point of the curve leaves the curve equation in R. -/
theorem onCurve_of_completePoint [Fact (Nat.Prime Config.p)] {s t : State} {a : Answer} {P : Triple Nat}
    {S : secp256k1.Point} (hP : Represents P S) (ha : a = .next (s.completePoint (P.map ofField))) (ht : a = .next t) :
    onCurveJacobian (pointOf t.block.r) := by
  obtain rfl := Host.Outcome.next.inj (ha.symm.trans ht)
  rw [pointOf_completePoint s hP.canonical]
  exact hP.onCurve

/-- Settles O42: each command leaves a representative of a point of the group. -/
theorem onCurveOperandsGiveOnCurveResults : Obligations.OnCurveOperandsGiveOnCurveResults := by
  have := Fact.mk p_prime
  refine ⟨fun s t ha hac ht => ?_, fun s t ha hb hac hbc ht => ?_, fun s t w hw hb hbc ht => ?_⟩
  · obtain ⟨S, hS⟩ := exists_represents (canonicalPoint_pointOf ha) hac
    exact onCurve_of_completePoint hS.double (exec_pdbl_specified ha) ht
  · obtain ⟨S, hS⟩ := exists_represents (canonicalPoint_pointOf ha) hac
    obtain ⟨T, hT⟩ := exists_represents (canonicalPoint_pointOf hb) hbc
    exact onCurve_of_completePoint (hS.add hT) (exec_padd_specified ha hb) ht
  · have hbuckets (b : Nat) (h1 : 1 ≤ b) (h2 : b ≤ lastBucket w) :
        canonicalPoint (bucketPoint s.block.bkt b) ∧ onCurveJacobian (bucketPoint s.block.bkt b) := by
      obtain ⟨e, hr, he⟩ := hb b h1 h2
      exact ⟨canonicalPoint_bucketPoint hr he, hbc b h1 h2⟩
    obtain ⟨points, hpoints⟩ := exists_points hbuckets
    exact onCurve_of_completePoint (represents_pippengerReduce hpoints) (exec_bred_specified hw hb) ht

end Sys2Proof.Machine

/-! PROOFS. The bucket reduction (42_bucket_reduction.md): `BRED` as the loop of rule R91, what it leaves of empty buckets, and
the weighted sum that the loop computes. -/

namespace Sys2Proof.Machine

/-! ### The loop (rule R91) -/

theorem descending_succ (n : Nat) : descending (n + 1) = (n + 1) :: descending n := by
  simp [descending, List.range_succ]

/-- The recursion of the model is the loop over the indices in the order rule R91 visits them. -/
theorem runningScan_eq_foldl_scanStep (bucket : Nat → Triple Nat) (n : Nat) (acc : Triple Nat × Triple Nat) :
    runningScan (jadd Config.idJac) bucket n acc = (descending n).foldl (scanStep bucket) acc := by
  induction n generalizing acc with
  | zero => rfl
  | succ n ih =>
    rw [runningScan_succ, descending_succ, List.foldl_cons, ih]
    rfl

/-- An entry of `p` or more among those it reads stops a `BRED` (rule R23). -/
theorem exec_bred_refused {s : State} {w : Nat} (hw : widthOk w = true)
    (h : ∃ b e, 1 ≤ b ∧ b ≤ lastBucket w ∧ s.block.bkt.read b = some e ∧ canonicalEntry e = false) :
    exec (.bred w) s = .refused .nonCanonicalOperand := by
  rw [exec_bred_eq hw, (bucketStatus_nonCanonical_iff _ _).mpr h, State.runPoint]

/-- A `BRED` word with a width that no `BRED` may name (rules R48 and R121). -/
theorem decode_bredWord_badW {w : Nat} (hw : w < 32) (hbad : w = 0 ∨ 16 < w) :
    decode (0x00000005 + 256 * BitVec.ofNat 32 w) = .illegal .badW := by
  obtain ⟨hop, hrsv0, hwidth, hrsv1⟩ := bredWord_fields hw
  rw [decode, decodeWith_of_bred_fields _ hop hrsv0 hrsv1, hwidth]
  exact if_pos hbad

/-- Settles O43: `exec_bred_specified` with the scan read as the loop, `exec_bred_refused`, and the decoder on `BRED` words. -/
theorem bredWritesTheRunningSum : Obligations.BredWritesTheRunningSum := by
  refine ⟨fun s w => ⟨fun h1 h16 hb => ?_, fun h1 h16 => exec_bred_refused ((widthOk_iff w).mpr ⟨h1, h16⟩)⟩,
    fun w h1 h16 => decode_eq_bred_iff_word.mpr ⟨h1, h16, rfl⟩, fun w hbad hw => decode_bredWord_badW hw hbad⟩
  have hw := (widthOk_iff w).mpr ⟨h1, h16⟩
  have hexec := exec_bred_specified hw hb
  refine ⟨_, hexec, (exec_bred_completesPoint hw hexec).pointFrame, ?_⟩
  rw [pippengerReduce, bucketReduce, runningScan_eq_foldl_scanStep]
  rfl

/-! ### Empty buckets (rule R94) -/

/-- As long as only empty entries were added to empty accumulators, each holds the last entry added: after entry 1, and that
whatever entry 1 holds, the result is entry 1 (rule R94). -/
theorem runningScan_of_empty {idJac : Triple Nat} {bucket : Nat → Triple Nat} {n : Nat}
    (hb : ∀ b, 2 ≤ b → b ≤ n + 1 → (bucket b).z = 0) {acc : Triple Nat × Triple Nat} (hrun : acc.1.z = 0)
    (hres : acc.2.z = 0) : (runningScan (jadd idJac) bucket (n + 1) acc).2 = bucket 1 := by
  induction n generalizing acc with
  | zero => simp [hrun, hres]
  | succ n ih =>
    have hz := hb (n + 2) (by omega) le_rfl
    rw [runningScan_succ, jadd_identity_left _ _ _ hrun, jadd_identity_left _ _ _ hres]
    exact ih (fun b h2 hn => hb b h2 (by omega)) hz hz

theorem pippengerReduce_of_empty {bucket : Nat → Triple Nat} {n : Nat} (hn : 1 ≤ n)
    (hb : ∀ b, 2 ≤ b → b ≤ n → (bucket b).z = 0) : pippengerReduce Config.idJac bucket n = bucket 1 := by
  obtain ⟨k, rfl⟩ := Nat.exists_eq_add_of_le' hn
  exact runningScan_of_empty hb rfl rfl

theorem one_le_lastBucket {w : Nat} (hw : 1 ≤ w) : 1 ≤ lastBucket w :=
  Nat.le_sub_one_of_lt (Nat.one_lt_two_pow (Nat.one_le_iff_ne_zero.mp hw))

/-- Settles O44: with w = 1 there is no entry above entry 1, and otherwise those above it are empty. -/
theorem bredOfEmptyBucketsCopiesEntryOne : Obligations.BredOfEmptyBucketsCopiesEntryOne := by
  intro s w e h1 h16 hb he hempty
  have hz (b : Nat) (h2 : 2 ≤ b) (hn : b ≤ lastBucket w) : (bucketPoint s.block.bkt b).z = 0 := by
    rcases hempty with rfl | hz
    · exact absurd (h2.trans hn) (by decide)
    · exact hz b (by omega) hn
  refine ⟨_, exec_bred_specified ((widthOk_iff w).mpr ⟨h1, h16⟩) hb, ?_⟩
  rw [pippengerReduce_of_empty (one_le_lastBucket h1) hz, bucketPoint, he, map_ofField_map_toField]
  rfl

/-! ### The weighted sum (rules R90 and R92) -/

/-- Settles O46: `bucketReduce_sum` for the triples that `ok` singles out, each standing for its value. -/
theorem runningSumIsTheWeightedSum : Obligations.RunningSumIsTheWeightedSum := by
  intro G _ value ok bucket n hadd hok hzero hb
  have hrep (P Q : Triple Nat) (g h : G) : ok P ∧ value P = g → ok Q ∧ value Q = h →
      ok (jadd Config.idJac P Q) ∧ value (jadd Config.idJac P Q) = g + h := by
    rintro ⟨hP, rfl⟩ ⟨hQ, rfl⟩
    exact hadd P Q hP hQ
  obtain ⟨-, hvalue⟩ := bucketReduce_sum (rep := fun P g => ok P ∧ value P = g) hrep ⟨hok, hzero⟩
    (value := fun b => value (bucket b)) fun b h1 h2 => ⟨hb b h1 h2, rfl⟩
  exact hvalue

end Sys2Proof.Machine

/-! PROOFS. The host's procedures on the block (rules R95, R107 and R110): each computes on the block what the pure function of
the host computes, whatever the block held before. Each is followed from a base state `s` by what stays as it was there. -/

namespace Sys2Proof.Machine

/-! ### Canonical triples and the words that hold them -/

theorem map_toField_map_ofField {P : Triple Nat} (hP : canonicalPoint P) : (P.map ofField).map toField = P := by
  obtain ⟨hx, hy, hz⟩ := hP
  simp [Triple.map, toField_ofField hx, toField_ofField hy, toField_ofField hz]

/-- The host finds an entry empty by its Z word (rules R43, R74 and R107). -/
theorem z_word_eq_zero_iff {P : Triple Nat} (hP : canonicalPoint P) : (P.map ofField).z = 0 ↔ isId P = true := by
  obtain ⟨-, -, hz⟩ := hP
  rw [Triple_map_z, ← toField_eq_zero_iff, toField_ofField hz, isId, decide_eq_true_eq]

/-- An operand triple written with a canonical point is a well-formed operand (rules R22, R23 and R74). -/
theorem goodPoint_map_of {P : Triple Nat} (hP : canonicalPoint P) : goodPoint ((P.map ofField).map Reg.of) := by
  obtain ⟨hx, hy, hz⟩ := hP
  exact ⟨⟨rfl, canonical_ofField hx⟩, ⟨rfl, canonical_ofField hy⟩, rfl, canonical_ofField hz⟩

theorem pointOf_map_of {P : Triple Nat} (hP : canonicalPoint P) : pointOf ((P.map ofField).map Reg.of) = P :=
  map_toField_map_ofField hP

theorem canonicalPoint_lift (P : Affine) : canonicalPoint (lift Config.idJac P) := by
  cases P with
  | infinity => exact canonicalPoint_idJac
  | point x y => exact ⟨x.isLt, y.isLt, (by decide : 1 < Config.p)⟩

/-- Every index of an array that a `BRED` reduces is an entry of the bucket memory (rules R6 and R30). -/
theorem lt_nbkt_of_le_lastBucket {w b : Nat} (hw : widthOk w = true) (hb : b ≤ lastBucket w) : b < Config.nbkt := by
  obtain ⟨-, h16⟩ := (widthOk_iff w).mp hw
  calc b < 2 ^ w := Nat.lt_of_le_sub_one (Nat.two_pow_pos _) hb
    _ ≤ Config.nbkt := Nat.pow_le_pow_right (by decide) h16

/-! ### Statements issued to an idle block -/

section Statements

variable {c : Config.Params} {s : State} {rest : List Stmt} (hb : s.block.status.busy = false)
include hb

theorem issue_wr (i : Fin 6) (v : HostWord) :
    issue c (.wr i v :: rest) s = issue c rest (s.writeReg i (v.value s.host)) :=
  congrArg (andThen · _) (s.whenIdle_idle _ hb)

theorem issue_rd (k : Option (Fin 3)) (i : Fin 9) :
    issue c (.rd k i :: rest) s = issue c rest ((s.keep k (s.readReg i)).reply (.reg i (s.readReg i))) :=
  congrArg (andThen · _) (s.whenIdle_idle _ hb)

theorem issue_wrb {b : Nat} (hlt : b < Config.nbkt) (x y z : HostWord) :
    issue Config.params (.wrb b x y z :: rest) s =
      issue Config.params rest (s.writeBkt b ⟨x.value s.host, y.value s.host, z.value s.host⟩) :=
  congrArg (andThen · _) ((s.whenIdle_idle _ hb).trans (whenEntry_lt _ _ hlt))

theorem issue_rdb {b : Nat} (hlt : b < Config.nbkt) (keep : Bool) :
    issue Config.params (.rdb keep b :: rest) s =
      issue Config.params rest ((s.keepEntry keep (s.readBkt b)).reply (.bucket b (s.readBkt b))) :=
  congrArg (andThen · _) ((s.whenIdle_idle _ hb).trans (whenEntry_lt _ _ hlt))

/-- `RUN` of a command on a block that is not halted is the meaning of the command (rules R49 and R50). -/
theorem issue_run {i : Instr} (he : s.block.status.err = false) (hi : i.wellFormed = true) :
    issue Config.params (.run (encode i) :: rest) s = andThen (exec i s) (issue Config.params rest) :=
  congrArg (andThen · _) ((hostRun_legal (c := Config.params) (execWith Config.params) hb he (decode_encode hi)).trans
    (execWith_params i s))

end Statements

/-! ### What stays as it was in the base state -/

/-- `t` is a state in which a procedure that the host began in `s` may go on: the block idle and not halted, its bucket memory
`m`, and the host's own moves and the number of resets as in `s`. -/
structure State.Reaches (s : State) (m : Memory) (t : State) : Prop where
  idle : t.block.status.busy = false
  unhalted : t.block.status.err = false
  memory : t.block.bkt = m
  moves : t.host.moves = s.host.moves
  epoch : t.epoch = s.epoch

/-- A part of a procedure answers the words of the canonical triple `P`. -/
def State.Answers (s : State) (m : Memory) (a : Doing (Triple Word)) (P : Triple Nat) : Prop :=
  ∃ t, a = .next (P.map ofField, t) ∧ canonicalPoint P ∧ s.Reaches m t

/-- The parts of a procedure follow one another. -/
theorem State.Answers.andThen {s : State} {m m' : Memory} {a : Doing (Triple Word)}
    {f : Triple Word × State → Doing (Triple Word)} {P Q : Triple Nat} (ha : s.Answers m a P)
    (hf : ∀ t, canonicalPoint P → s.Reaches m t → s.Answers m' (f (P.map ofField, t)) Q) :
    s.Answers m' (andThen a f) Q := by
  obtain ⟨t, rfl, hP, ht⟩ := ha
  exact hf t hP ht

/-! ### Operands, results and entries -/

section Parts

variable {s t : State} {m : Memory} (h : s.Reaches m t)
include h

/-- `LDP` writes one operand triple (rule R54). -/
theorem State.Reaches.issue_loadTriple (d : Side) (e : Triple Word) :
    ∃ u, issue Config.params (loadTriple d e) t = .next u ∧ s.Reaches m u ∧
      u.block = t.block.withOperand d (e.map Reg.of) := by
  obtain ⟨hidle, hunhalted, hmemory, hmoves, hepoch⟩ := h
  rw [loadTriple, expand, writeTriple, issue_wr hidle, issue_wr (by simpa using hidle),
    issue_wr (by simpa using hidle), issue_nil]
  exact ⟨_, rfl, ⟨by simpa using hidle, by simpa using hunhalted, by simpa using hmemory, hmoves, hepoch⟩,
    t.block.writeOperand_triple d e.x e.y e.z⟩

/-- Both operand triples of a `PADD`. -/
theorem State.Reaches.issue_loadOperands (e f : Triple Word) :
    ∃ u, issue Config.params (loadTriple .sideA e ++ loadTriple .sideB f) t = .next u ∧ s.Reaches m u ∧
      u.block.a = e.map Reg.of ∧ u.block.b = f.map Reg.of := by
  obtain ⟨u, hu, hru, hub⟩ := h.issue_loadTriple .sideA e
  obtain ⟨v, hv, hrv, hvb⟩ := hru.issue_loadTriple .sideB f
  refine ⟨v, ?_, hrv, ?_, ?_⟩
  · rw [issue_append, hu, andThen_next, hv]
  · rw [hvb, hub]
    rfl
  · rw [hvb]
    rfl

/-- The three reads of R keep in the host's variables what it reads (rule R54). -/
theorem State.Reaches.issue_readResult :
    ∃ u, issue Config.params readResult t = .next u ∧ s.Reaches m u ∧
      u.host.vars = ⟨t.readReg 6, t.readReg 7, t.readReg 8⟩ := by
  obtain ⟨hidle, hunhalted, hmemory, hmoves, hepoch⟩ := h
  rw [readResult, issue_rd hidle, issue_rd (by simpa using hidle), issue_rd (by simpa using hidle), issue_nil]
  exact ⟨_, rfl, ⟨hidle, hunhalted, hmemory, hmoves, hepoch⟩, rfl⟩

/-- A command that completes with a triple, and the reads of its result. -/
theorem State.Reaches.issue_run_readResult {i : Instr} {e : Triple Word} (hi : i.wellFormed = true)
    (hexec : exec i t = .next (t.completePoint e)) :
    ∃ u, issue Config.params (.run (encode i) :: readResult) t = .next u ∧ s.Reaches m u ∧ u.host.vars = e := by
  obtain ⟨hidle, hunhalted, hmemory, hmoves, hepoch⟩ := h
  have hcompleted : s.Reaches m (t.completePoint e) := ⟨rfl, hunhalted, hmemory, hmoves, hepoch⟩
  rw [issue_run hidle hunhalted hi, hexec, andThen_next]
  exact hcompleted.issue_readResult

theorem State.Reaches.issue_double {P : Triple Nat} (hP : canonicalPoint P) :
    ∃ u, issue Config.params (loadTriple .sideA (P.map ofField) ++ .run (encode .pdbl) :: readResult) t = .next u ∧
      s.Reaches m u ∧ u.host.vars = (jdbl Config.idJac P).map ofField := by
  obtain ⟨u, hu, hru, hub⟩ := h.issue_loadTriple .sideA (P.map ofField)
  have ha : u.block.a = (P.map ofField).map Reg.of := by rw [hub]; rfl
  have hexec := exec_pdbl_specified (s := u) (by rw [ha]; exact goodPoint_map_of hP)
  rw [ha, pointOf_map_of hP] at hexec
  rw [issue_append, hu, andThen_next]
  exact hru.issue_run_readResult rfl hexec

theorem State.Reaches.issue_add {P Q : Triple Nat} (hP : canonicalPoint P) (hQ : canonicalPoint Q) :
    ∃ u, issue Config.params ((loadTriple .sideA (P.map ofField) ++ loadTriple .sideB (Q.map ofField)) ++
        .run (encode .padd) :: readResult) t = .next u ∧
      s.Reaches m u ∧ u.host.vars = (jadd Config.idJac P Q).map ofField := by
  obtain ⟨u, hu, hru, ha, hb⟩ := h.issue_loadOperands (P.map ofField) (Q.map ofField)
  have hexec := exec_padd_specified (s := u) (by rw [ha]; exact goodPoint_map_of hP)
    (by rw [hb]; exact goodPoint_map_of hQ)
  rw [ha, hb, pointOf_map_of hP, pointOf_map_of hQ] at hexec
  rw [issue_append, hu, andThen_next]
  exact hru.issue_run_readResult rfl hexec

/-- `RDB` of a written entry keeps it in the host's variables (rules R33 and R54). -/
theorem State.Reaches.issue_readEntry {b : Nat} {e : Triple Word} (hlt : b < Config.nbkt) (hr : m.read b = some e) :
    ∃ u, issue Config.params [.rdb true b] t = .next u ∧ s.Reaches m u ∧ u.host.vars = e := by
  obtain ⟨hidle, hunhalted, rfl, hmoves, hepoch⟩ := h
  rw [issue_rdb hidle hlt, issue_nil, State.readBkt_of_read hr]
  exact ⟨_, rfl, ⟨hidle, hunhalted, rfl, hmoves, hepoch⟩, rfl⟩

/-- `WRB` writes one entry (rule R33). -/
theorem State.Reaches.issue_writeEntry {b : Nat} (hlt : b < Config.nbkt) (x y z : HostWord) :
    ∃ u, issue Config.params [.wrb b x y z] t = .next u ∧
      s.Reaches (m.write b ⟨x.value t.host, y.value t.host, z.value t.host⟩) u := by
  obtain ⟨hidle, hunhalted, rfl, hmoves, hepoch⟩ := h
  rw [issue_wrb hidle hlt, issue_nil]
  exact ⟨_, rfl, hidle, hunhalted, rfl, hmoves, hepoch⟩

end Parts

theorem loadAffine_eq (d : Side) (P : Affine) :
    loadAffine Config.params d P = loadTriple d ((lift Config.idJac P).map ofField) := by
  cases P <;> rfl

/-! ### Doublings and additions -/

theorem runFor_answers {s t u : State} {m : Memory} {operands : List Stmt} {i : Instr} {P : Triple Nat}
    (hP : canonicalPoint P) (hu : issue Config.params (operands ++ .run (encode i) :: readResult) t = .next u)
    (hru : s.Reaches m u) (hvars : u.host.vars = P.map ofField) :
    s.Answers m (runFor Config.params operands i t) P := by
  refine ⟨u, ?_, hP, hru⟩
  rw [runFor, hu, andThen_next, hvars]

section Points

variable {s t : State} {m : Memory} {P Q : Triple Nat}

theorem addOnBlock_answers (h : s.Reaches m t) (hP : canonicalPoint P) (hQ : canonicalPoint Q) :
    s.Answers m (addOnBlock Config.params (P.map ofField) (Q.map ofField) t) (jadd Config.idJac P Q) := by
  obtain ⟨u, hu, hru, hvars⟩ := h.issue_add hP hQ
  exact runFor_answers (canonicalPoint_jadd hP hQ) hu hru hvars

theorem doublingsOnBlock_answers (n : Nat) (h : s.Reaches m t) (hP : canonicalPoint P) :
    s.Answers m (doublingsOnBlock Config.params n (P.map ofField) t) (doublings Config.idJac n P) := by
  induction n generalizing P t with
  | zero => exact ⟨t, rfl, hP, h⟩
  | succ n ih =>
    obtain ⟨u, hu, hru, hvars⟩ := h.issue_double hP
    exact (runFor_answers (canonicalPoint_jdbl P) hu hru hvars).andThen fun _ hD hv => ih hv hD

theorem addTimesOnBlock_answers (n : Nat) (h : s.Reaches m t) (hP : canonicalPoint P) (hQ : canonicalPoint Q) :
    s.Answers m (addTimesOnBlock Config.params (P.map ofField) n (Q.map ofField) t)
      (addTimes Config.idJac P n Q) := by
  induction n generalizing Q t with
  | zero => exact ⟨t, rfl, hQ, h⟩
  | succ n ih => exact (addOnBlock_answers h hQ hP).andThen fun _ hS hv => ih hv hS

end Points

/-! ### The two reductions (rules R91 and R95) -/

/-- Entries 1 to `n` of the bucket memory hold the words of canonical buckets. -/
structure HoldsBuckets (m : Memory) (n : Nat) (bucket : Nat → Triple Nat) : Prop where
  canonical : ∀ b, 1 ≤ b → b ≤ n → canonicalPoint (bucket b)
  entry : ∀ b, 1 ≤ b → b ≤ n → m.read b = some ((bucket b).map ofField)

theorem HoldsBuckets.goodBuckets {m : Memory} {n : Nat} {bucket : Nat → Triple Nat} (h : HoldsBuckets m n bucket) :
    goodBuckets m n :=
  fun b h1 h2 => ⟨_, h.entry b h1 h2, canonicalEntry_map_ofField (h.canonical b h1 h2)⟩

theorem HoldsBuckets.bucketPoint_eq {m : Memory} {n b : Nat} {bucket : Nat → Triple Nat} (h : HoldsBuckets m n bucket)
    (h1 : 1 ≤ b) (h2 : b ≤ n) : bucketPoint m b = bucket b := by
  rw [bucketPoint, h.entry b h1 h2]
  exact map_toField_map_ofField (h.canonical b h1 h2)

/-- A reduction on the block answers what the reducer computes of the buckets that the memory holds. -/
def ReducesOnBlock (onBlock : BlockReducer) (reduce : Reducer) : Prop :=
  ∀ (s t : State) (m : Memory) (w : Nat) (bucket : Nat → Triple Nat), widthOk w = true → s.Reaches m t →
    HoldsBuckets m (lastBucket w) bucket →
    s.Answers m (onBlock w t) (reduce Config.idJac bucket (lastBucket w))

/-- `RUN BRED w` and the reads of R. -/
theorem bredOnBlock_reduces : ReducesOnBlock (bredOnBlock Config.params) pippengerReduce := by
  intro s t m w bucket hw h hm
  have hsame : pippengerReduce Config.idJac (bucketPoint m) (lastBucket w) =
      pippengerReduce Config.idJac bucket (lastBucket w) :=
    congrArg Prod.snd (runningScan_congr _ (fun b => hm.bucketPoint_eq) _)
  have hexec := exec_bred_specified (s := t) hw (by rw [h.memory]; exact hm.goodBuckets)
  rw [h.memory, hsame] at hexec
  obtain ⟨u, hu, hru, hvars⟩ := h.issue_run_readResult (i := .bred w) hw hexec
  exact runFor_answers (operands := []) (canonicalPoint_bucketReduce hm.canonical) hu hru hvars

/-- The explicit-weight procedure over a list of entries: empty ones are passed over, as in `explicitShare`. -/
theorem explicitOnBlock_answers {s t : State} {m : Memory} {w : Nat} {bucket : Nat → Triple Nat} {P : Triple Nat}
    (hw : widthOk w = true) (hm : HoldsBuckets m (lastBucket w) bucket) (bs : List Nat)
    (hbs : ∀ b ∈ bs, 1 ≤ b ∧ b ≤ lastBucket w) (h : s.Reaches m t) (hP : canonicalPoint P) :
    s.Answers m (explicitOnBlock Config.params bs (P.map ofField) t)
      (bs.foldl (explicitShare Config.idJac bucket) P) := by
  induction bs generalizing P t with
  | nil => exact ⟨t, rfl, hP, h⟩
  | cons b bs ih =>
    obtain ⟨⟨h1, h2⟩, hrest⟩ := List.forall_mem_cons.mp hbs
    have hB := hm.canonical b h1 h2
    obtain ⟨u, hu, hru, hvars⟩ := h.issue_readEntry (lt_nbkt_of_le_lastBucket hw h2) (hm.entry b h1 h2)
    rw [explicitOnBlock, hu, andThen_next, hvars, List.foldl_cons, explicitShare]
    simp only [z_word_eq_zero_iff hB]
    split
    · exact ih hrest hru hP
    · exact (addTimesOnBlock_answers (b - 1) hru hB hB).andThen fun _ hM hv =>
        (addOnBlock_answers hv hP hM).andThen fun _ hS hx => ih hrest hx hS

theorem explicitReduceOnBlock_reduces : ReducesOnBlock (explicitReduceOnBlock Config.params) explicitWeight := by
  intro s t m w bucket hw h hm
  refine explicitOnBlock_answers hw hm _ (fun b hb => ?_) h canonicalPoint_idJac
  obtain ⟨k, hk, rfl⟩ := List.mem_map.mp hb
  exact ⟨Nat.le_add_left 1 k, List.mem_range.mp hk⟩

/-! ### Building the buckets of a level (rule R107) -/

/-- The bucket in a slot of the host's array. -/
def slotAt (slots : List (Triple Nat)) (b : Nat) : Triple Nat := slots.getD b ⟨0, 0, 0⟩

theorem slotAt_set {slots : List (Triple Nat)} {b : Nat} (P : Triple Nat) (hb : b < slots.length) (b' : Nat) :
    slotAt (slots.set b P) b' = if b' = b then P else slotAt slots b' := by
  unfold slotAt
  rw [List.getD_eq_getElem?_getD, List.getD_eq_getElem?_getD, List.getElem?_set]
  by_cases h : b' = b
  · rw [if_pos h.symm, if_pos hb, if_pos h, Option.getD_some]
  · rw [if_neg (Ne.symm h), if_neg h]

theorem slotAt_replicate_empty (n b : Nat) : slotAt (List.replicate n ⟨0, 0, 0⟩) b = ⟨0, 0, 0⟩ := by
  rw [slotAt, List.getD_eq_getElem?_getD, List.getElem?_replicate]
  split <;> rfl

/-- Entries 1 to `2^w - 1` of the memory `m` hold the slots of an array of width `w`, and all others what they hold in
`m₀`. -/
structure HoldsArray (m₀ m : Memory) (w : Nat) (slots : List (Triple Nat)) : Prop where
  length : slots.length = 2 ^ w
  held : HoldsBuckets m (lastBucket w) (slotAt slots)
  outside : ∀ b, b = 0 ∨ lastBucket w < b → m.read b = m₀.read b

/-- A part of a procedure leaves the slots in the bucket memory. -/
def State.Leaves (s : State) (m₀ : Memory) (w : Nat) (a : Answer) (slots : List (Triple Nat)) : Prop :=
  ∃ m t, a = .next t ∧ s.Reaches m t ∧ HoldsArray m₀ m w slots

/-- Storing a bucket in the memory and in the array. -/
theorem HoldsArray.store {m₀ m : Memory} {w b : Nat} {slots : List (Triple Nat)} {P : Triple Nat}
    (h : HoldsArray m₀ m w slots) (h1 : 1 ≤ b) (h2 : b ≤ lastBucket w) (hP : canonicalPoint P) :
    HoldsArray m₀ (m.write b (P.map ofField)) w (slots.set b P) := by
  have hlt : b < slots.length := h.length ▸ Nat.lt_of_le_sub_one (Nat.two_pow_pos _) h2
  refine ⟨by rw [List.length_set, h.length], ⟨fun b' h1' h2' => ?_, fun b' h1' h2' => ?_⟩, fun b' hout => ?_⟩
  · rw [slotAt_set P hlt]
    split
    · exact hP
    · exact h.held.canonical b' h1' h2'
  · rw [slotAt_set P hlt, Memory.read_write]
    split
    · rfl
    · exact h.held.entry b' h1' h2'
  · rw [Memory.read_write_other _ _ _ _ (by omega)]
    exact h.outside b' hout

section Building

variable {s t : State} {m₀ m : Memory} {w : Nat} {slots : List (Triple Nat)}

theorem clearEntries_succ (n : Nat) : clearEntries (n + 1) = clearEntries n ++ expand (.clrb (n + 1)) := by
  simp [clearEntries, List.range_succ]

/-- The `CLRB`s of rule R107. -/
theorem issue_clearEntries {n : Nat} (hn : n < Config.nbkt) (h : s.Reaches m t) :
    ∃ m' u, issue Config.params (clearEntries n) t = .next u ∧ s.Reaches m' u ∧
      ∀ b, m'.read b = if 1 ≤ b ∧ b ≤ n then some ⟨0, 0, 0⟩ else m.read b := by
  induction n with
  | zero => exact ⟨m, t, rfl, h, fun b => (if_neg (by omega)).symm⟩
  | succ n ih =>
    obtain ⟨m', u, hu, hru, hread⟩ := ih (by omega)
    obtain ⟨v, hv, hrv⟩ := hru.issue_writeEntry hn (.lit 0) (.lit 0) (.lit 0)
    refine ⟨_, v, ?_, hrv, fun b => ?_⟩
    · rw [clearEntries_succ, issue_append, hu]
      exact hv
    · rw [Memory.read_write, hread]
      by_cases hb : b = n + 1
      · rw [if_pos hb, if_pos (by omega)]
        rfl
      · rw [if_neg hb]
        exact if_congr (by omega) rfl rfl

theorem clearEntries_leaves (hw : widthOk w = true) (h : s.Reaches m t) :
    s.Leaves m w (issue Config.params (clearEntries (lastBucket w)) t) (List.replicate (2 ^ w) ⟨0, 0, 0⟩) := by
  obtain ⟨m', u, hu, hru, hread⟩ := issue_clearEntries (lt_nbkt_of_le_lastBucket hw le_rfl) h
  refine ⟨m', u, hu, hru, List.length_replicate, ⟨fun b _ _ => ?_, fun b h1 h2 => ?_⟩, fun b hout => ?_⟩
  · rw [slotAt_replicate_empty]
    decide
  · rw [slotAt_replicate_empty, hread, if_pos ⟨h1, h2⟩]
    rfl
  · rw [hread, if_neg (by omega)]

/-- What `contribute` stores for a value that is not 0. -/
theorem contribute_of_pos {b : Nat} (hb : b ≠ 0) (P : Affine) :
    contribute Config.idJac slots (P, b) = slots.set b
      (if isId (slotAt slots b) then lift Config.idJac P else mixedAdd Config.idJac (slotAt slots b) P) :=
  if_neg hb

/-- One contribution: the lifted point written to an empty entry, or the sum stored back (rule R107). -/
theorem contributeOnBlock_leaves (hw : widthOk w = true) (h : s.Reaches m t) (hm : HoldsArray m₀ m w slots) (P : Affine)
    {b : Nat} (hb : b < 2 ^ w) :
    s.Leaves m₀ w (contributeOnBlock Config.params P b t) (contribute Config.idJac slots (P, b)) := by
  by_cases h0 : b = 0
  · subst h0
    exact ⟨m, t, rfl, h, hm⟩
  have h1 : 1 ≤ b := Nat.one_le_iff_ne_zero.mpr h0
  have h2 : b ≤ lastBucket w := Nat.le_sub_one_of_lt hb
  have hlt := lt_nbkt_of_le_lastBucket hw h2
  have hB := hm.held.canonical b h1 h2
  have hL := canonicalPoint_lift P
  obtain ⟨u, hu, hru, hvars⟩ := h.issue_readEntry hlt (hm.held.entry b h1 h2)
  rw [contributeOnBlock, if_neg h0, hu, andThen_next, contribute_of_pos h0, hvars]
  simp only [z_word_eq_zero_iff hB]
  split
  · obtain ⟨v, hv, hrv⟩ := hru.issue_writeEntry hlt (.lit _) (.lit _) (.lit _)
    exact ⟨_, v, hv, hrv, hm.store h1 h2 hL⟩
  · obtain ⟨v, hv, hrv, hsum⟩ := hru.issue_add hB hL
    obtain ⟨x, hx, hrx⟩ := hrv.issue_writeEntry hlt (.var 0) (.var 1) (.var 2)
    simp only [HostWord.value, hsum] at hrx
    refine ⟨_, x, ?_, hrx, hm.store h1 h2 (canonicalPoint_jadd hB hL)⟩
    rw [loadAffine_eq, expand, ← List.cons_append, ← List.append_assoc, issue_append, hv]
    exact hx

theorem contributionsOnBlock_leaves (hw : widthOk w = true) (cs : List (Affine × Nat)) (hcs : ∀ k ∈ cs, k.2 < 2 ^ w)
    (h : s.Reaches m t) (hm : HoldsArray m₀ m w slots) :
    s.Leaves m₀ w (contributionsOnBlock Config.params cs t) (cs.foldl (contribute Config.idJac) slots) := by
  induction cs generalizing t m slots with
  | nil => exact ⟨m, t, rfl, h, hm⟩
  | cons k cs ih =>
    obtain ⟨hk, hrest⟩ := List.forall_mem_cons.mp hcs
    obtain ⟨m', u, hu, hru, hm'⟩ := contributeOnBlock_leaves hw h hm k.1 hk
    rw [contributionsOnBlock, hu]
    exact ih hrest hru hm'

/-- Rule R107: the array of the level in entries 1 to `2^w - 1`, every other entry as before. -/
theorem buildBucketsOnBlock_leaves (hw : widthOk w = true) (points : List Affine) {values : List Nat}
    (hv : ∀ b ∈ values, b < 2 ^ w) (h : s.Reaches m t) :
    s.Leaves m w (buildBucketsOnBlock Config.params points values w t)
      (buildBuckets Config.idJac points values w) := by
  obtain ⟨m', u, hu, hru, hm'⟩ := clearEntries_leaves hw h
  rw [buildBucketsOnBlock, hu]
  exact contributionsOnBlock_leaves hw _ (fun k hk => hv _ (List.of_mem_zip hk).2) hru hm'

end Building

/-! ### The windows of a batch (rules R108 to R110) -/

theorem windowDigits_lt {w n s d : Nat} (h : d ∈ windowDigits w n s) : d < 2 ^ w := by
  induction n generalizing s with
  | zero => cases h
  | succ n ih =>
    unfold windowDigits at h
    split at h
    · cases h
    · rcases List.mem_cons.mp h with rfl | h
      · exact Nat.mod_lt _ (Nat.two_pow_pos _)
      · exact ih h

/-- Padding puts zeros only. -/
theorem mem_padTo {n d : Nat} {ws : List Nat} (h : d ∈ padTo n ws) : d ∈ ws ∨ d = 0 :=
  (List.mem_append.mp h).imp_right List.eq_of_mem_replicate

/-- The values that the engine hands to the bucket accumulation are window values of the width (rule R110). -/
theorem levelValues_lt {scalars : List Nat} {w lvl b : Nat} (h : b ∈ levelValues (batchWindows scalars w) lvl) :
    b < 2 ^ w := by
  obtain ⟨ws, hws, rfl⟩ := List.mem_map.mp h
  obtain ⟨ds, hds, rfl⟩ := List.mem_map.mp hws
  obtain ⟨s, -, rfl⟩ := List.mem_map.mp hds
  rw [List.getD_eq_getElem?_getD]
  cases hd : (padTo _ _)[lvl]? with
  | none => exact Nat.two_pow_pos _
  | some d =>
    rcases mem_padTo (List.mem_of_getElem? hd) with hmem | rfl
    · exact windowDigits_lt hmem
    · exact Nat.two_pow_pos _

/-! ### The windowed engine (rules R110 and R113) -/

section Engine

variable {onBlock : BlockReducer} {reduce : Reducer} {s t : State} {m : Memory} {w : Nat} {P : Triple Nat}

theorem levelOnBlock_answers (hr : ReducesOnBlock onBlock reduce) (hw : widthOk w = true) (scalars : List Nat)
    (points : List Affine) (lvl : Nat) (h : s.Reaches m t) (hP : canonicalPoint P) :
    ∃ m', s.Answers m' (levelOnBlock Config.params onBlock points (batchWindows scalars w) w lvl (P.map ofField) t)
      (engineLevel Config.idJac reduce points (batchWindows scalars w) w P lvl) := by
  have hshift : doublings Config.idJac (if lvl + 1 = maxLevels (batchWindows scalars w) then 0 else w) P =
      if lvl + 1 = maxLevels (batchWindows scalars w) then P else doublings Config.idJac w P := by
    split <;> rfl
  obtain ⟨u, hu, hD, hru⟩ := hshift ▸ doublingsOnBlock_answers _ h hP
  obtain ⟨m', v, hv, hrv, hm'⟩ := buildBucketsOnBlock_leaves hw points (fun b => levelValues_lt) hru
  refine ⟨m', ?_⟩
  rw [levelOnBlock, hu, andThen_next, hv, andThen_next]
  exact (hr s v m' w _ hw hrv hm'.held).andThen fun _ hS hx => addOnBlock_answers hx hD hS

theorem levelsOnBlock_answers (hr : ReducesOnBlock onBlock reduce) (hw : widthOk w = true) (scalars : List Nat)
    (points : List Affine) (n : Nat) (h : s.Reaches m t) (hP : canonicalPoint P) :
    ∃ m', s.Answers m' (levelsOnBlock Config.params onBlock points (batchWindows scalars w) w n (P.map ofField) t)
      ((List.range n).reverse.foldl (engineLevel Config.idJac reduce points (batchWindows scalars w) w) P) := by
  induction n generalizing P t m with
  | zero => exact ⟨m, t, rfl, hP, h⟩
  | succ n ih =>
    obtain ⟨m', u, hu, hL, hru⟩ := levelOnBlock_answers hr hw scalars points n h hP
    rw [levelsOnBlock, hu, List.range_succ, List.reverse_append]
    exact ih hru hL

/-- Rule R110: the engine driven over the block computes what the engine as a function computes. -/
theorem windowedOnBlock_eq (hr : ReducesOnBlock onBlock reduce) (hw : widthOk w = true) (scalars : List Nat)
    (points : List Affine) (h : s.Reaches m t) :
    ∃ m' u, windowedOnBlock Config.params onBlock scalars points w t =
        .next (windowedEngine Config.idJac reduce scalars points w, u) ∧ s.Reaches m' u := by
  obtain ⟨m', u, hu, hP, hru⟩ :=
    levelsOnBlock_answers hr hw scalars points (maxLevels (batchWindows scalars w)) h canonicalPoint_idJac
  refine ⟨m', u, ?_, hru⟩
  rw [windowedOnBlock, params_idJac, hu, andThen_next, map_toField_map_ofField hP]
  rfl

theorem validate_ok {scalars : List Nat} {points : List Affine} (hlen : scalars.length = points.length)
    (hpts : ∀ P ∈ points, onCurve P = true) : validate scalars points = .ok () := by
  rw [validate, if_neg (not_not.mpr hlen), if_pos (List.all_eq_true.mpr hpts)]

/-- Behind the API edge, on inputs it lets through, only the width decides whether the engine runs on the block (rules R110
and R113; log entry 16). -/
theorem msmOnBlock_of_valid {scalars : List Nat} {points : List Affine}
    (hvalid : validate scalars points = .ok ()) (onBlock : BlockReducer) (w : Nat) (s : State) :
    msmOnBlock Config.params onBlock scalars points w s =
      if widthOk w then .ok (windowedOnBlock Config.params onBlock scalars points w s)
      else .error .widthNotAdmitted := by
  rw [msmOnBlock, hvalid]
  rfl

/-- The engine on the block answers what a variant of `msm` answers that uses the same reducer (rule R113). -/
theorem msmOnBlock_answers {scalars : List Nat} {points : List Affine} {v : Variant}
    (hvalid : validate scalars points = .ok ()) (hr : ReducesOnBlock onBlock reduce)
    (hv : msmValue Config.idJac scalars points w v = windowedEngine Config.idJac reduce scalars points w)
    (hw : widthOk w = true) (h : s.Reaches m s) :
    ∃ t A, msmOnBlock Config.params onBlock scalars points w s = .ok (.next (A, t)) ∧
      msm Config.idJac scalars points w v = .ok A ∧ t.host.moves = s.host.moves := by
  obtain ⟨m', t, ht, hreach⟩ := windowedOnBlock_eq hr hw scalars points h
  refine ⟨t, msmValue Config.idJac scalars points w v, ?_, ?_, hreach.moves⟩
  · rw [msmOnBlock_of_valid hvalid, if_pos hw, ht, hv]
  · rw [msm, hvalid]
    rfl

end Engine

/-- Settles O53: `msmOnBlock_answers` with each of the two reductions; the other widths stop at the API edge. -/
theorem engineOnTheBlockIsTheWindowedEngine : Obligations.EngineOnTheBlockIsTheWindowedEngine := by
  intro s scalars points w hb he hlen hpts
  have hvalid := validate_ok hlen hpts
  have hstart : s.Reaches s.block.bkt s := ⟨hb, he, rfl, rfl, rfl⟩
  refine ⟨fun h1 h16 => ?_, fun hbad => ?_⟩
  · have hw := (widthOk_iff w).mpr ⟨h1, h16⟩
    exact ⟨msmOnBlock_answers (v := .pippenger) hvalid bredOnBlock_reduces rfl hw hstart,
      msmOnBlock_answers (v := .reference) hvalid explicitReduceOnBlock_reduces rfl hw hstart⟩
  · rw [msmOnBlock_of_valid hvalid, if_neg (by rw [widthOk_iff]; omega)]

end Sys2Proof.Machine

/-! PROOFS. The host's software around the block (50_host_environment.md): the field inverse, the lift and its way back, mixed
addition through the lift, the windows of a scalar, and what the API and the bucket procedure answer. -/

namespace Sys2Proof.Machine

/-! ### The field inverse (rule R103) -/

theorem finv_eq_pow_mod (a : Nat) : finv a = a ^ (Config.p - 2) % Config.p := by
  have hexp : Config.p - 2 < 2 ^ 256 := by decide
  rw [finv, powMod_eq _ _ _ _ hexp]

theorem finv_lt (a : Nat) : finv a < Config.p := by
  rw [finv_eq_pow_mod]
  exact Nat.mod_lt _ p_pos

theorem finv_zero : finv 0 = 0 := by
  have := Fact.mk p_prime
  refine eq_of_cast_eq (finv_lt 0) p_pos ?_
  rw [finv_cast, Nat.cast_zero, inv_zero]

theorem fmul_finv {a : Nat} (ha : a < Config.p) (h0 : a ≠ 0) : fmul a (finv a) = 1 := by
  have := Fact.mk p_prime
  have hne : (a : ZMod Config.p) ≠ 0 := (cast_ne_zero_iff ha).mpr h0
  refine eq_of_cast_eq (fmul_lt _ _) (by decide) ?_
  rw [fmul_cast, finv_cast, mul_inv_cancel₀ hne, Nat.cast_one]

/-- Settles O48. -/
theorem fieldInverseIsThePowerPMinusTwo : Obligations.FieldInverseIsThePowerPMinusTwo :=
  fun a ha => ⟨finv_eq_pow_mod a, finv_zero, fmul_finv ha⟩

/-! ### The lift (rule R105) -/

/-- The lift of an affine point has the coordinates of the point. -/
theorem hasCoords_lift (x y : FieldElement) : HasCoords (lift Config.idJac (.point x y)) x.val y.val where
  cast_z_ne_zero := (cast_ne_zero_iff (a := 1) (by decide)).mpr one_ne_zero
  x_eq := by simp [lift]
  y_eq := by simp [lift]

theorem toAffine_lift (P : Affine) : toAffine (lift Config.idJac P) = P := by
  cases P with
  | infinity => exact toAffine_idJac
  | point x y =>
    have := Fact.mk p_prime
    rw [(hasCoords_lift x y).toAffine_eq, Affine.ofCoords, ← eq_element_of_cast rfl, ← eq_element_of_cast rfl]

/-- Settles O49. -/
theorem liftThenToAffineIsTheSamePoint : Obligations.LiftThenToAffineIsTheSamePoint :=
  ⟨fun _ _ => ⟨rfl, toAffine_lift _⟩, rfl, toAffine_lift _⟩

/-! ### Mixed addition (rule R106) -/

section UnitZ

variable {P Q : Triple Nat} (hz : Q.z = 1)
include hz

/-- Against a second operand with Z at 1 the first one is its own normalisation. -/
theorem normX_of_unit_z (hx : P.x < Config.p) : normX P Q = P.x := by
  have hone : fsqr 1 = 1 := by decide
  rw [normX, hz, hone, fmul_one hx]

theorem normY_of_unit_z (hy : P.y < Config.p) : normY P Q = P.y := by
  have hone : fmul 1 (fsqr 1) = 1 := by decide
  rw [normY, hz, hone, fmul_one hy]

theorem addGeneral_z_of_unit_z (hP : canonicalPoint P) :
    (addGeneral P Q).z = fmul (fsub (normX Q P) P.x) P.z := by
  obtain ⟨hx, -, hzP⟩ := hP
  simp only [addGeneral, normX_of_unit_z hz hx, hz, fmul_one hzP]

end UnitZ

/-- Settles O41: the branches of `jadd` with the normalisation of the first operand written out. -/
theorem mixedAdditionUsesUnitZ : Obligations.MixedAdditionUsesUnitZ := by
  intro P x y hP Q sum
  have ⟨hx1, hy1, _⟩ := hP
  have hQz : Q.z = 1 := rfl
  have hQ : Q.z ≠ 0 := one_ne_zero
  have hX : normX P Q = P.x := normX_of_unit_z hQz hx1
  have hY : normY P Q = P.y := normY_of_unit_z hQz hy1
  have hX' : normX Q P = fmul x.val (fsqr P.z) := rfl
  have hY' : normY Q P = fmul y.val (fmul P.z (fsqr P.z)) := rfl
  rw [← hX', ← hY']
  refine ⟨hX, hY, rfl, rfl, fun hz => ?_, fun hz hx hy => ?_, fun hz hx hy => ?_, fun hz hx => ?_⟩
  · exact jadd_identity_left _ _ _ hz
  · exact jadd_of_inverse hz hQ (hX.trans hx) (hY ▸ hy)
  · exact jadd_of_same hz hQ (hX.trans hx) (hY.trans hy)
  · have hgeneral : sum = addGeneral P Q := jadd_of_normX_ne hz hQ (hX ▸ hx)
    rw [hgeneral, addGeneral_z_of_unit_z hQz hP]

/-! ### The windows of a scalar (rule R108) -/

section Windows

variable {w : Nat}

theorem windowDigits_zero (w n : Nat) : windowDigits w n 0 = [] := by
  cases n <;> rfl

theorem windowDigits_succ (n : Nat) {s : Nat} (hs : s ≠ 0) :
    windowDigits w (n + 1) s = s % 2 ^ w :: windowDigits w n (s / 2 ^ w) :=
  if_neg hs

/-- A digit of at least one bit takes a bit off the scalar. -/
theorem div_two_pow_lt (hw : 1 ≤ w) {n s : Nat} (h : s < 2 ^ (n + 1)) : s / 2 ^ w < 2 ^ n :=
  Nat.div_lt_of_lt_mul <|
    calc s < 2 ^ (n + 1) := h
      _ ≤ 2 ^ (w + n) := Nat.pow_le_pow_right two_pos (by omega)
      _ = 2 ^ w * 2 ^ n := Nat.pow_add 2 w n

/-- Any bound on the number of digits that covers the bits of the scalar gives the same digits. -/
theorem windowDigits_eq_of_lt (hw : 1 ≤ w) {n m s : Nat} (hn : s < 2 ^ n) (hm : s < 2 ^ m) :
    windowDigits w n s = windowDigits w m s := by
  induction n generalizing m s with
  | zero =>
    obtain rfl : s = 0 := by omega
    rw [windowDigits_zero, windowDigits_zero]
  | succ n ih =>
    rcases eq_or_ne s 0 with rfl | hs
    · rw [windowDigits_zero, windowDigits_zero]
    · cases m with
      | zero => omega
      | succ m =>
        rw [windowDigits_succ n hs, windowDigits_succ m hs, ih (div_two_pow_lt hw hn) (div_two_pow_lt hw hm)]

theorem splitIntoWindows_zero (w : Nat) : splitIntoWindows 0 w = [] := windowDigits_zero w _

theorem splitIntoWindows_of_ne_zero (hw : 1 ≤ w) {s : Nat} (hs : s ≠ 0) :
    splitIntoWindows s w = s % 2 ^ w :: splitIntoWindows (s / 2 ^ w) w := by
  rw [splitIntoWindows, windowDigits_succ _ hs, splitIntoWindows,
    windowDigits_eq_of_lt hw (div_two_pow_lt hw Nat.lt_log2_self) Nat.lt_log2_self]

theorem windowValue_splitIntoWindows (hw : 1 ≤ w) (s : Nat) : windowValue w (splitIntoWindows s w) = s := by
  induction s using Nat.strong_induction_on with
  | h s ih =>
    rcases eq_or_ne s 0 with rfl | hs
    · rw [splitIntoWindows_zero, windowValue]
    · have hlt : s / 2 ^ w < s := Nat.div_lt_self (by omega) (Nat.one_lt_two_pow (by omega))
      rw [splitIntoWindows_of_ne_zero hw hs, windowValue, ih _ hlt, Nat.mod_add_div]

end Windows

/-- Settles O50. -/
theorem windowsAreTheDigitsOfTheScalar : Obligations.WindowsAreTheDigitsOfTheScalar :=
  fun s w hw => ⟨windowValue_splitIntoWindows hw s, fun _ => windowDigits_lt, splitIntoWindows_zero w,
    splitIntoWindows_of_ne_zero hw⟩

/-! ### Identity absorption (rule R114) -/

theorem scalarMulAffine_zero (P : Affine) : scalarMulAffine 0 P = .infinity := rfl

/-- Without a window the engine has no level and answers the identity (rule R110). -/
theorem windowedEngine_of_no_levels {scalars : List Nat} {w : Nat} (h : maxLevels (batchWindows scalars w) = 0)
    (reduce : Reducer) (points : List Affine) :
    windowedEngine Config.idJac reduce scalars points w = .infinity := by
  simp only [windowedEngine, h, List.range_zero, List.reverse_nil, List.foldl_nil, toAffine_idJac]

/-- A batch whose naive sum is `Infinity` and which has no window gives `Infinity` in every variant. -/
theorem msm_of_no_levels {scalars : List Nat} {points : List Affine} {w : Nat}
    (hvalid : validate scalars points = .ok ()) (hnaive : msmNaive scalars points = .infinity)
    (hlevels : maxLevels (batchWindows scalars w) = 0) (v : Variant) :
    msm Config.idJac scalars points w v = .ok .infinity := by
  have hvalue : msmValue Config.idJac scalars points w v = .infinity := by
    cases v with
    | naive => exact hnaive
    | reference => exact windowedEngine_of_no_levels hlevels explicitWeight points
    | pippenger => exact windowedEngine_of_no_levels hlevels pippengerReduce points
  rw [msm, hvalid, hvalue]
  rfl

/-- Settles O51: a zero scalar has no window (rule R108). -/
theorem zeroScalarAndEmptyBatchGiveInfinity : Obligations.ZeroScalarAndEmptyBatchGiveInfinity := by
  intro P w v hP
  have hlevels : maxLevels (batchWindows [0] w) = 0 := rfl
  have hnaive : msmNaive [0] [P] = .infinity := by
    simp [msmNaive, scalarMulAffine_zero]
  exact ⟨msm_of_no_levels (validate_ok rfl (List.forall_mem_singleton.mpr hP)) hnaive hlevels v,
    msm_of_no_levels rfl rfl rfl v⟩

/-! ### The bucket procedure (rule R107) -/

/-- Settles O52: what `buildBucketsOnBlock_leaves` says of the memory that is left, entry by entry. -/
theorem buildBucketsOnTheBlockFillsTheArray : Obligations.BuildBucketsOnTheBlockFillsTheArray := by
  intro s points values w h1 h16 hvalues hb he
  have hw := (widthOk_iff w).mpr ⟨h1, h16⟩
  have hstart : s.Reaches s.block.bkt s := ⟨hb, he, rfl, rfl, rfl⟩
  obtain ⟨m, t, ht, ⟨hidle, hunhalted, hmemory, hmoves, hepoch⟩, -, held, houtside⟩ :=
    buildBucketsOnBlock_leaves hw points hvalues hstart
  refine ⟨t, ht, fun b h1b hb2 => ?_, fun b hout => ?_, hidle, hunhalted, hmoves, hepoch⟩
  · rw [hmemory]
    exact ⟨_, held.entry b h1b hb2, map_toField_map_ofField (held.canonical b h1b hb2)⟩
  · rw [hmemory]
    exact houtside b (hout.imp_right (Nat.sub_one_lt_of_le (Nat.two_pow_pos w)))

end Sys2Proof.Machine

/-! PROOFS. The one exception of the block (60_exceptions.md): the words that raise `IllegalCommand` and what taking it leaves,
and what a halted block still does. -/

namespace Sys2Proof.Machine

/-! ### `IllegalCommand` (rule R121) -/

section Causes

variable {c : CmdWord}

/-- A set reserved bit is the first thing the decoder looks at (rule R48). -/
theorem decode_of_reserved (h : c.extractLsb' 3 5 ≠ 0 ∨ c.extractLsb' 13 19 ≠ 0) : decode c = .illegal .illegalOp := by
  obtain ⟨-, -, -, -, hchecks⟩ := decodeChecksReservedBitsThenOpcodeThenWidth
  exact (hchecks c).trans (if_pos h)

/-- A reserved opcode is checked next, and the check before it answers the same code. -/
theorem decode_of_reserved_opcode (h : c.extractLsb' 0 3 = 0 ∨ c.extractLsb' 0 3 = 6 ∨ c.extractLsb' 0 3 = 7) :
    decode c = .illegal .illegalOp := by
  obtain ⟨-, -, -, -, hchecks⟩ := decodeChecksReservedBitsThenOpcodeThenWidth
  simpa only [if_pos h, ite_self] using hchecks c

/-- A width outside `BRED` is illegal; each check before that one answers the same code. -/
theorem decode_of_width_outside_bred (hop : c.extractLsb' 0 3 ≠ 5) (hw : c.extractLsb' 8 5 ≠ 0) :
    decode c = .illegal .illegalOp := by
  obtain ⟨-, -, -, -, hchecks⟩ := decodeChecksReservedBitsThenOpcodeThenWidth
  simpa only [if_neg hop, if_pos hw, ite_self] using hchecks c

/-- A `BRED` word whose reserved bits are 0 is left to the check of its width. -/
theorem decode_of_bad_width (hrsv0 : c.extractLsb' 3 5 = 0) (hrsv1 : c.extractLsb' 13 19 = 0)
    (hop : c.extractLsb' 0 3 = 5) (hw : c.extractLsb' 8 5 = 0 ∨ 16 < (c.extractLsb' 8 5).toNat) :
    decode c = .illegal .badW := by
  obtain ⟨-, -, -, -, hchecks⟩ := decodeChecksReservedBitsThenOpcodeThenWidth
  rw [hchecks c, if_neg (by simp [hrsv0, hrsv1]), if_neg (by simp [hop]), if_pos hop, if_pos hw]

end Causes

/-- Taking the exception, on an idle block that was not halted: `ERR` and `ERRCODE` are written and all else of the block
stays (rules R121 and R126). -/
theorem step_word_illegal_frame {s : State} {c : CmdWord} {code : ErrCode} {rest : List Move}
    (hm : s.host.moves = .host (.cmd c) :: rest ∨ s.host.moves = .host (.run c) :: rest)
    (hb : s.block.status.busy = false) (he : s.block.status.err = false) (hd : decode c = .illegal code) :
    ∃ t, step s = .next t ∧ t.block.status.err = true ∧ t.block.status.errcode = errNumber code ∧
      t.block.status.busy = false ∧ t.block.status.done = s.block.status.done ∧
      (∀ j, t.block.x j = s.block.x j) ∧ (∀ b, t.block.bkt.read b = s.block.bkt.read b) ∧
      t.block.running = s.block.running :=
  ⟨_, step_word_illegal hm hb he hd, rfl, rfl, hb, rfl, fun _ => rfl, fun _ => rfl, rfl⟩

/-- Settles O6: the decoder gives each cause its code, and `step_word_illegal_frame` says what the exception leaves. -/
theorem illegalCommandSetsErrAndCodeAndNothingElse : Obligations.IllegalCommandSetsErrAndCodeAndNothingElse := by
  intro s c rest hm hb he
  refine ⟨fun hcause => step_word_illegal_frame hm hb he (code := .illegalOp) ?_,
    fun hrsv0 hrsv1 hop hw => step_word_illegal_frame hm hb he (decode_of_bad_width hrsv0 hrsv1 hop hw)⟩
  rcases hcause with hrsv0 | hrsv1 | hop | hop | hop | ⟨hop, hw⟩
  · exact decode_of_reserved (.inl hrsv0)
  · exact decode_of_reserved (.inr hrsv1)
  · exact decode_of_reserved_opcode (.inl hop)
  · exact decode_of_reserved_opcode (.inr (.inl hop))
  · exact decode_of_reserved_opcode (.inr (.inr hop))
  · exact decode_of_width_outside_bred hop hw

/-! ### The halted block (rule R123) -/

/-- Settles O7: a halted block ignores every word, and the transactions of the host ask only that it is idle. -/
theorem haltedBlockIgnoresCommandsAndServesTheHost : Obligations.HaltedBlockIgnoresCommandsAndServesTheHost := by
  intro s rest he hb
  refine ⟨fun c hm => step_word_halted (.inl hm) hb he, fun c hm => step_word_halted (.inr hm) hb he,
    fun i v hm => ?writeReg, fun b x y z hm hlt => ?writeEntry, fun k i v hm hv => ?readReg,
    fun k b e hm hlt hread => ?readEntry⟩
  case writeReg =>
    refine ⟨_, (step_wr hm).trans (s.whenIdle_idle _ hb), ?_⟩
    rw [State.writeReg_block, Block.x_writeOperand_same, Reg.seen_of]
  case writeEntry => exact ⟨_, step_wrb hm hb hlt, Memory.read_write_same _ _ _⟩
  case readReg =>
    refine ⟨_, (step_rd hm).trans (s.whenIdle_idle _ hb), ?_⟩
    simp [State.readReg_of_seen hv]
  case readEntry =>
    refine ⟨_, step_rdb hm hb hlt, ?_⟩
    simp [State.readBkt_of_read hread]

end Sys2Proof.Machine

/-! PROOFS. Reset and what a busy block refuses (70_reset_and_hazards.md). -/

namespace Sys2Proof.Machine

/-! ### Reset, status read and `RUN`, one step each (rules R135 and R138) -/

section Transactions

variable {s : State} {rest : List Move}

/-- A reset stands behind no check: it is available in every state (rules R135 and R138). -/
theorem step_reset (hm : s.host.moves = .host .reset :: rest) : step s = .next (s.withMoves rest).resetBlock :=
  step_host s _ rest hm

/-- Nor does a status read (rules R15 and R138). -/
theorem step_rds (hm : s.host.moves = .host .rds :: rest) :
    step s = .next ((s.withMoves rest).reply (.status s.block.status.word)) :=
  step_host s _ rest hm

/-- A busy block refuses `RUN` as it refuses `CMD` (rules R54 and R138). -/
theorem step_run_busy {c : CmdWord} (hm : s.host.moves = .host (.run c) :: rest) (hb : s.block.status.busy = true) :
    step s = .refused .transactionWhileBusy :=
  (step_host s _ rest hm).trans ((s.withMoves rest).whenIdle_busy _ hb)

end Transactions

/-! ### What reset leaves, and who clears `ERR` (rule R135) -/

/-- Settles O2: the block a reset leaves is the one of O1, whatever it was doing, and `step_keeps_err` is the rest. -/
theorem resetAtAnyTimeAndOnlyResetClearsErr : Obligations.ResetAtAnyTimeAndOnlyResetClearsErr :=
  ⟨fun _ _ hm => ⟨_, step_reset hm, resetLeavesStatusZeroAndAllDataUnwritten⟩, fun _ _ h => step_keeps_err h⟩

/-! ### The busy block (rule R138) -/

/-- Settles O8, one statement of the host at a time: those that are refused stand behind `State.whenIdle`. -/
theorem busyBlockRefusesAllButStatusReadAndReset : Obligations.BusyBlockRefusesAllButStatusReadAndReset := by
  refine fun s rest hb => ⟨fun st hst hm => ?refused, fun st hst hm => ?available⟩
  case refused =>
    rcases hst with ⟨i, v, rfl⟩ | ⟨k, i, rfl⟩ | ⟨b, x, y, z, rfl⟩ | ⟨k, b, rfl⟩ | ⟨c, rfl⟩ | ⟨c, rfl⟩
    · exact (step_wr hm).trans (s.whenIdle_busy _ hb)
    · exact (step_rd hm).trans (s.whenIdle_busy _ hb)
    · exact (step_wrb_checked hm).trans (s.whenIdle_busy _ hb)
    · exact (step_rdb_checked hm).trans (s.whenIdle_busy _ hb)
    · exact step_cmd_busy hm hb
    · exact step_run_busy hm hb
  case available =>
    rcases hst with rfl | rfl
    · exact ⟨_, step_rds hm⟩
    · exact ⟨_, step_reset hm⟩

end Sys2Proof.Machine
